-- ==== Sys2Proof/Word.lean ====
section
/-! DEFINITION. The plain types of BCD-CORE: bit vectors, digit groups, words, register numbers and the one value
type, BcdNumber (spec `00_scope.md` R13, R14, R16; `10_state.md` R20). No computation stands here. -/

namespace Sys2Proof

/-- A bit vector (R13): the bits in index order, so the head is index 0, the least significant bit. Its length may
be 0 and has no bound of its own; `MAXBITS` bounds what a command may make (R105). -/
abbrev Bits := List Bool

/-- One 4-bit digit group (R14, R88). The patterns 10 to 15 exist and are no digits. -/
abbrev Digit := BitVec 4

/-- A 64-bit word of `DIN` or `DOUT`, bit 0 least significant (R53). -/
abbrev Word64 := BitVec 64

/-- A 16-bit command word (R70). -/
abbrev CmdWord := BitVec 16

/-- A 3-bit register number, 0 to 7 (R21, R71); each names an implemented register (R58). -/
abbrev RegNum := BitVec 3

/-- A value: a bit vector with its stored sign flag (R16, R20). -/
structure BcdNumber where
  /-- The vector, `bits` of R20. -/
  bits : Bits
  /-- The stored sign flag, `neg` of R20; rules read it through the effective sign (R26). -/
  neg : Bool
deriving DecidableEq, Repr

/-- `ZERO4`, the canonical zero (R16): the single group `0000`, non-negative. -/
def BcdNumber.zero4 : BcdNumber := ⟨[false, false, false, false], false⟩

/-- The three results of a comparison (R15, R90). -/
inductive Cmp where
  | less
  | equal
  | greater
deriving DecidableEq, Repr

end Sys2Proof
end

