-- ==== Sys2Proof/Config.lean ====
section
/-! DEFINITION. The parameters of an implementation (spec `00_scope.md` R11, R12). `MAXBITS` is OPEN and stands as a
constant nobody can evaluate; the rest are the spec's own numbers. -/

namespace Sys2Proof

/-- The two profiles of the command set (R12). -/
inductive Profile where
  /-- Profile FULL: every command of R80. -/
  | full
  /-- Profile PUBLIC: the eleven commands that carry the source's public operations, negation and read-out. -/
  | pub
deriving DecidableEq, Repr

/-- How `toDisplayString` shows a negative sign, `SIGN_STYLE` (R11, R246): OPEN, "per caller's choice". -/
inductive SignStyle where
  /-- A leading `1111` group. -/
  | group1111
  /-- A textual minus. -/
  | minus
deriving DecidableEq, Repr

/-- `DIGIT_BITS` (R11). -/
def Config.digitBits : Nat := 4

/-- `XLEN`, the width of the native integer (R11). -/
def Config.xlen : Nat := 64

/-- `CORR`, the excess-6 correction constant `0110` (R11, R47): a constant, not state. -/
def Config.corr : Digit := 0b0110#4

/-- `NREG`, the number of value registers (R11). -/
def Config.nreg : Nat := 8

/-- `CMD_BITS`, the width of a command word (R11, R70). -/
def Config.cmdBits : Nat := 16

/-- The least value the spec allows for a finite `MAXBITS` (R11, R283). -/
def Config.minMaxBits : Nat := 76

/-- OPEN (R11, D9, U8; log 1): how far a finite `MAXBITS` lies above 76, or `none` for `inf`. A free value: it has no
body, so a statement about the model holds for every capacity the spec admits. -/
opaque Config.maxBitsAbove76 : Option Nat

/-- `MAXBITS` (R11): `none` is `inf`; a finite one is at least 76 by construction (log 1). -/
def Config.maxBits : Option Nat := Config.maxBitsAbove76.map (Config.minMaxBits + ·)

/-- The profile this model's decoder implements (R12: a model may implement either; DESIGN CHOICE, log 2). -/
def Config.profile : Profile := .full

/-- `SEP`, the separator of `toDisplayString`: OPEN, one space by the spec's default (R11, R246; log 14). -/
def Config.sepDefault : String := " "

end Sys2Proof
end

