-- ==== Sys2Proof/Syntax.lean ====
section
/-! DEFINITION. The twenty commands of BCD-CORE, one constructor for each row of `spec/opcode_table.json`
(spec `30_encoding.md` R71, R80). Operands stand in the order of the assembler syntax, destination first (R86). `DIN`,
the one operand outside the command word (R73), is no part of a command's syntax: decoding depends on the word alone
(R82). -/

namespace Sys2Proof

/-- A command (R80): `rd` the destination, `ra` and `rb` the sources, `f` the flag operand (R71). -/
inductive Instr where
  /-- `VCREATE Vd, #size` (R106). -/
  | vcreate (rd : RegNum)
  /-- `VGET Va, #index` (R107). -/
  | vget (ra : RegNum)
  /-- `VSET Vd, f, #index` (R108). -/
  | vset (rd : RegNum) (f : Bool)
  /-- `VRESIZE Vd, Va, f, #newSize` (R109). -/
  | vresize (rd ra : RegNum) (f : Bool)
  /-- `VCOPY Vd, Va` (R110). -/
  | vcopy (rd ra : RegNum)
  /-- `VLEN Va` (R112). -/
  | vlen (ra : RegNum)
  /-- `VSIGN Va` (R113). -/
  | vsign (ra : RegNum)
  /-- `REL Vd` (R114). -/
  | rel (rd : RegNum)
  /-- `FROMINT Vd, #n` (R136). -/
  | fromint (rd : RegNum)
  /-- `TOINT Va` (R137). -/
  | toint (ra : RegNum)
  /-- `TRIM Vd, Va` (R218). -/
  | trim (rd ra : RegNum)
  /-- `NEG Vd, Va` (R221). -/
  | neg (rd ra : RegNum)
  /-- `ADDM Vd, Va, Vb` (R160). -/
  | addm (rd ra rb : RegNum)
  /-- `SUBM Vd, Va, Vb` (R188). -/
  | subm (rd ra rb : RegNum)
  /-- `MULM Vd, Va, Vb` (R205). -/
  | mulm (rd ra rb : RegNum)
  /-- `CMPM Va, Vb` (R174). -/
  | cmpm (ra rb : RegNum)
  /-- `ADDS Vd, Va, Vb` (R231). -/
  | adds (rd ra rb : RegNum)
  /-- `SUBS Vd, Va, Vb` (R236). -/
  | subs (rd ra rb : RegNum)
  /-- `MULS Vd, Va, Vb` (R239). -/
  | muls (rd ra rb : RegNum)
  /-- `CMPS Va, Vb` (R243). -/
  | cmps (ra rb : RegNum)
deriving DecidableEq, Repr

end Sys2Proof
end

