-- ==== Sys2Proof/WellFormed.lean ====
section
/-! DEFINITION. When a command is one the block accepts. A register number has three bits and every one of its eight
values names an implemented register (spec `20_memory.md` R58), so an operand cannot be ill-formed; what a command can
fail is membership of the implemented profile (`00_scope.md` R12, `60_exceptions.md` R287). -/

namespace Sys2Proof

/-- The commands of profile PUBLIC (R12, column "profile" of R80). -/
def Instr.isPublic : Instr → Bool
  | .vcreate _ => false
  | .vget _ => true
  | .vset _ _ => false
  | .vresize _ _ _ => false
  | .vcopy _ _ => false
  | .vlen _ => true
  | .vsign _ => true
  | .rel _ => true
  | .fromint _ => true
  | .toint _ => true
  | .trim _ _ => false
  | .neg _ _ => true
  | .addm _ _ _ => false
  | .subm _ _ _ => false
  | .mulm _ _ _ => false
  | .cmpm _ _ => false
  | .adds _ _ _ => true
  | .subs _ _ _ => true
  | .muls _ _ _ => true
  | .cmps _ _ => true

/-- Whether a profile has the command (R12). -/
def Instr.inProfile : Profile → Instr → Bool
  | .full, _ => true
  | .pub, i => i.isPublic

/-- Well-formed in the implemented profile (R287). Under profile FULL every command is. -/
def Instr.wellFormed (i : Instr) : Bool := i.inProfile Config.profile

end Sys2Proof
end

