-- ==== Sys2Proof/Decode.lean ====
section
/-! DEFINITION. The decoder of command words and, after it, the encoder (spec `30_encoding.md` R70 to R72, R80 to R83).
There are no bytes and no byte order (R54): a command is one 16-bit word (R70). -/

namespace Sys2Proof

/-- Field `rd`, bits 10 to 8 (R71). -/
def fieldRd (w : CmdWord) : RegNum := w.extractLsb' 8 3
/-- Field `ra`, bits 7 to 5 (R71). -/
def fieldRa (w : CmdWord) : RegNum := w.extractLsb' 5 3
/-- Field `rb`, bits 4 to 2 (R71). -/
def fieldRb (w : CmdWord) : RegNum := w.extractLsb' 2 3
/-- Field `f`, bit 1 (R71). -/
def fieldF (w : CmdWord) : Bool := w.getLsbD 1
/-- Field `op`, bits 15 to 11 (R71). -/
def fieldOp (w : CmdWord) : BitVec 5 := w.extractLsb' 11 5

/-- One row of the command table of R80: a word `w` is this row's command exactly when `w & mask == pattern`, and
`read` takes the operands from the fields the row uses. -/
structure OpRow where
  /-- The row's `match` value. -/
  pattern : CmdWord
  /-- The row's `mask` value. -/
  mask : CmdWord
  /-- The command, its operands taken from the word's fields. -/
  read : CmdWord → Instr

/-- Whether a word is the command of a row (R80). -/
def OpRow.selects (r : OpRow) (w : CmdWord) : Bool := w &&& r.mask == r.pattern

/-- The command table of R80, row by row. -/
def opTable : List OpRow :=
  [ ⟨0x0800, 0xF8FF, fun w => .vcreate (fieldRd w)⟩,
    ⟨0x1000, 0xFF1F, fun w => .vget (fieldRa w)⟩,
    ⟨0x1800, 0xF8FD, fun w => .vset (fieldRd w) (fieldF w)⟩,
    ⟨0x2000, 0xF81D, fun w => .vresize (fieldRd w) (fieldRa w) (fieldF w)⟩,
    ⟨0x2800, 0xF81F, fun w => .vcopy (fieldRd w) (fieldRa w)⟩,
    ⟨0x3000, 0xFF1F, fun w => .vlen (fieldRa w)⟩,
    ⟨0x3800, 0xFF1F, fun w => .vsign (fieldRa w)⟩,
    ⟨0x4000, 0xF8FF, fun w => .rel (fieldRd w)⟩,
    ⟨0x4800, 0xF8FF, fun w => .fromint (fieldRd w)⟩,
    ⟨0x5000, 0xFF1F, fun w => .toint (fieldRa w)⟩,
    ⟨0x5800, 0xF81F, fun w => .trim (fieldRd w) (fieldRa w)⟩,
    ⟨0x6000, 0xF81F, fun w => .neg (fieldRd w) (fieldRa w)⟩,
    ⟨0x8000, 0xF803, fun w => .addm (fieldRd w) (fieldRa w) (fieldRb w)⟩,
    ⟨0x8800, 0xF803, fun w => .subm (fieldRd w) (fieldRa w) (fieldRb w)⟩,
    ⟨0x9000, 0xF803, fun w => .mulm (fieldRd w) (fieldRa w) (fieldRb w)⟩,
    ⟨0x9800, 0xFF03, fun w => .cmpm (fieldRa w) (fieldRb w)⟩,
    ⟨0xA000, 0xF803, fun w => .adds (fieldRd w) (fieldRa w) (fieldRb w)⟩,
    ⟨0xA800, 0xF803, fun w => .subs (fieldRd w) (fieldRa w) (fieldRb w)⟩,
    ⟨0xB000, 0xF803, fun w => .muls (fieldRd w) (fieldRa w) (fieldRb w)⟩,
    ⟨0xB800, 0xFF03, fun w => .cmps (fieldRa w) (fieldRb w)⟩ ]

/-- Why a word is no command of the block. All three end as IllegalCommand (R287); the name says which clause of
`30_encoding.md` refuses the word (log 9). -/
inductive Illegal where
  /-- Raised by the decoder for a reserved operation code (R81). Safe: the spec's own verdict. -/
  | reservedOpcode
  /-- Raised by the decoder where an unused field or the bit `z` is not 0 (R72, R83). Safe: the spec's own verdict. -/
  | nonzeroField
  /-- Raised by the decoder for a command outside the implemented profile (R12, R287). Safe: the spec's own verdict. -/
  | outsideProfile
deriving DecidableEq, Repr

/-- The reserved operation codes (R81): 0x00, 0x0D, 0x0E, 0x0F and 0x18 to 0x1F. -/
def reservedOp (op : BitVec 5) : Bool :=
  op == 0x00 || op == 0x0D || op == 0x0E || op == 0x0F || decide (0x18#5 ≤ op)

/-- Decoding for a profile, total on all words (R82): the command of the row that selects the word, if there is one
and the profile has it. -/
def decodeIn (p : Profile) (w : CmdWord) : Except Illegal Instr :=
  match opTable.find? (·.selects w) with
  | some row => if (row.read w).inProfile p then .ok (row.read w) else .error .outsideProfile
  | none => if reservedOp (fieldOp w) then .error .reservedOpcode else .error .nonzeroField

/-- The decoder of the implemented profile. -/
def decode (w : CmdWord) : Except Illegal Instr := decodeIn Config.profile w

/-- The instruction the decoder reads from `nbits` bits numbered as the opcode table numbers them, bit 0 the least
significant of the one command word; the bits above `nbits` are 0. A command is 16 bits, so a number with a bit above
bit 15 is no command word. -/
def decodeTableWord (nbits w : Nat) : Option Instr :=
  if w % 2 ^ nbits < 2 ^ 16 then (decode (BitVec.ofNat 16 (w % 2 ^ nbits))).toOption else none

/-! ### The encoder -/

/-- A command word from its fields (R71): `op << 11 | rd << 8 | ra << 5 | rb << 2 | f << 1 | z`, with `z` 0. -/
def packWord (op : BitVec 5) (rd ra rb : RegNum) (f : Bool) : CmdWord :=
  op.setWidth 16 <<< 11 ||| rd.setWidth 16 <<< 8 ||| ra.setWidth 16 <<< 5 ||| rb.setWidth 16 <<< 2 |||
    (BitVec.ofBool f).setWidth 16 <<< 1

/-- The word of a command: its operation code (column `op` of R80) with the fields it uses, the others 0 (R72). -/
def encode : Instr → CmdWord
  | .vcreate rd => packWord 0x01 rd 0 0 false
  | .vget ra => packWord 0x02 0 ra 0 false
  | .vset rd f => packWord 0x03 rd 0 0 f
  | .vresize rd ra f => packWord 0x04 rd ra 0 f
  | .vcopy rd ra => packWord 0x05 rd ra 0 false
  | .vlen ra => packWord 0x06 0 ra 0 false
  | .vsign ra => packWord 0x07 0 ra 0 false
  | .rel rd => packWord 0x08 rd 0 0 false
  | .fromint rd => packWord 0x09 rd 0 0 false
  | .toint ra => packWord 0x0A 0 ra 0 false
  | .trim rd ra => packWord 0x0B rd ra 0 false
  | .neg rd ra => packWord 0x0C rd ra 0 false
  | .addm rd ra rb => packWord 0x10 rd ra rb false
  | .subm rd ra rb => packWord 0x11 rd ra rb false
  | .mulm rd ra rb => packWord 0x12 rd ra rb false
  | .cmpm ra rb => packWord 0x13 0 ra rb false
  | .adds rd ra rb => packWord 0x14 rd ra rb false
  | .subs rd ra rb => packWord 0x15 rd ra rb false
  | .muls rd ra rb => packWord 0x16 rd ra rb false
  | .cmps ra rb => packWord 0x17 0 ra rb false

end Sys2Proof
end

