-- ==== Sys2Proof/Machine/State.lean ====
section
/-! DEFINITION. The state of BCD-CORE as plain data (spec `10_state.md` R49), with the host's side of the transaction
interface (R9, R10, R33, R310), and the state after reset (R36, R310, R312). -/

namespace Sys2Proof.Machine

/-- What the host does to the block (R9, R10, R310): it presents a command, or it resets the block. -/
inductive HostEvent where
  /-- A transaction: the command word `CMD` and the data-in word `DIN` presented with it (R10, R33). -/
  | command (cmd : CmdWord) (din : Word64)
  /-- A reset, "an event from the host, outside the command stream" (R310). -/
  | reset
deriving DecidableEq, Repr

/-- The whole state. `regs`, `status` and `dout` are the block's (R49); `din` and `pending` are the model's own fields
for the block's inputs, which R33 says are no state of the block (log 3, log 4). -/
structure State where
  /-- The value registers `V0` to `V7`, each absent (`none`) or present with a value (R21, R49). -/
  regs : Vector (Option BcdNumber) 8
  /-- `STATUS`, the outcome of the latest command (R31, R280). -/
  status : BitVec 3
  /-- `DOUT`, the datum of the latest command that returned one (R32). -/
  dout : Word64
  /-- The data-in port: the `DIN` the host drives while a command runs (R33, R318). The model's own field (log 4). -/
  din : Word64
  /-- What the host will present, the earliest first (R10, R60). The model's own field (log 3). -/
  pending : List HostEvent
deriving DecidableEq, Repr

/-- The state after reset (R36, R310, R312): every value register absent, `STATUS` and `DOUT` 0. The host presents
nothing yet and its port is at 0 (DESIGN CHOICE, log 3, log 4). -/
def State.reset : State :=
  { regs := Vector.replicate 8 none, status := 0, dout := 0, din := 0, pending := [] }

/-- Faults: reasons for the machine to stop. There is no constructor, because nothing in the spec stops the machine:
every function is total (R19), every word decodes to a command or to IllegalCommand (R82), an error of a command is a
`STATUS` value and the next command executes normally (R282, R293), and every command ends (R319). Safe: the type says
that no step is a fault (log 11). -/
inductive Fault where
deriving DecidableEq, Repr

/-- Refusals: reasons for the model to give no meaning. -/
inductive Refusal where
  /-- Raised by `exec` for a command the model has not reached. Safe: nothing is claimed of it. No arm raises it: all
  twenty commands have their meaning. -/
  | notModelled (mnemonic : String)
deriving DecidableEq, Repr

end Sys2Proof.Machine
end

