-- ==== Sys2Proof/Machine/Ops.lean ====
section
/-! DEFINITION. The named operations over the state: reading and writing value registers, the two ways a command ends
(with its result, or with an error: the one shared operation that takes the place of an exception), the reset of the
block, and the host's presenting of a command. -/

namespace Sys2Proof.Machine

/-- The errors a command can end in (R280). -/
inductive Err where
  /-- A vector longer than `MAXBITS` would have to be made (R283). -/
  | allocationFailure
  /-- `ADDM` operands of different length, or of a length not a multiple of 4 (R284). -/
  | sizeMismatch
  /-- An operand has a digit group above 9 (R285). -/
  | invalidDigit
  /-- `TOINT`: the value is outside the native integer's range (R288). -/
  | overflow
  /-- A source register is absent (R286). -/
  | absentOperand
  /-- The command word is not a command (R287). -/
  | illegalCommand
deriving DecidableEq, Repr

/-- The outcome codes of R280; 0 is OK, 7 is never written. -/
def Err.code : Err → BitVec 3
  | .allocationFailure => 1
  | .sizeMismatch => 2
  | .invalidDigit => 3
  | .overflow => 4
  | .absentOperand => 5
  | .illegalCommand => 6

/-- `V[r]` as a read (R15, R21): `none` is absent. -/
def State.read (s : State) (r : RegNum) : Option BcdNumber := s.regs[r.toNat]'r.isLt

/-- `V[r] <- v` (R15, R21); `none` makes the register absent. -/
def State.write (s : State) (r : RegNum) (v : Option BcdNumber) : State :=
  { s with regs := s.regs.set r.toNat v r.isLt }

/-- `DOUT <- d` (R32). -/
def State.setDout (s : State) (d : Word64) : State := { s with dout := d }

/-- `done` (R111): `STATUS <- 0`. -/
def State.done (s : State) : State := { s with status := 0 }

/-- How a command ends in an error, the one place of it (R111, R281, R282): `STATUS <- code(E)` and no other change. No
handler, vector, saved state or mode is involved (R292), and there is no return from it (R293). -/
def State.raise (s : State) (e : Err) : State := { s with status := e.code }

/-- `src(r)` (R111): the value of a present register, else AbsentOperand (R286). -/
def src (s : State) (r : RegNum) : Except Err BcdNumber :=
  match s.read r with
  | some x => .ok x
  | none => .error .absentOperand

/-- The end of a command that writes a value register (R25, R111, R282): the destination receives the result and
`STATUS` is 0, or `STATUS` receives the error's code and nothing else changes. -/
def commitReg (rd : RegNum) (result : Except Err BcdNumber) (s : State) : Host.Outcome State Fault Refusal :=
  match result with
  | .ok v => .next (s.write rd (some v)).done
  | .error e => .next (s.raise e)

/-- The end of a command that returns a datum (R32, R74, R111, R282). -/
def commitDout (result : Except Err Word64) (s : State) : Host.Outcome State Fault Refusal :=
  match result with
  | .ok d => .next (s.setDout d).done
  | .error e => .next (s.raise e)

/-- The reset of the block (R310): every register absent, `STATUS` and `DOUT` 0, whatever the state before. The host's
port and its further events are no state of the block and stay (log 6). -/
def State.resetBlock (s : State) : State :=
  { s with regs := Vector.replicate 8 none, status := 0, dout := 0 }

/-- The host presents a command's `DIN` on the port; `rest` is what it will present later (R10, R33, R318). -/
def State.accept (s : State) (din : Word64) (rest : List HostEvent) : State :=
  { s with din := din, pending := rest }

/-- The state with a command word standing where the next step takes its command: in place of the word of the next
command, whose `DIN` it keeps, or before all other events where the next is no command, with the level the data-in
port has (log 10). -/
def State.presentWord (s : State) (w : CmdWord) : State :=
  match s.pending with
  | .command _ d :: rest => { s with pending := .command w d :: rest }
  | rest => { s with pending := .command w s.din :: rest }

end Sys2Proof.Machine
end

