-- ==== Sys2Proof/Machine/Bits.lean ====
section
/-! DEFINITION. The BitVector component: create, get, set, resize, copy (spec `40_bitvector.md` R100 to R105), and the
reading of a vector as digit groups (`00_scope.md` R13, R14). -/

namespace Sys2Proof.Machine

/-- Whether a vector of `n` bits may be made: `n` is at most `MAXBITS` (R11, R105). The first test is the spec's bound
on the parameter, so that the lengths every implementation can make are decided without its value (log 1). -/
def fits (n : Nat) : Bool :=
  decide (n ≤ Config.minMaxBits) ||
    match Config.maxBits with
    | none => true
    | some m => decide (n ≤ m)

/-- Making a vector (R105): AllocationFailure where it would be longer than `MAXBITS`. -/
def make (X : Bits) : Except Err Bits :=
  if fits X.length then .ok X else .error .allocationFailure

/-- `zeros(n)` (R13). -/
def zeros (n : Nat) : Bits := List.replicate n false

/-- `create(size)` (R100, R105). -/
def create (size : Nat) : Except Err Bits :=
  if fits size then .ok (zeros size) else .error .allocationFailure

/-- `get(X, i)` (R101): 0 beyond the end. -/
def getBit (X : Bits) (i : Nat) : Bool := X.getD i false

/-- `set(X, i, b)` (R102): no change beyond the end. -/
def setBit (X : Bits) (i : Nat) (b : Bool) : Bits := if i < X.length then X.set i b else X

/-- The vector `resize` makes (R103): the low `n` bits, zero bits above the old length. -/
def resized (X : Bits) (n : Nat) : Bits := X.take n ++ zeros (n - X.length)

/-- `resize(X, n)` (R103, R105). -/
def resize (X : Bits) (n : Nat) : Except Err Bits :=
  if fits n then .ok (resized X n) else .error .allocationFailure

/-- `copy(X)` (R104): the same bits and length; no longer than its source, so it cannot fail (R283). -/
def copyBits (X : Bits) : Bits := X

/-- `roundUp4(n)` (R14). -/
def roundUp4 (n : Nat) : Nat := 4 * ((n + 3) / 4)

/-- `ngroups(X)` (R14). -/
def ngroups (X : Bits) : Nat := roundUp4 X.length / 4

/-- `dig(X, k)` (R14) as the 4-bit group it is; a partial top group reads as zero-extended. -/
def dig (X : Bits) (k : Nat) : Digit :=
  BitVec.ofBool (getBit X (4 * k + 3)) ++ BitVec.ofBool (getBit X (4 * k + 2)) ++
    BitVec.ofBool (getBit X (4 * k + 1)) ++ BitVec.ofBool (getBit X (4 * k))

/-- The digit groups of a vector, group 0 first (R14, R51). -/
def groups (X : Bits) : List Digit := (List.range (ngroups X)).map (dig X)

/-- `nib(d)` (R14): the four bits of a group, the least significant first (R51, R88). -/
def nib (d : Digit) : Bits := [d.getLsbD 0, d.getLsbD 1, d.getLsbD 2, d.getLsbD 3]

/-- The vector of a sequence of groups, group 0 lowest (R89). -/
def ofGroups (ds : List Digit) : Bits := ds.flatMap nib

/-- The sum of the digits at their decimal weights (R14). -/
def digitsVal : List Digit → Nat
  | [] => 0
  | d :: ds => d.toNat + 10 * digitsVal ds

/-- `decval(X)` (R14). -/
def decval (X : Bits) : Nat := digitsVal (groups X)

/-- `val(X)` (R13): bit `i` has weight `2^i`. -/
def val : Bits → Nat
  | [] => 0
  | b :: bs => b.toNat + 2 * val bs

/-- `validDigits(X)` (R28, R130): every group is a decimal digit. -/
def validDigits (X : Bits) : Bool := (groups X).all fun d => decide (d.toNat ≤ 9)

/-- `cw(A, B)`, the common width (R158): `max(4, roundUp4(max(len(A), len(B))))`. -/
def cw (A B : Bits) : Nat := max 4 (roundUp4 (max A.length B.length))

end Sys2Proof.Machine
end

