-- ==== Sys2Proof/Machine/Flags.lean ====
section
/-! DEFINITION. The flags (spec `10_state.md` R34): a register's presence, its stored sign read as the effective sign
(R16, R26), and the derived predicates on values (R28, R29). There are no carry, zero, overflow or comparison flags
(R34), so nothing else is computed; `STATUS` is written by the operations of Ops. -/

namespace Sys2Proof.Machine

/-- `V[r].present` (R34(a)). -/
def State.present (s : State) (r : RegNum) : Bool := (s.read r).isSome

/-- `isZero(X)` (R14): every bit is 0, also of an empty vector. -/
def isZero (X : Bits) : Bool := X.all (!·)

/-- `effneg(x)`, the effective sign (R16, R26). -/
def effneg (x : BcdNumber) : Bool := x.neg && !isZero x.bits

/-- `value(x)` (R16); meaningful for valid digits. -/
def value (x : BcdNumber) : Int := if effneg x then -(decval x.bits : Int) else decval x.bits

/-- Well-formed (R28): a multiple of 4 bits, at least 4, every group a digit. -/
def wellFormed (x : BcdNumber) : Bool :=
  x.bits.length % 4 == 0 && decide (4 ≤ x.bits.length) && validDigits x.bits

/-- Canonical (R29): well-formed, and `ZERO4` or with a top digit group that is not 0. -/
def canonical (x : BcdNumber) : Bool :=
  wellFormed x && (x == BcdNumber.zero4 || dig x.bits (x.bits.length / 4 - 1) != 0)

end Sys2Proof.Machine
end

