-- ==== Sys2Proof/Machine/Operands.lean ====
section
/-! DEFINITION. How a command's operands are read: the data-in word (spec `30_encoding.md` R73, `20_memory.md` R53), the
source registers (R111), the validation of the arithmetic commands (R244, R285), and how a datum is laid out in `DOUT`
(R74, R90). -/

namespace Sys2Proof.Machine

/-- `zext_64(DIN)` (R15, R53, R73): a size, length or bit index. -/
def dinNat (s : State) : Nat := s.din.toNat

/-- `sext_64(DIN)` (R15, R53, R73): the signed integer of `FROMINT`. -/
def dinInt (s : State) : Int := s.din.toInt

/-- The two sources of a two-operand command, both present (R111, R286). -/
def src2 (s : State) (ra rb : RegNum) : Except Err (BcdNumber × BcdNumber) := do
  let x ← src s ra
  let y ← src s rb
  return (x, y)

/-- The validation of the arithmetic commands (R285(b)): InvalidDigit unless both operands have valid digits. -/
def checkDigits (x y : BcdNumber) : Except Err Unit :=
  if validDigits x.bits && validDigits y.bits then .ok () else .error .invalidDigit

/-- A bit or flag as a datum, zero-extended (R53, R74). -/
def bitDatum (b : Bool) : Word64 := BitVec.setWidth 64 (BitVec.ofBool b)

/-- A length as a datum: modulo `2^64` (R74, R112). -/
def lenDatum (n : Nat) : Word64 := BitVec.ofNat 64 n

/-- A signed integer as a datum: its 64-bit two's complement pattern (R53). -/
def intDatum (v : Int) : Word64 := BitVec.ofInt 64 v

/-- A comparison result as a datum (R90): -1, 0, +1. -/
def cmpDatum : Cmp → Word64
  | .less => 0xFFFFFFFFFFFFFFFF
  | .equal => 0x0000000000000000
  | .greater => 0x0000000000000001

end Sys2Proof.Machine
end

