-- ==== Sys2Proof/Machine/Codec.lean ====
section
/-! DEFINITION. The DigitCodec: integers to and from digit vectors, FROMINT and TOINT (spec `41_digit_codec.md` R130 to
R139). -/

namespace Sys2Proof.Machine

/-- The decimal digits of `m` counted by dividing by ten, at most `fuel` of them. -/
def digitCountFrom : Nat → Nat → Nat
  | 0, _ => 1
  | fuel + 1, m => if m < 10 then 1 else 1 + digitCountFrom fuel (m / 10)

/-- `digitCount(m)` (R131): decimal digits without leading zeros, 1 for 0. A number has at most as many decimal as
binary digits. -/
def digitCount (m : Nat) : Nat := digitCountFrom m.log2 m

/-- The digit groups of `fromNat(m)` (R139): group `k` is `(m div 10^k) mod 10`. -/
def natDigits (m : Nat) : List Digit :=
  (List.range (digitCount m)).map fun k => BitVec.ofNat 4 (m / 10 ^ k % 10)

/-- `fromNat(m)` (R139, R105). -/
def fromNat (m : Nat) : Except Err Bits := make (ofGroups (natDigits m))

/-- `fromInteger(n)` (R132, R133): the magnitude is exact, with no wrap at the minimum. -/
def fromInteger (n : Int) : Except Err BcdNumber := do
  let X ← fromNat n.natAbs
  return ⟨X, decide (n < 0)⟩

/-- `toInteger(x)` (R134, R135): all groups are validated first, then the true value is tested against the range. -/
def toInteger (x : BcdNumber) : Except Err Int :=
  if validDigits x.bits then
    if value x < -(2 ^ 63 : Int) ∨ (2 ^ 63 - 1 : Int) < value x then .error .overflow
    else .ok (value x)
  else .error .invalidDigit

/-- `FROMINT Vd, #n` (R136). -/
def execFromint (rd : RegNum) (s : State) : Host.Outcome State Fault Refusal :=
  commitReg rd (fromInteger (dinInt s)) s

/-- `TOINT Va` (R137): errors in the order AbsentOperand, InvalidDigit, Overflow. -/
def execToint (ra : RegNum) (s : State) : Host.Outcome State Fault Refusal :=
  commitDout (do
    let x ← src s ra
    let v ← toInteger x
    return intDatum v) s

end Sys2Proof.Machine
end

