-- ==== Sys2Proof/Machine/Canonicalizer.lean ====
section
/-! DEFINITION. The Canonicalizer and negation: TRIM and NEG (spec `46_canonicalizer.md` R215 to R222). -/

namespace Sys2Proof.Machine

/-- The number of groups left when leading zero groups are skipped from the most significant down: one more than the
number `h` of the highest group that is not zero, or 0 if there is none (R215). -/
def significantGroups (X : Bits) : Nat := ((groups X).reverse.dropWhile (· == 0)).length

/-- `trim(x)` (R215, R217, R222): the stored sign is kept, but a zero becomes `ZERO4`. -/
def trim (x : BcdNumber) : Except Err BcdNumber :=
  if significantGroups x.bits = 0 then .ok BcdNumber.zero4
  else do
    let X ← resize x.bits (4 * significantGroups x.bits)
    return ⟨X, x.neg⟩

/-- `negate(x)` (R219): the vector unchanged, the stored sign inverted, a zero non-negative. -/
def negate (x : BcdNumber) : BcdNumber :=
  if isZero x.bits then ⟨copyBits x.bits, false⟩ else ⟨copyBits x.bits, !x.neg⟩

/-- `TRIM Vd, Va` (R218). -/
def execTrim (rd ra : RegNum) (s : State) : Host.Outcome State Fault Refusal :=
  commitReg rd (do
    let x ← src s ra
    trim x) s

/-- `NEG Vd, Va` (R221). -/
def execNeg (rd ra : RegNum) (s : State) : Host.Outcome State Fault Refusal :=
  commitReg rd (do
    let x ← src s ra
    return negate x) s

end Sys2Proof.Machine
end

