-- ==== Sys2Proof/Machine/Adder.lean ====
section
/-! DEFINITION. The BcdCorrector and the BcdAdder, and ADDM (spec `42_corrector_adder.md` R150 to R163). -/

namespace Sys2Proof.Machine

/-- `correct(v, bc)` (R150, R151): excess-6 correction of a raw 4-bit sum `v` with the binary carry `bc` out of its
addition (R152); the carry out of bit 3 of the correction is dropped. -/
def correct (v : Digit) (bc : Bool) : Digit × Bool :=
  if 9 < v.toNat ∨ bc = true then (v + Config.corr, true) else (v, false)

/-- One digit step (R153): the raw sum of two groups and the decimal carry from the group below, corrected. -/
def digitStep (a b : Digit) (cin : Bool) : Digit × Bool :=
  let raw := a.toNat + b.toNat + cin.toNat
  correct (BitVec.ofNat 4 (raw % 16)) (decide (raw / 16 = 1))

/-- The four bit positions of a group added in binary, lowest first, with ordinary bit-to-bit carries: the raw 4-bit
sum and the bit-carry (R159). -/
def rippleSum (a b : Digit) (cin : Bool) : Digit × Bool :=
  let sum (j : Nat) (c : Bool) : Bool := (a.getLsbD j ^^ b.getLsbD j) ^^ c
  let carry (j : Nat) (c : Bool) : Bool :=
    (a.getLsbD j && b.getLsbD j) || (a.getLsbD j && c) || (b.getLsbD j && c)
  let c1 := carry 0 cin
  let c2 := carry 1 c1
  let c3 := carry 2 c2
  (BitVec.ofBool (sum 3 c3) ++ BitVec.ofBool (sum 2 c2) ++ BitVec.ofBool (sum 1 c1) ++ BitVec.ofBool (sum 0 cin),
    carry 3 c3)

/-- The digit steps of an addition, low to high (R154): the result's groups and the carry out of the highest. -/
def addGroups : List Digit → List Digit → Bool → List Digit × Bool
  | a :: as, b :: bs, cin =>
    let step := digitStep a b cin
    let rest := addGroups as bs step.2
    (step.1 :: rest.1, rest.2)
  | _, _, cin => ([], cin)

/-- `add(A, B)` (R154, R155, R163): SizeMismatch unless the lengths are equal and a multiple of 4; a final carry grows
the result by the group `0001`. Magnitudes only. -/
def add (A B : Bits) : Except Err Bits :=
  if A.length ≠ B.length ∨ A.length % 4 ≠ 0 then .error .sizeMismatch
  else do
    let _ ← create A.length
    let sum := addGroups (groups A) (groups B) false
    if sum.2 then make (ofGroups sum.1 ++ nib 1) else return ofGroups sum.1

/-- `ADDM Vd, Va, Vb` (R160): no padding, stored signs ignored; errors in the order AbsentOperand, SizeMismatch,
InvalidDigit, AllocationFailure. -/
def execAddm (rd ra rb : RegNum) (s : State) : Host.Outcome State Fault Refusal :=
  commitReg rd (do
    let (x, y) ← src2 s ra rb
    if x.bits.length ≠ y.bits.length ∨ x.bits.length % 4 ≠ 0 then throw .sizeMismatch
    checkDigits x y
    let R ← add x.bits y.bits
    return ⟨R, false⟩) s

end Sys2Proof.Machine
end

