-- ==== Sys2Proof/Machine/Multiplier.lean ====
section
/-! DEFINITION. The BcdMultiplier and MULM: long multiplication by repeated addition, shift and accumulation (spec
`45_multiplier.md` R200 to R209). -/

namespace Sys2Proof.Machine

/-- Addition after padding both operands to the larger of their widths (R201, R203). -/
def addPadded (A B : Bits) : Except Err Bits := do
  let A' ← resize A (max A.length B.length)
  let B' ← resize B (max A.length B.length)
  add A' B'

/-- The repeated additions of a partial product (R201): `A` added `d` times to the running sum `P`. -/
def addTimes (A : Bits) : Nat → Bits → Except Err Bits
  | 0, P => .ok P
  | d + 1, P => do
    let P' ← addPadded P A
    addTimes A d P'

/-- `partial(A', d)` (R201): the additions start from a zero vector as wide as `A'` (D23). -/
def partialProduct (A : Bits) (d : Nat) : Except Err Bits := do
  let P ← create A.length
  addTimes A d P

/-- The vector `shl` makes (R202): `P` at bit position `s` of a zero buffer of `width` bits; bits beyond it are
dropped. -/
def shifted (P : Bits) (s width : Nat) : Bits := resized (zeros s ++ P) width

/-- `shl(P, s, width)` (R202, R105). -/
def shl (P : Bits) (s width : Nat) : Except Err Bits :=
  if fits width then .ok (shifted P s width) else .error .allocationFailure

/-- The walk over the multiplier's digit groups, low to high, from group number `k` on (R204): zero digits are
skipped, group `k` shifts its partial product by `4k` bits (R209), the running total accumulates (R203). -/
def accumulate (A : Bits) (RW : Nat) : List Digit → Nat → Bits → Except Err Bits
  | [], _, total => .ok total
  | d :: ds, k, total =>
    if d = 0 then accumulate A RW ds (k + 1) total
    else do
      let P ← partialProduct A d.toNat
      let Q ← shl P (4 * k) RW
      let total' ← addPadded total Q
      accumulate A RW ds (k + 1) total'

/-- `multiplyMagnitude(A, B)` (R204; the result width is that of the padded operands, `90_conflicts.md` C11). -/
def multiplyMagnitude (A B : Bits) : Except Err Bits := do
  let A' ← resize A (roundUp4 A.length)
  let B' ← resize B (roundUp4 B.length)
  let total ← create (A'.length + B'.length)
  accumulate A' (A'.length + B'.length) (groups B') 0 total

/-- `MULM Vd, Va, Vb` (R205): stored signs ignored, no zero shortcut, the result not trimmed. -/
def execMulm (rd ra rb : RegNum) (s : State) : Host.Outcome State Fault Refusal :=
  commitReg rd (do
    let (x, y) ← src2 s ra rb
    checkDigits x y
    let P ← multiplyMagnitude x.bits y.bits
    return ⟨P, false⟩) s

end Sys2Proof.Machine
end

