-- ==== Sys2Proof/Machine/Comparator.lean ====
section
/-! DEFINITION. The BcdComparator and CMPM (spec `43_comparator.md` R170 to R175). -/

namespace Sys2Proof.Machine

/-- `efflen(X)` (R170): the length left when leading zero bits are skipped from the most significant bit down. -/
def efflen (X : Bits) : Nat := (X.reverse.dropWhile (!·)).length

/-- The bit-by-bit comparison of the low `n` bits, most significant first (R171). -/
def compareDown (A B : Bits) : Nat → Cmp
  | 0 => .equal
  | i + 1 =>
    if getBit A i && !getBit B i then .greater
    else if !getBit A i && getBit B i then .less
    else compareDown A B i

/-- `compareMagnitude(A, B)` (R171): the longer effective length wins, else the first differing bit decides. -/
def compareMagnitude (A B : Bits) : Cmp :=
  if efflen A > efflen B then .greater
  else if efflen A < efflen B then .less
  else compareDown A B (efflen A)

/-- The comparison of two registers' contents, absent ones included (R173, R174). -/
def compareOperands : Option BcdNumber → Option BcdNumber → Except Err Cmp
  | none, none => .error .absentOperand
  | none, some _ => .ok .less
  | some _, none => .ok .greater
  | some x, some y => .ok (compareMagnitude x.bits y.bits)

/-- `CMPM Va, Vb` (R174): the only command that accepts an absent source. -/
def execCmpm (ra rb : RegNum) (s : State) : Host.Outcome State Fault Refusal :=
  commitDout (do
    let c ← compareOperands (s.read ra) (s.read rb)
    return cmpDatum c) s

end Sys2Proof.Machine
end

