-- ==== Sys2Proof/Machine/Subtractor.lean ====
section
/-! DEFINITION. The BcdSubtractor and SUBM: subtraction by 9's and 10's complement with the end-around-carry test (spec
`44_subtractor.md` R180 to R191; the corrected clause of step 6 is `90_conflicts.md` C2, log 17). -/

namespace Sys2Proof.Machine

/-- The 9's complement of one group (R182): `9 - d`, taken modulo 16 above 9, where no command reaches (log 12). -/
def nine (d : Digit) : Digit := 9#4 - d

/-- `nines(X)` (R182). -/
def nines (X : Bits) : Bits := ofGroups ((groups X).map nine)

/-- Step 6 (R185): the magnitude by the three cases of the end-around-carry test, in their order. `W` is the common
width, `Wadd` the width `W'` of the addition of step 5. -/
def endAround (cmp : Cmp) (W Wadd : Nat) (U : Bits) : Except Err Bits :=
  if U.length > Wadd then resize U Wadd
  else if cmp = .equal then create 4
  else resize U W

/-- `subtractMagnitude(A, B)` (R181 to R187): the magnitude of the difference and the sign of `A - B`. -/
def subtractMagnitude (A B : Bits) : Except Err (Bits × Bool) := do
  let cmp := compareMagnitude A B
  let larger := if cmp = .less then B else A
  let smaller := if cmp = .less then A else B
  let W := cw A B
  let L ← resize larger W
  let S ← resize smaller W
  let one ← resize (nib 1) W
  let T ← add (nines S) one
  let L' ← resize L T.length
  let U ← add L' T
  let M ← endAround cmp W T.length U
  return (M, if isZero M then false else decide (cmp = .less))

/-- `SUBM Vd, Va, Vb` (R188): stored signs ignored, operands padded, the result not trimmed. -/
def execSubm (rd ra rb : RegNum) (s : State) : Host.Outcome State Fault Refusal :=
  commitReg rd (do
    let (x, y) ← src2 s ra rb
    checkDigits x y
    let (M, sign) ← subtractMagnitude x.bits y.bits
    return ⟨M, sign⟩) s

end Sys2Proof.Machine
end

