-- ==== Sys2Proof/Machine/Signed.lean ====
section
/-! DEFINITION. The signed operations the core exposes: ADDS, SUBS, MULS, CMPS (spec `47_signed_ops.md` R230 to R244). -/

namespace Sys2Proof.Machine

/-- `addSigned(a, b)` (R230, R232, R234): same effective signs add the magnitudes, different ones subtract them; both
branches trim (`90_conflicts.md` C14). -/
def addSigned (a b : BcdNumber) : Except Err BcdNumber :=
  if effneg a = effneg b then do
    let A ← resize a.bits (cw a.bits b.bits)
    let B ← resize b.bits (cw a.bits b.bits)
    let R ← add A B
    trim ⟨R, effneg a⟩
  else do
    let (R, t) ← subtractMagnitude a.bits b.bits
    trim ⟨R, effneg a ^^ t⟩

/-- `subtractSigned(a, b)` (R235). -/
def subtractSigned (a b : BcdNumber) : Except Err BcdNumber := addSigned a (negate b)

/-- `multiplySigned(a, b)` (R237, R238, R240). -/
def multiplySigned (a b : BcdNumber) : Except Err BcdNumber :=
  if isZero a.bits || isZero b.bits then .ok BcdNumber.zero4
  else do
    let P ← multiplyMagnitude a.bits b.bits
    trim ⟨P, effneg a ^^ effneg b⟩

/-- The opposite of a comparison result (R241). -/
def opposite : Cmp → Cmp
  | .less => .greater
  | .equal => .equal
  | .greater => .less

/-- `compareSigned(a, b)` (R241): differing signs decide, equal signs compare magnitudes. -/
def compareSigned (a b : BcdNumber) : Cmp :=
  if effneg a ≠ effneg b then (if effneg a then .less else .greater)
  else if effneg a then opposite (compareMagnitude a.bits b.bits)
  else compareMagnitude a.bits b.bits

/-- `ADDS Vd, Va, Vb` (R231, R244): errors in the order AbsentOperand, InvalidDigit, AllocationFailure. -/
def execAdds (rd ra rb : RegNum) (s : State) : Host.Outcome State Fault Refusal :=
  commitReg rd (do
    let (x, y) ← src2 s ra rb
    checkDigits x y
    addSigned x y) s

/-- `SUBS Vd, Va, Vb` (R236, R244). -/
def execSubs (rd ra rb : RegNum) (s : State) : Host.Outcome State Fault Refusal :=
  commitReg rd (do
    let (x, y) ← src2 s ra rb
    checkDigits x y
    subtractSigned x y) s

/-- `MULS Vd, Va, Vb` (R239, R244): the validation comes before the zero shortcut (R240). -/
def execMuls (rd ra rb : RegNum) (s : State) : Host.Outcome State Fault Refusal :=
  commitReg rd (do
    let (x, y) ← src2 s ra rb
    checkDigits x y
    multiplySigned x y) s

/-- `CMPS Va, Vb` (R243): digits are not validated; an absent operand is an error. -/
def execCmps (ra rb : RegNum) (s : State) : Host.Outcome State Fault Refusal :=
  commitDout (do
    let (x, y) ← src2 s ra rb
    return cmpDatum (compareSigned x y)) s

end Sys2Proof.Machine
end

