-- ==== Sys2Proof/Machine/VectorCommands.lean ====
section
/-! DEFINITION. The vector commands VCREATE, VGET, VSET, VRESIZE, VCOPY, VLEN, VSIGN, REL (spec `40_bitvector.md` R106 to
R114). -/

namespace Sys2Proof.Machine

/-- `VCREATE Vd, #size` (R106): a zero vector, non-negative. -/
def execVcreate (rd : RegNum) (s : State) : Host.Outcome State Fault Refusal :=
  commitReg rd (do
    let X ← create (dinNat s)
    return ⟨X, false⟩) s

/-- `VGET Va, #index` (R107). -/
def execVget (ra : RegNum) (s : State) : Host.Outcome State Fault Refusal :=
  commitDout (do
    let x ← src s ra
    return bitDatum (getBit x.bits (dinNat s))) s

/-- `VSET Vd, f, #index` (R108): the sign is kept, digits are not checked. -/
def execVset (rd : RegNum) (f : Bool) (s : State) : Host.Outcome State Fault Refusal :=
  commitReg rd (do
    let x ← src s rd
    return ⟨setBit x.bits (dinNat s) f, x.neg⟩) s

/-- `VRESIZE Vd, Va, f, #newSize` (R109): `f` is `preserveSign`. -/
def execVresize (rd ra : RegNum) (f : Bool) (s : State) : Host.Outcome State Fault Refusal :=
  commitReg rd (do
    let x ← src s ra
    let X ← resize x.bits (dinNat s)
    return ⟨X, if f then x.neg else false⟩) s

/-- `VCOPY Vd, Va` (R110): the stored sign is copied with the bits. -/
def execVcopy (rd ra : RegNum) (s : State) : Host.Outcome State Fault Refusal :=
  commitReg rd (do
    let x ← src s ra
    return ⟨copyBits x.bits, x.neg⟩) s

/-- `VLEN Va` (R112). -/
def execVlen (ra : RegNum) (s : State) : Host.Outcome State Fault Refusal :=
  commitDout (do
    let x ← src s ra
    return lenDatum x.bits.length) s

/-- `VSIGN Va` (R113): the stored flag, not the effective sign. -/
def execVsign (ra : RegNum) (s : State) : Host.Outcome State Fault Refusal :=
  commitDout (do
    let x ← src s ra
    return bitDatum x.neg) s

/-- `REL Vd` (R114): the register becomes absent; releasing an absent register is no error. -/
def execRel (rd : RegNum) (s : State) : Host.Outcome State Fault Refusal :=
  .next (s.write rd none).done

end Sys2Proof.Machine
end

