-- ==== Sys2Proof/Machine/Dispatch.lean ====
section
/-! DEFINITION. The meaning of each command, one arm per constructor of Instr. -/

namespace Sys2Proof.Machine

def exec (i : Instr) (s : State) : Host.Outcome State Fault Refusal :=
  match i with
  | .vcreate rd => Sys2Proof.Machine.execVcreate rd s
  | .vget ra => Sys2Proof.Machine.execVget ra s
  | .vset rd f => Sys2Proof.Machine.execVset rd f s
  | .vresize rd ra f => Sys2Proof.Machine.execVresize rd ra f s
  | .vcopy rd ra => Sys2Proof.Machine.execVcopy rd ra s
  | .vlen ra => Sys2Proof.Machine.execVlen ra s
  | .vsign ra => Sys2Proof.Machine.execVsign ra s
  | .rel rd => Sys2Proof.Machine.execRel rd s
  | .fromint rd => Sys2Proof.Machine.execFromint rd s
  | .toint ra => Sys2Proof.Machine.execToint ra s
  | .trim rd ra => Sys2Proof.Machine.execTrim rd ra s
  | .neg rd ra => Sys2Proof.Machine.execNeg rd ra s
  | .addm rd ra rb => Sys2Proof.Machine.execAddm rd ra rb s
  | .subm rd ra rb => Sys2Proof.Machine.execSubm rd ra rb s
  | .mulm rd ra rb => Sys2Proof.Machine.execMulm rd ra rb s
  | .cmpm ra rb => Sys2Proof.Machine.execCmpm ra rb s
  | .adds rd ra rb => Sys2Proof.Machine.execAdds rd ra rb s
  | .subs rd ra rb => Sys2Proof.Machine.execSubs rd ra rb s
  | .muls rd ra rb => Sys2Proof.Machine.execMuls rd ra rb s
  | .cmps ra rb => Sys2Proof.Machine.execCmps ra rb s

end Sys2Proof.Machine
end

