-- ==== Sys2Proof/Machine/Step.lean ====
section
/-! DEFINITION. One step: the host's next event, taken whole (spec `00_scope.md` R10, `10_state.md` R49). -/

namespace Sys2Proof.Machine

/-- One step of a block that implements profile `p`: the earliest pending event of the host. A command is decoded from
its word alone (R82) and runs with its `DIN` on the port; an illegal one ends as IllegalCommand, no register being read
(R287). A reset resets the block (R310). With nothing presented the block does nothing (R9; DESIGN CHOICE, log 5). -/
def stepIn (p : Profile) (s : State) : Host.Outcome State Fault Refusal :=
  match s.pending with
  | [] => .next s
  | .reset :: rest => .next ({ s with pending := rest } : State).resetBlock
  | .command cmd din :: rest =>
    match decodeIn p cmd with
    | .ok i => exec i (s.accept din rest)
    | .error _ => .next ((s.accept din rest).raise .illegalCommand)

/-- One step of the model's block, which implements `Config.profile` (R12, log 2). -/
def step (s : State) : Host.Outcome State Fault Refusal := stepIn Config.profile s

/-- `s` with an instruction, numbered as the opcode table numbers its bits, where the next step takes its command
(log 10). -/
def State.withFetchWord (s : State) (nbits w : Nat) : State := s.presentWord (BitVec.ofNat 16 (w % 2 ^ nbits))

end Sys2Proof.Machine
end

