-- ==== Sys2Proof/Machine/Assembly.lean ====
section
/-! DEFINITION. The assembler text of a command and the pseudo-commands (spec `30_encoding.md` R86, R87). The text is the
spec's own notation; no state depends on it. -/

namespace Sys2Proof.Machine

/-- The mnemonic of a command (R80). -/
def mnemonic : Instr → String
  | .vcreate _ => "VCREATE"
  | .vget _ => "VGET"
  | .vset _ _ => "VSET"
  | .vresize _ _ _ => "VRESIZE"
  | .vcopy _ _ => "VCOPY"
  | .vlen _ => "VLEN"
  | .vsign _ => "VSIGN"
  | .rel _ => "REL"
  | .fromint _ => "FROMINT"
  | .toint _ => "TOINT"
  | .trim _ _ => "TRIM"
  | .neg _ _ => "NEG"
  | .addm _ _ _ => "ADDM"
  | .subm _ _ _ => "SUBM"
  | .mulm _ _ _ => "MULM"
  | .cmpm _ _ => "CMPM"
  | .adds _ _ _ => "ADDS"
  | .subs _ _ _ => "SUBS"
  | .muls _ _ _ => "MULS"
  | .cmps _ _ => "CMPS"

/-- A register as an operand, `V0` to `V7` (R86). -/
def regText (r : RegNum) : String := "V" ++ toString r.toNat

/-- The flag operand, `0` or `1` (R86). -/
def flagText (f : Bool) : String := if f then "1" else "0"

/-- An unsigned data-in operand (R73, R86). -/
def unsignedText (din : Word64) : String := "#" ++ toString din.toNat

/-- The signed data-in operand of `FROMINT`, with a leading minus when negative (R73, R86). -/
def signedText (din : Word64) : String :=
  "#" ++ (if din.toInt < 0 then "-" else "") ++ toString din.toInt.natAbs

/-- The operands of a command in the order destination, first source, second source, flag, data-in (R86). -/
def operandTexts (i : Instr) (din : Word64) : List String :=
  match i with
  | .vcreate rd => [regText rd, unsignedText din]
  | .vget ra => [regText ra, unsignedText din]
  | .vset rd f => [regText rd, flagText f, unsignedText din]
  | .vresize rd ra f => [regText rd, regText ra, flagText f, unsignedText din]
  | .vcopy rd ra => [regText rd, regText ra]
  | .vlen ra => [regText ra]
  | .vsign ra => [regText ra]
  | .rel rd => [regText rd]
  | .fromint rd => [regText rd, signedText din]
  | .toint ra => [regText ra]
  | .trim rd ra => [regText rd, regText ra]
  | .neg rd ra => [regText rd, regText ra]
  | .addm rd ra rb => [regText rd, regText ra, regText rb]
  | .subm rd ra rb => [regText rd, regText ra, regText rb]
  | .mulm rd ra rb => [regText rd, regText ra, regText rb]
  | .cmpm ra rb => [regText ra, regText rb]
  | .adds rd ra rb => [regText rd, regText ra, regText rb]
  | .subs rd ra rb => [regText rd, regText ra, regText rb]
  | .muls rd ra rb => [regText rd, regText ra, regText rb]
  | .cmps ra rb => [regText ra, regText rb]

/-- A command with its data-in word as assembler text (R86). -/
def assemblyText (i : Instr) (din : Word64) : String :=
  mnemonic i ++ " " ++ ", ".intercalate (operandTexts i din)

/-- The pseudo-command `MOV Vd, Va` (R87). -/
def movCommand (rd ra : RegNum) : Instr := .vcopy rd ra

/-- The pseudo-command `CLR Vd` as the transaction it stands for: `FROMINT Vd, #0` (R87). -/
def clrEvent (rd : RegNum) : HostEvent := .command (encode (.fromint rd)) 0

end Sys2Proof.Machine
end

