-- ==== Sys2Proof/Machine/Display.lean ====
section
/-! DEFINITION. `toDisplayString`, the host's rendering of a value (spec `47_signed_ops.md` R246, `20_memory.md` R52). It is
a function of the host and no command of the block (`90_conflicts.md` C5); no state depends on it (U3). -/

namespace Sys2Proof.Machine

/-- The character of a bit. -/
def bitChar (b : Bool) : Char := if b then '1' else '0'

/-- The four characters of group `k`, bit `4k+3` first (R52, R246). -/
def groupText (X : Bits) (k : Nat) : String :=
  String.ofList [bitChar (getBit X (4 * k + 3)), bitChar (getBit X (4 * k + 2)), bitChar (getBit X (4 * k + 1)),
    bitChar (getBit X (4 * k))]

/-- The groups joined by the separator, the most significant first (R246). -/
def bodyText (sep : String) (X : Bits) : String :=
  sep.intercalate ((List.range (ngroups X)).reverse.map (groupText X))

/-- `toDisplayString(x)` with its parameters `SEP` and `SIGN_STYLE` (R246, D26): a separator follows the sign group,
none the minus; a non-negative number shows no sign. -/
def toDisplayString (sep : String) (style : SignStyle) (x : BcdNumber) : String :=
  if effneg x then
    match style with
    | .group1111 => "1111" ++ sep ++ bodyText sep x.bits
    | .minus => "-" ++ bodyText sep x.bits
  else bodyText sep x.bits

end Sys2Proof.Machine
end

