-- ==== Sys2Proof/Safety.lean ====
section
/-! DEFINITION. The terms claims are made in: which registers a command reads and writes (spec `10_state.md` R37), what it
leaves unchanged, and the invariants of runs. -/

namespace Sys2Proof

open Machine

/-- The register a command writes or releases, column "writes" of R37. -/
def Instr.dest : Instr → Option RegNum
  | .vcreate rd => some rd
  | .vget _ => none
  | .vset rd _ => some rd
  | .vresize rd _ _ => some rd
  | .vcopy rd _ => some rd
  | .vlen _ => none
  | .vsign _ => none
  | .rel rd => some rd
  | .fromint rd => some rd
  | .toint _ => none
  | .trim rd _ => some rd
  | .neg rd _ => some rd
  | .addm rd _ _ => some rd
  | .subm rd _ _ => some rd
  | .mulm rd _ _ => some rd
  | .cmpm _ _ => none
  | .adds rd _ _ => some rd
  | .subs rd _ _ => some rd
  | .muls rd _ _ => some rd
  | .cmps _ _ => none

/-- The registers a command reads, column "reads" of R37. -/
def Instr.sources : Instr → List RegNum
  | .vcreate _ => []
  | .vget ra => [ra]
  | .vset rd _ => [rd]
  | .vresize _ ra _ => [ra]
  | .vcopy _ ra => [ra]
  | .vlen ra => [ra]
  | .vsign ra => [ra]
  | .rel _ => []
  | .fromint _ => []
  | .toint ra => [ra]
  | .trim _ ra => [ra]
  | .neg _ ra => [ra]
  | .addm _ ra rb => [ra, rb]
  | .subm _ ra rb => [ra, rb]
  | .mulm _ ra rb => [ra, rb]
  | .cmpm ra rb => [ra, rb]
  | .adds _ ra rb => [ra, rb]
  | .subs _ ra rb => [ra, rb]
  | .muls _ ra rb => [ra, rb]
  | .cmps ra rb => [ra, rb]

/-- Whether a command returns a datum in `DOUT` (R32): the commands that write no register. -/
def Instr.returnsDatum (i : Instr) : Bool := i.dest.isNone

/-- Whether a command is one of those that report an illegal digit group in an operand (R285). -/
def Instr.checksDigits : Instr → Bool
  | .toint _ | .addm _ _ _ | .subm _ _ _ | .mulm _ _ _ | .adds _ _ _ | .subs _ _ _ | .muls _ _ _ => true
  | .vcreate _ | .vget _ | .vset _ _ | .vresize _ _ _ | .vcopy _ _ | .vlen _ | .vsign _ | .rel _ | .fromint _ => false
  | .trim _ _ | .neg _ _ | .cmpm _ _ | .cmps _ _ => false

/-- Whether a command may report AllocationFailure under a finite `MAXBITS` (column "Alloc" of R289). -/
def Instr.mayAllocFail : Instr → Bool
  | .vcreate _ | .vresize _ _ _ | .trim _ _ | .addm _ _ _ | .subm _ _ _ | .mulm _ _ _ => true
  | .adds _ _ _ | .subs _ _ _ | .muls _ _ _ => true
  | .vget _ | .vset _ _ | .vcopy _ _ | .vlen _ | .vsign _ | .rel _ | .fromint _ | .toint _ | .neg _ _ => false
  | .cmpm _ _ | .cmps _ _ => false

/-- Whether a command may report SizeMismatch (column "Size" of R289): the adder alone. -/
def Instr.mayMismatch : Instr → Bool
  | .addm _ _ _ => true
  | .vcreate _ | .vget _ | .vset _ _ | .vresize _ _ _ | .vcopy _ _ | .vlen _ | .vsign _ | .rel _ | .fromint _ => false
  | .toint _ | .trim _ _ | .neg _ _ | .subm _ _ _ | .mulm _ _ _ | .cmpm _ _ | .adds _ _ _ | .subs _ _ _ => false
  | .muls _ _ _ | .cmps _ _ => false

/-- Whether a command may report Overflow (column "Ovf" of R289): `TOINT` alone. -/
def Instr.mayOverflow : Instr → Bool
  | .toint _ => true
  | .vcreate _ | .vget _ | .vset _ _ | .vresize _ _ _ | .vcopy _ _ | .vlen _ | .vsign _ | .rel _ | .fromint _ => false
  | .trim _ _ | .neg _ _ | .addm _ _ _ | .subm _ _ _ | .mulm _ _ _ | .cmpm _ _ | .adds _ _ _ | .subs _ _ _ => false
  | .muls _ _ _ | .cmps _ _ => false

/-- The outcome codes a command can report besides 0 (the table of R289). -/
def Instr.mayReport (i : Instr) : Err → Bool
  | .allocationFailure => i.mayAllocFail
  | .sizeMismatch => i.mayMismatch
  | .invalidDigit => i.checksDigits
  | .overflow => i.mayOverflow
  | .absentOperand => !i.sources.isEmpty
  | .illegalCommand => false

/-- Whether a command uses `DIN` (R33, R73). -/
def Instr.usesDin : Instr → Bool
  | .vcreate _ | .vget _ | .vset _ _ | .vresize _ _ _ | .fromint _ => true
  | .vcopy _ _ | .vlen _ | .vsign _ | .rel _ | .toint _ | .trim _ _ | .neg _ _ | .addm _ _ _ | .subm _ _ _ => false
  | .mulm _ _ _ | .cmpm _ _ | .adds _ _ _ | .subs _ _ _ | .muls _ _ _ | .cmps _ _ => false

/-- The commands that keep every register's digits valid (R297); `VRESIZE` only where it does not shrink. -/
def keepsDigitsValid (i : Instr) (s : State) : Prop :=
  match i with
  | .addm _ _ _ | .subm _ _ _ | .mulm _ _ _ | .adds _ _ _ | .subs _ _ _ | .muls _ _ _ => True
  | .trim _ _ | .neg _ _ | .fromint _ | .vcopy _ _ => True
  | .vresize _ ra _ => ∀ x, s.read ra = some x → x.bits.length ≤ s.din.toNat
  | .vcreate _ | .vget _ | .vset _ _ | .vlen _ | .vsign _ | .rel _ | .toint _ | .cmpm _ _ | .cmps _ _ => False

/-- The data-out word a command leaves. -/
def doutAfter (i : Instr) (s : State) : Option Word64 :=
  match exec i s with
  | .next t => some t.dout
  | .fault _ => none
  | .refused _ => none

/-! ### Capacity and order, as the spec states them -/

/-- A vector of `n` bits is no longer than `MAXBITS` (R11, R105). -/
def withinMaxBits (n : Nat) : Bool :=
  match Config.maxBits with
  | none => true
  | some m => decide (n ≤ m)

/-- The vectors an addition of two values makes are no longer than `MAXBITS` (R283, rows `ADDS` and `SUBS`): with equal
effective signs the common width, and one group more if the sum carries out; with different ones one group more. -/
def sumWithin (a b : BcdNumber) : Prop :=
  if effneg a = effneg b then
    withinMaxBits (cw a.bits b.bits) = true ∧
      (10 ^ (cw a.bits b.bits / 4) ≤ decval a.bits + decval b.bits → withinMaxBits (cw a.bits b.bits + 4) = true)
  else withinMaxBits (cw a.bits b.bits + 4) = true

/-- The datum of a comparison of two natural numbers (R90). -/
def natOrderDatum (a b : Nat) : Word64 := if a < b then 0xFFFFFFFFFFFFFFFF else if a = b then 0 else 1

/-- The datum of a comparison of two integers (R90). -/
def intOrderDatum (a b : Int) : Word64 := if a < b then 0xFFFFFFFFFFFFFFFF else if a = b then 0 else 1

/-! ### When a command ends in an error (R283 to R288) -/

/-- Both sources hold values for which a condition holds. -/
def bothHold (s : State) (ra rb : RegNum) (P : BcdNumber → BcdNumber → Prop) : Prop :=
  ∃ x y, s.read ra = some x ∧ s.read rb = some y ∧ P x y

/-- A source the command needs is absent (R286): `CMPM` needs only one of its two. -/
def absentSource (i : Instr) (s : State) : Prop :=
  match i with
  | .cmpm ra rb => s.read ra = none ∧ s.read rb = none
  | .vcreate _ | .vget _ | .vset _ _ | .vresize _ _ _ | .vcopy _ _ | .vlen _ | .vsign _ | .rel _ | .fromint _
  | .toint _ | .trim _ _ | .neg _ _ | .addm _ _ _ | .subm _ _ _ | .mulm _ _ _ | .adds _ _ _ | .subs _ _ _
  | .muls _ _ _ | .cmps _ _ => ∃ r ∈ i.sources, s.read r = none

/-- The operands of `ADDM` differ in length, or their length is not a multiple of 4 (R284). -/
def sizesDiffer (i : Instr) (s : State) : Prop :=
  match i with
  | .addm _ ra rb => bothHold s ra rb fun x y => x.bits.length ≠ y.bits.length ∨ x.bits.length % 4 ≠ 0
  | .vcreate _ | .vget _ | .vset _ _ | .vresize _ _ _ | .vcopy _ _ | .vlen _ | .vsign _ | .rel _ | .fromint _
  | .toint _ | .trim _ _ | .neg _ _ | .subm _ _ _ | .mulm _ _ _ | .cmpm _ _ | .adds _ _ _ | .subs _ _ _
  | .muls _ _ _ | .cmps _ _ => False

/-- An operand that the command reads as a number has a group above 9 (R285). -/
def badDigits (i : Instr) (s : State) : Prop :=
  i.checksDigits = true ∧ ∃ r ∈ i.sources, ∃ x, s.read r = some x ∧ validDigits x.bits = false

/-- The condition of the command's row in the table of R283, for registers that are within capacity. -/
def tooLong (i : Instr) (s : State) : Prop :=
  match i with
  | .vcreate _ | .vresize _ _ _ => withinMaxBits s.din.toNat = false
  | .trim _ ra => ∃ x, s.read ra = some x ∧ withinMaxBits (roundUp4 x.bits.length) = false ∧
      dig x.bits (x.bits.length / 4) ≠ 0
  | .addm _ ra rb => bothHold s ra rb fun x y =>
      10 ^ (x.bits.length / 4) ≤ decval x.bits + decval y.bits ∧ withinMaxBits (x.bits.length + 4) = false
  | .subm _ ra rb => bothHold s ra rb fun x y => withinMaxBits (cw x.bits y.bits + 4) = false
  | .mulm _ ra rb => bothHold s ra rb fun x y =>
      withinMaxBits (roundUp4 x.bits.length + roundUp4 y.bits.length) = false
  | .adds _ ra rb => bothHold s ra rb fun x y => ¬ sumWithin x y
  | .subs _ ra rb => bothHold s ra rb fun x y => ¬ sumWithin x (negate y)
  | .muls _ ra rb => bothHold s ra rb fun x y => isZero x.bits = false ∧ isZero y.bits = false ∧
      withinMaxBits (roundUp4 x.bits.length + roundUp4 y.bits.length) = false
  | .vget _ | .vset _ _ | .vcopy _ _ | .vlen _ | .vsign _ | .rel _ | .fromint _ | .toint _ | .neg _ _ | .cmpm _ _
  | .cmps _ _ => False

/-- `TOINT`: the value is outside the range of the native integer (R288). -/
def outOfRange (i : Instr) (s : State) : Prop :=
  match i with
  | .toint ra => ∃ x, s.read ra = some x ∧ (value x < -(2 ^ 63) ∨ 2 ^ 63 - 1 < value x)
  | .vcreate _ | .vget _ | .vset _ _ | .vresize _ _ _ | .vcopy _ _ | .vlen _ | .vsign _ | .rel _ | .fromint _
  | .trim _ _ | .neg _ _ | .addm _ _ _ | .subm _ _ _ | .mulm _ _ _ | .cmpm _ _ | .adds _ _ _ | .subs _ _ _
  | .muls _ _ _ | .cmps _ _ => False

/-! ### What holds of runs -/

/-- Every present register's value passes a check. -/
abbrev everyRegister (p : BcdNumber → Bool) (s : State) : Prop := ∀ r : RegNum, (s.read r).all p = true

/-- Every present register has valid digits (R28). -/
abbrev regsValid (s : State) : Prop := everyRegister (fun x => validDigits x.bits) s

/-- Every present register holds a canonical value (R29, R12). -/
abbrev regsCanonical (s : State) : Prop := everyRegister canonical s

/-- No present register holds a vector longer than `MAXBITS` (R21, R105). -/
abbrev regsFit (s : State) : Prop := everyRegister (fun x => withinMaxBits x.bits.length) s

/-- `STATUS` is not the reserved value 7 (R280, U6). -/
abbrev statusLegal (s : State) : Prop := s.status ≠ 7

/-- A safe state: within capacity, with a legal status. -/
abbrev Safe (s : State) : Prop := regsFit s ∧ statusLegal s

/-- The command that led to this state succeeded (R31, R299). -/
abbrev succeeded (t : State) : Prop := t.status = 0

end Sys2Proof
end

