-- ==== Sys2Proof/Certificates/Slice0/Obligations.lean ====
section
/-! DEFINITION. The statements about BCD-CORE, in the order: encoding, the step, the vector commands, the codec, the
adder, the comparator, the subtractor, the multiplier, the canonicalizer, the signed operations, the whole machine.
A register is `none` where it is absent (R21). `withinMaxBits` is the capacity test of R105; `MAXBITS` is a free
constant (log 1), so each statement holds for every capacity the spec admits. -/

open Sys2Proof Sys2Proof.Machine

/-! ### Encoding -/

/-- R71, R72, R80, R82: in either profile, decoding the word of a command of the profile gives that command back. -/
def Obligations.DecodeEncodeRoundTrip : Prop :=
  ∀ (p : Profile) (i : Instr), i.inProfile p = true → decodeIn p (encode i) = .ok i

/-- R71, R72, R80, R83: a word that decodes to a command is that command's one word, and the command is in the
profile. -/
def Obligations.DecodedWordIsEncoding : Prop :=
  ∀ (p : Profile) (w : CmdWord) (i : Instr), decodeIn p w = .ok i → encode i = w ∧ i.inProfile p = true

/-- R80, R83: in profile FULL a word is legal exactly when one row of the command table selects it, no word is selected by two rows, and
the legal word is the command of its row. -/
def Obligations.LegalWordsAreTableRows : Prop :=
  ∀ w : CmdWord, ((∃ i, decodeIn .full w = .ok i) ↔ ∃ row ∈ opTable, w &&& row.mask = row.pattern) ∧
    opTable.countP (fun row => w &&& row.mask == row.pattern) ≤ 1 ∧
    ∀ row ∈ opTable, w &&& row.mask = row.pattern → decodeIn .full w = .ok (row.read w)

/-- R81: a word with a reserved operation code is illegal in either profile; so are 0x0000 and 0xFFFF. -/
def Obligations.ReservedOpcodesAreIllegal : Prop :=
  ∀ p : Profile,
    (∀ w : CmdWord, (fieldOp w = 0x00 ∨ fieldOp w = 0x0D ∨ fieldOp w = 0x0E ∨ fieldOp w = 0x0F ∨
      (0x18 ≤ (fieldOp w).toNat ∧ (fieldOp w).toNat ≤ 0x1F)) → ∀ i, decodeIn p w ≠ .ok i) ∧
    (∀ i, decodeIn p 0x0000 ≠ .ok i) ∧ ∀ i, decodeIn p 0xFFFF ≠ .ok i

/-- R72, R83: a word with the operation code of a row in which a field the row does not use, or the bit `z`, is not 0 is
not that command and not any command. -/
def Obligations.UnusedFieldsMustBeZero : Prop :=
  ∀ (p : Profile) (row : OpRow) (w : CmdWord), row ∈ opTable → fieldOp w = fieldOp row.pattern →
    w &&& row.mask ≠ row.pattern → ∀ i, decodeIn p w ≠ .ok i

/-- R80, `95_test_vectors.md`: words written out from the command table decode to their commands, for every family. -/
def Obligations.DecodeTableWords : Prop :=
  decodeTableWord 16 0b0000101100000000 = some (.vcreate 3) ∧
  decodeTableWord 16 0b0001000001000000 = some (.vget 2) ∧
  decodeTableWord 16 0b0001101100000010 = some (.vset 3 true) ∧
  decodeTableWord 16 0b0010000100000010 = some (.vresize 1 0 true) ∧
  decodeTableWord 16 0b0100111100000000 = some (.fromint 7) ∧
  decodeTableWord 16 0b0101000011100000 = some (.toint 7) ∧
  decodeTableWord 16 0b0101110110000000 = some (.trim 5 4) ∧
  decodeTableWord 16 0b0110000100000000 = some (.neg 1 0) ∧
  decodeTableWord 16 0b1000001000000100 = some (.addm 2 0 1) ∧
  decodeTableWord 16 0b1000110101110000 = some (.subm 5 3 4) ∧
  decodeTableWord 16 0b1001010001001100 = some (.mulm 4 2 3) ∧
  decodeTableWord 16 0b1001100000000100 = some (.cmpm 0 1) ∧
  decodeTableWord 16 0b1010001000000100 = some (.adds 2 0 1) ∧
  decodeTableWord 16 0b1011100001101100 = some (.cmps 3 3)

/-- R12: the commands of profile PUBLIC are the eleven the rule names, and the decoder of that profile takes exactly
those of the words profile FULL takes. -/
def Obligations.PublicProfileIsEleven : Prop :=
  (∀ i : Instr, i.isPublic = true ↔ mnemonic i ∈
    ["FROMINT", "TOINT", "ADDS", "SUBS", "MULS", "CMPS", "NEG", "VLEN", "VSIGN", "VGET", "REL"]) ∧
  ∀ (w : CmdWord) (i : Instr), decodeIn .pub w = .ok i ↔ decodeIn .full w = .ok i ∧ i.isPublic = true

/-! ### The step -/

/-- R10, R82, R318; the list of host events is the model's choice (log 3, log 4): where the next event presents a word that
decodes to a command, the step is exec of that command, with its `DIN` on the port and the event gone. -/
def Obligations.StepRunsDecodedCommand : Prop :=
  ∀ (s : State) (cmd : CmdWord) (d : Word64) (rest : List HostEvent) (i : Instr),
    s.pending = .command cmd d :: rest →
      (decode cmd = .ok i → step s = exec i { s with din := d, pending := rest }) ∧
      ∀ p : Profile, decodeIn p cmd = .ok i → stepIn p s = exec i { s with din := d, pending := rest }

/-- R82, R287; events and port are the model's choice (log 3, log 4): a word that no row selects, or whose command is
outside the profile, ends with `STATUS` 6 and changes nothing else of the block. -/
def Obligations.IllegalCommandSetsStatusOnly : Prop :=
  ∀ (p : Profile) (s : State) (cmd : CmdWord) (d : Word64) (rest : List HostEvent),
    s.pending = .command cmd d :: rest →
    ((∀ row ∈ opTable, cmd &&& row.mask ≠ row.pattern) ∨
      (∃ row ∈ opTable, cmd &&& row.mask = row.pattern ∧ (row.read cmd).inProfile p = false)) →
      stepIn p s = .next { s with din := d, pending := rest, status := 6 }

/-- R310: the effect of a reset, whatever the state before. -/
def Obligations.ResetClearsBlock : Prop :=
  ∀ s : State, (∀ r : RegNum, s.resetBlock.read r = none) ∧ s.resetBlock.status = 0 ∧ s.resetBlock.dout = 0

/-- R312: the state after reset, register by register. -/
def Obligations.ResetStateValues : Prop :=
  (∀ r : RegNum, State.reset.read r = none) ∧ State.reset.status = 0 ∧ State.reset.dout = 0

/-- The model's choice (logs 3 to 6): nothing is presented at reset; with nothing presented a step changes nothing; a
reset event runs the reset of the block (R310) and leaves the port and the later events; a command's step takes its
event, leaves its `DIN` on the port and leaves the later events. -/
def Obligations.HostSideOfSteps : Prop :=
  State.reset.pending = [] ∧ State.reset.din = 0 ∧
  (∀ s : State, s.pending = [] → step s = .next s) ∧
  (∀ (s : State) (rest : List HostEvent), s.pending = .reset :: rest →
    step s = .next { s.resetBlock with pending := rest } ∧ s.resetBlock.din = s.din) ∧
  ∀ (s t : State) (cmd : CmdWord) (d : Word64) (rest : List HostEvent), s.pending = .command cmd d :: rest →
    step s = .next t → t.pending = rest ∧ t.din = d

/-- R19, R82, R310, R319: every step ends in a next state, in either profile; no command, no word and no reset event stops
the machine. That nothing stops it is the model's reading (log 11, DEDUCED), and the step with no event pending, which the
first clause covers too, is the model's choice (log 5, DESIGN CHOICE). -/
def Obligations.EveryStepAnswersNext : Prop :=
  (∀ (p : Profile) (s : State), ∃ t, stepIn p s = .next t) ∧ ∀ (i : Instr) (s : State), ∃ t, exec i s = .next t

/-- R33, R82: no step depends on the `DIN` or the `CMD` of an earlier command, and a command that does not use `DIN`
gives the same registers, `STATUS` and `DOUT` whatever `DIN` is. -/
def Obligations.InputsAreNotKept : Prop :=
  (∀ (s : State) (cmd : CmdWord) (d old : Word64) (rest : List HostEvent), s.pending = .command cmd d :: rest →
    step { s with din := old } = step s) ∧
  ∀ (i : Instr) (s t : State) (d : Word64), i.usesDin = false → exec i s = .next t →
    exec i { s with din := d } = .next { t with din := d }

/-! ### The vector commands -/

/-- R21: a value register reads what was last written to it, no other register and nothing else of the state changes. -/
def Obligations.RegisterFile : Prop :=
  ∀ (s : State) (r q : RegNum) (v : Option BcdNumber),
    (s.write r v).read q = (if q = r then v else s.read q) ∧ (s.write r v).status = s.status ∧
    (s.write r v).dout = s.dout ∧ (s.write r v).din = s.din ∧ (s.write r v).pending = s.pending

/-- R106 (with R100, R105): `VCREATE` makes a zero vector of `DIN` bits, non-negative, or reports AllocationFailure. -/
def Obligations.VcreateMakesZeroVector : Prop :=
  ∀ (rd : RegNum) (s : State), fieldOp (encode (.vcreate rd)) = 0x01 ∧
    (withinMaxBits s.din.toNat = true → exec (.vcreate rd) s =
      .next { s.write rd (some ⟨List.replicate s.din.toNat false, false⟩) with status := 0 }) ∧
    (withinMaxBits s.din.toNat = false → exec (.vcreate rd) s = .next { s with status := 1 })

/-- R107 (with R101, R74): `VGET` answers the bit, 0 beyond the end; an absent source is AbsentOperand. -/
def Obligations.VgetAnswersBit : Prop :=
  ∀ (ra : RegNum) (s : State), fieldOp (encode (.vget ra)) = 0x02 ∧
    (s.read ra = none → exec (.vget ra) s = .next { s with status := 5 }) ∧
    ∀ x, s.read ra = some x →
      (∀ h : s.din.toNat < x.bits.length, exec (.vget ra) s =
        .next { s with dout := if x.bits[s.din.toNat] then 1 else 0, status := 0 }) ∧
      (x.bits.length ≤ s.din.toNat → exec (.vget ra) s = .next { s with dout := 0, status := 0 })

/-- R108 (with R102): `VSET` writes one bit of its register and keeps length and sign; beyond the end it changes nothing
but `STATUS`; an absent register is AbsentOperand. -/
def Obligations.VsetWritesBit : Prop :=
  ∀ (rd : RegNum) (f : Bool) (s : State), fieldOp (encode (.vset rd f)) = 0x03 ∧
    (s.read rd = none → exec (.vset rd f) s = .next { s with status := 5 }) ∧
    ∀ x, s.read rd = some x →
      (s.din.toNat < x.bits.length → exec (.vset rd f) s =
        .next { s.write rd (some ⟨x.bits.set s.din.toNat f, x.neg⟩) with status := 0 }) ∧
      (x.bits.length ≤ s.din.toNat → exec (.vset rd f) s = .next { s with status := 0 })

/-- R109 (with R103, R105): `VRESIZE` gives the vector of `DIN` bits whose bit `i` is bit `i` of the source, 0 beyond its
end, with the source's stored sign if `f` is 1 and non-negative if it is 0. -/
def Obligations.VresizeKeepsLowBits : Prop :=
  ∀ (rd ra : RegNum) (f : Bool) (s : State), fieldOp (encode (.vresize rd ra f)) = 0x04 ∧
    (s.read ra = none → exec (.vresize rd ra f) s = .next { s with status := 5 }) ∧
    ∀ x, s.read ra = some x →
      (withinMaxBits s.din.toNat = true → exec (.vresize rd ra f) s =
        .next { s.write rd (some ⟨(List.range s.din.toNat).map (fun i => x.bits[i]?.getD false), f && x.neg⟩) with
          status := 0 }) ∧
      (withinMaxBits s.din.toNat = false → exec (.vresize rd ra f) s = .next { s with status := 1 })

/-- R110 (with R104): `VCOPY` copies bits and stored sign; with `rd = ra` nothing but `STATUS` changes. -/
def Obligations.VcopyCopiesValue : Prop :=
  ∀ (rd ra : RegNum) (s : State), fieldOp (encode (.vcopy rd ra)) = 0x05 ∧
    (s.read ra = none → exec (.vcopy rd ra) s = .next { s with status := 5 }) ∧
    (∀ x, s.read ra = some x → exec (.vcopy rd ra) s = .next { s.write rd (some x) with status := 0 }) ∧
    (s.read ra ≠ none → exec (.vcopy ra ra) s = .next { s with status := 0 })

/-- R112, R113 (with R74): `VLEN` answers the length modulo 2^64 and `VSIGN` the stored sign, not the effective one. -/
def Obligations.VlenAndVsignAnswerFields : Prop :=
  ∀ (ra : RegNum) (s : State), fieldOp (encode (.vlen ra)) = 0x06 ∧ fieldOp (encode (.vsign ra)) = 0x07 ∧
    (s.read ra = none → exec (.vlen ra) s = .next { s with status := 5 } ∧
      exec (.vsign ra) s = .next { s with status := 5 }) ∧
    ∀ x, s.read ra = some x →
      exec (.vlen ra) s = .next { s with dout := BitVec.ofNat 64 (x.bits.length % 2 ^ 64), status := 0 } ∧
      exec (.vsign ra) s = .next { s with dout := if x.neg then 1 else 0, status := 0 }

/-- R114: `REL` makes its register absent, present or not before; afterwards a command with it as its source reports
AbsentOperand. -/
def Obligations.RelReleasesRegister : Prop :=
  ∀ (rd : RegNum) (s : State), fieldOp (encode (.rel rd)) = 0x08 ∧
    exec (.rel rd) s = .next { s.write rd none with status := 0 } ∧
    (s.read rd = none → exec (.rel rd) s = .next { s with status := 0 }) ∧
    ∀ t, exec (.rel rd) s = .next t → t.read rd = none ∧
      ∀ (i : Instr) (u : State), i.sources = [rd] → exec i t = .next u → u.status = 5

/-- R247: the host reads a present register completely by `VSIGN`, `VLEN` and one `VGET` for each bit, for lengths that
`DOUT` can hold (R74). -/
def Obligations.ReadOutRecoversRegister : Prop :=
  ∀ (r : RegNum) (s : State) (x : BcdNumber), s.read r = some x → x.bits.length < 2 ^ 64 →
    doutAfter (.vsign r) s = some (if x.neg then 1 else 0) ∧
    (doutAfter (.vlen r) s).map (·.toNat) = some x.bits.length ∧
    (List.range x.bits.length).map (fun i => doutAfter (.vget r) { s with din := BitVec.ofNat 64 i }) =
      x.bits.map fun b => some (if b then 1 else 0)

/-! ### The digit codec -/

/-- R131: `digitCount` is the number of decimal digits without leading zeros, 1 for 0. -/
def Obligations.DigitCountIsDecimalLength : Prop :=
  digitCount 0 = 1 ∧ ∀ m, m ≠ 0 → digitCount m = Nat.log 10 m + 1

/-- R136 (with R132, R133, R139): `FROMINT` writes the canonical value of the signed `DIN`, of at least 4 and at most 76
bits, digit `k` being `(|n| div 10^k) mod 10`. It cannot fail for a `MAXBITS` of at least 76. -/
def Obligations.FromintWritesCanonicalValue : Prop :=
  ∀ (rd : RegNum) (s : State), fieldOp (encode (.fromint rd)) = 0x09 ∧
    ∃ x, exec (.fromint rd) s = .next { s.write rd (some x) with status := 0 } ∧
      canonical x = true ∧ value x = s.din.toInt ∧ x.neg = decide (s.din.toInt < 0) ∧
      x.bits.length = 4 * digitCount s.din.toInt.natAbs ∧ x.bits.length ≤ 76 ∧
      ∀ k, (dig x.bits k).toNat = s.din.toInt.natAbs / 10 ^ k % 10

/-- R137 (with R134, R135, R53): `TOINT` reports an absent source, then an illegal group, then a value outside the 64-bit
range; otherwise `DOUT` is the two's complement pattern of the value. -/
def Obligations.TointAnswersValue : Prop :=
  ∀ (ra : RegNum) (s : State), fieldOp (encode (.toint ra)) = 0x0A ∧
    (s.read ra = none → exec (.toint ra) s = .next { s with status := 5 }) ∧
    ∀ x, s.read ra = some x →
      (validDigits x.bits = false → exec (.toint ra) s = .next { s with status := 3 }) ∧
      (validDigits x.bits = true → (value x < -(2 ^ 63) ∨ 2 ^ 63 - 1 < value x) →
        exec (.toint ra) s = .next { s with status := 4 }) ∧
      (validDigits x.bits = true → -(2 ^ 63) ≤ value x → value x ≤ 2 ^ 63 - 1 →
        ∃ d : Word64, d.toInt = value x ∧ exec (.toint ra) s = .next { s with dout := d, status := 0 })

/-- R138: `toInteger(fromInteger(n)) = n` for every 64-bit `n`, and where `toInteger(x)` succeeds `fromInteger` of it is
the canonical value with the same `value`, equal to `trim(x)`. -/
def Obligations.IntegerRoundTrip : Prop :=
  (∀ n : Int, -(2 ^ 63) ≤ n → n ≤ 2 ^ 63 - 1 → ∃ x, fromInteger n = .ok x ∧ toInteger x = .ok n) ∧
  ∀ (x : BcdNumber) (n : Int), toInteger x = .ok n →
    ∃ y, fromInteger n = .ok y ∧ trim x = .ok y ∧ canonical y = true ∧ value y = value x

/-- R138 by commands: `FROMINT` then `TOINT` of the same register answers the `DIN` of the first, both with `STATUS` 0. -/
def Obligations.FromintThenToint : Prop :=
  ∀ (r : RegNum) (s : State) (d : Word64), ∃ t u, exec (.fromint r) s = .next t ∧ t.status = 0 ∧
    exec (.toint r) { t with din := d } = .next u ∧ u.status = 0 ∧ u.dout = s.din

/-! ### The corrector and the adder -/

/-- R151: the table of the corrector, on the raw sum `16*bc + v`: rows 0 to 9 unchanged, rows 10 to 31 with 6 added on 4
bits and a carry; rows 0 to 19 give the decimal digit and carry. -/
def Obligations.CorrectorTable : Prop :=
  ∀ (v : Digit) (bc : Bool),
    (16 * bc.toNat + v.toNat < 10 → correct v bc = (v, false)) ∧
    (10 ≤ 16 * bc.toNat + v.toNat → correct v bc = (BitVec.ofNat 4 ((v.toNat + 6) % 16), true)) ∧
    (16 * bc.toNat + v.toNat ≤ 19 →
      correct v bc = (BitVec.ofNat 4 ((16 * bc.toNat + v.toNat) % 10), decide ((16 * bc.toNat + v.toNat) / 10 = 1)))

/-- R159: adding the four bit positions of a group with ordinary carries gives the raw 4-bit sum and the bit-carry, for
all combinations of two groups and a carry. -/
def Obligations.BitwiseSumIsRawSum : Prop :=
  ∀ (a b : Digit) (cin : Bool), rippleSum a b cin =
    (BitVec.ofNat 4 ((a.toNat + b.toNat + cin.toNat) % 16), decide ((a.toNat + b.toNat + cin.toNat) / 16 = 1))

/-- R160 (with R154 to R157, R163): `ADDM` gives the exact sum of the magnitudes, one group longer exactly when it does not
fit the operands' groups, non-negative, with valid digits; its errors come in the order of the rule. -/
def Obligations.AddmAddsMagnitudes : Prop :=
  ∀ (rd ra rb : RegNum) (s : State), fieldOp (encode (.addm rd ra rb)) = 0x10 ∧
    ((s.read ra = none ∨ s.read rb = none) → exec (.addm rd ra rb) s = .next { s with status := 5 }) ∧
    ∀ x y, s.read ra = some x → s.read rb = some y →
      ((x.bits.length ≠ y.bits.length ∨ x.bits.length % 4 ≠ 0) →
        exec (.addm rd ra rb) s = .next { s with status := 2 }) ∧
      (x.bits.length = y.bits.length → x.bits.length % 4 = 0 →
        ((validDigits x.bits = false ∨ validDigits y.bits = false) →
          exec (.addm rd ra rb) s = .next { s with status := 3 }) ∧
        (validDigits x.bits = true → validDigits y.bits = true → withinMaxBits x.bits.length = true →
          (decval x.bits + decval y.bits < 10 ^ (x.bits.length / 4) →
            ∃ R, exec (.addm rd ra rb) s = .next { s.write rd (some ⟨R, false⟩) with status := 0 } ∧
              R.length = x.bits.length ∧ validDigits R = true ∧ decval R = decval x.bits + decval y.bits) ∧
          (10 ^ (x.bits.length / 4) ≤ decval x.bits + decval y.bits →
            (withinMaxBits (x.bits.length + 4) = true →
              ∃ R, exec (.addm rd ra rb) s = .next { s.write rd (some ⟨R, false⟩) with status := 0 } ∧
                R.length = x.bits.length + 4 ∧ validDigits R = true ∧ decval R = decval x.bits + decval y.bits) ∧
            (withinMaxBits (x.bits.length + 4) = false →
              exec (.addm rd ra rb) s = .next { s with status := 1 }))))

/-! ### The comparator -/

/-- R174 (with R172, R173, R90): `CMPM` answers the order of the binary values, which for valid digits is the order of the
decimal values; an absent operand is the smaller, two absent ones are AbsentOperand. -/
def Obligations.CmpmOrdersMagnitudes : Prop :=
  ∀ (ra rb : RegNum) (s : State), fieldOp (encode (.cmpm ra rb)) = 0x13 ∧
    (s.read ra = none → s.read rb = none → exec (.cmpm ra rb) s = .next { s with status := 5 }) ∧
    (s.read ra = none → s.read rb ≠ none →
      exec (.cmpm ra rb) s = .next { s with dout := 0xFFFFFFFFFFFFFFFF, status := 0 }) ∧
    (s.read ra ≠ none → s.read rb = none → exec (.cmpm ra rb) s = .next { s with dout := 1, status := 0 }) ∧
    ∀ x y, s.read ra = some x → s.read rb = some y →
      exec (.cmpm ra rb) s = .next { s with dout := natOrderDatum (val x.bits) (val y.bits), status := 0 } ∧
      (validDigits x.bits = true → validDigits y.bits = true →
        natOrderDatum (val x.bits) (val y.bits) = natOrderDatum (decval x.bits) (decval y.bits))

/-- R175: `compareMagnitude` is a total preorder on vectors; two vectors are `EQUAL` exactly when they differ only by zero
bits at the high end. -/
def Obligations.CompareIsTotalPreorder : Prop :=
  ∀ A B C : Bits,
    compareMagnitude A A = .equal ∧
    (compareMagnitude A B = .equal → compareMagnitude B A = .equal) ∧
    (compareMagnitude A B = .equal → compareMagnitude B C = .equal → compareMagnitude A C = .equal) ∧
    (compareMagnitude A B = .less ↔ compareMagnitude B A = .greater) ∧
    (compareMagnitude A B = .less → compareMagnitude B C = .less → compareMagnitude A C = .less) ∧
    (compareMagnitude A B = .greater → compareMagnitude B C = .greater → compareMagnitude A C = .greater) ∧
    (compareMagnitude A B = .equal ↔ ∃ m n, A ++ List.replicate m false = B ++ List.replicate n false)

/-! ### The subtractor and the multiplier -/

/-- R188 (with R180, R186, R189, R190): `SUBM` gives the exact distance of the magnitudes with the sign of their
difference, untrimmed, at the common width or, for two zeros, 4 bits. -/
def Obligations.SubmSubtractsMagnitudes : Prop :=
  ∀ (rd ra rb : RegNum) (s : State), fieldOp (encode (.subm rd ra rb)) = 0x11 ∧
    ((s.read ra = none ∨ s.read rb = none) → exec (.subm rd ra rb) s = .next { s with status := 5 }) ∧
    ∀ x y, s.read ra = some x → s.read rb = some y →
      ((validDigits x.bits = false ∨ validDigits y.bits = false) →
        exec (.subm rd ra rb) s = .next { s with status := 3 }) ∧
      (validDigits x.bits = true → validDigits y.bits = true →
        (withinMaxBits (cw x.bits y.bits + 4) = false → exec (.subm rd ra rb) s = .next { s with status := 1 }) ∧
        (withinMaxBits (cw x.bits y.bits + 4) = true →
          ∃ M, exec (.subm rd ra rb) s =
              .next { s.write rd (some ⟨M, decide (decval x.bits < decval y.bits)⟩) with status := 0 } ∧
            (decval M : Int) = |(decval x.bits : Int) - decval y.bits| ∧ validDigits M = true ∧
            M.length = if decval x.bits = 0 ∧ decval y.bits = 0 then 4 else cw x.bits y.bits))

/-- R205 (with R200, R206, R207): `MULM` gives the exact product of the magnitudes, untrimmed, at the sum of the padded
widths, non-negative. -/
def Obligations.MulmMultipliesMagnitudes : Prop :=
  ∀ (rd ra rb : RegNum) (s : State), fieldOp (encode (.mulm rd ra rb)) = 0x12 ∧
    ((s.read ra = none ∨ s.read rb = none) → exec (.mulm rd ra rb) s = .next { s with status := 5 }) ∧
    ∀ x y, s.read ra = some x → s.read rb = some y →
      ((validDigits x.bits = false ∨ validDigits y.bits = false) →
        exec (.mulm rd ra rb) s = .next { s with status := 3 }) ∧
      (validDigits x.bits = true → validDigits y.bits = true →
        (withinMaxBits (roundUp4 x.bits.length + roundUp4 y.bits.length) = false →
          exec (.mulm rd ra rb) s = .next { s with status := 1 }) ∧
        (withinMaxBits (roundUp4 x.bits.length + roundUp4 y.bits.length) = true →
          ∃ P, exec (.mulm rd ra rb) s = .next { s.write rd (some ⟨P, false⟩) with status := 0 } ∧
            P.length = roundUp4 x.bits.length + roundUp4 y.bits.length ∧ validDigits P = true ∧
            decval P = decval x.bits * decval y.bits))

/-! ### The canonicalizer and negation -/

/-- R218 (with R215, R217, R222): `TRIM` cuts the vector above its highest group that is not zero and keeps the stored
sign; a zero of any width and sign becomes `ZERO4`. Groups above 9 count and stay. -/
def Obligations.TrimCutsLeadingZeroGroups : Prop :=
  ∀ (rd ra : RegNum) (s : State), fieldOp (encode (.trim rd ra)) = 0x0B ∧
    (s.read ra = none → exec (.trim rd ra) s = .next { s with status := 5 }) ∧
    ∀ x, s.read ra = some x →
      (isZero x.bits = true → exec (.trim rd ra) s =
        .next { s.write rd (some ⟨[false, false, false, false], false⟩) with status := 0 }) ∧
      ∀ h, dig x.bits h ≠ 0 → (∀ k, h < k → dig x.bits k = 0) →
        (withinMaxBits (4 * h + 4) = true → exec (.trim rd ra) s =
          .next { s.write rd (some ⟨(List.range (4 * h + 4)).map (fun i => x.bits[i]?.getD false), x.neg⟩) with
            status := 0 }) ∧
        (withinMaxBits (4 * h + 4) = false → exec (.trim rd ra) s = .next { s with status := 1 })

/-- R216: the properties of `trim`, each where the vector can be made: idempotent, the represented value unchanged, every
group kept, the one canonical value for valid digits, the identity on canonical values, `ZERO4` exactly for a zero. -/
def Obligations.TrimProperties : Prop :=
  ∀ x y : BcdNumber, trim x = .ok y →
    trim y = .ok y ∧ decval y.bits = decval x.bits ∧ (∀ k, dig y.bits k = dig x.bits k) ∧
    (validDigits x.bits = true → value y = value x ∧ canonical y = true ∧
      ∀ z, canonical z = true → value z = value y → z = y) ∧
    (canonical x = true → y = x) ∧ (y = BcdNumber.zero4 ↔ isZero x.bits = true)

/-- R221 (with R219): `NEG` keeps the vector and inverts the stored sign, of a zero to non-negative; it cannot fail but
for an absent source. -/
def Obligations.NegInvertsSign : Prop :=
  ∀ (rd ra : RegNum) (s : State), fieldOp (encode (.neg rd ra)) = 0x0C ∧
    (s.read ra = none → exec (.neg rd ra) s = .next { s with status := 5 }) ∧
    ∀ x, s.read ra = some x →
      (isZero x.bits = true → exec (.neg rd ra) s = .next { s.write rd (some ⟨x.bits, false⟩) with status := 0 }) ∧
      (isZero x.bits = false → exec (.neg rd ra) s = .next { s.write rd (some ⟨x.bits, !x.neg⟩) with status := 0 })

/-- R220: `negate` inverts the represented number; twice it has the bits and the effective sign of its operand; it keeps
canonical values canonical and the length as it is. -/
def Obligations.NegateProperties : Prop :=
  ∀ x : BcdNumber, (validDigits x.bits = true → value (negate x) = -value x) ∧
    (negate (negate x)).bits = x.bits ∧ effneg (negate (negate x)) = effneg x ∧
    (canonical x = true → canonical (negate x) = true) ∧ (negate x).bits.length = x.bits.length

/-- R29: what a canonical value is; a canonical value other than `ZERO4` is not zero and its stored sign is its effective
sign; every integer has exactly one canonical value. -/
def Obligations.CanonicalFormIsUnique : Prop :=
  (∀ x : BcdNumber, canonical x = true ↔
    (x.bits.length % 4 = 0 ∧ 4 ≤ x.bits.length ∧ ∀ k, k < x.bits.length / 4 → (dig x.bits k).toNat ≤ 9) ∧
      (x = ⟨[false, false, false, false], false⟩ ∨ dig x.bits (x.bits.length / 4 - 1) ≠ 0)) ∧
  (∀ x : BcdNumber, canonical x = true → (x ≠ BcdNumber.zero4 → isZero x.bits = false) ∧ x.neg = effneg x) ∧
  ∀ n : Int, ∃! x : BcdNumber, canonical x = true ∧ value x = n

/-! ### The signed operations -/

/-- R231 (with R230 to R234, R244): `ADDS` writes the canonical value of the exact sum; its errors come in the order of the
rule, AllocationFailure where the vectors of R283 are too long. -/
def Obligations.AddsWritesCanonicalSum : Prop :=
  ∀ (rd ra rb : RegNum) (s : State), fieldOp (encode (.adds rd ra rb)) = 0x14 ∧
    ((s.read ra = none ∨ s.read rb = none) → exec (.adds rd ra rb) s = .next { s with status := 5 }) ∧
    ∀ x y, s.read ra = some x → s.read rb = some y →
      ((validDigits x.bits = false ∨ validDigits y.bits = false) →
        exec (.adds rd ra rb) s = .next { s with status := 3 }) ∧
      (validDigits x.bits = true → validDigits y.bits = true →
        (¬ sumWithin x y → exec (.adds rd ra rb) s = .next { s with status := 1 }) ∧
        (sumWithin x y → ∃ z, exec (.adds rd ra rb) s = .next { s.write rd (some z) with status := 0 } ∧
          canonical z = true ∧ value z = value x + value y))

/-- R236 (with R235, R244): `SUBS` writes the canonical value of the exact difference. -/
def Obligations.SubsWritesCanonicalDifference : Prop :=
  ∀ (rd ra rb : RegNum) (s : State), fieldOp (encode (.subs rd ra rb)) = 0x15 ∧
    ((s.read ra = none ∨ s.read rb = none) → exec (.subs rd ra rb) s = .next { s with status := 5 }) ∧
    ∀ x y, s.read ra = some x → s.read rb = some y →
      ((validDigits x.bits = false ∨ validDigits y.bits = false) →
        exec (.subs rd ra rb) s = .next { s with status := 3 }) ∧
      (validDigits x.bits = true → validDigits y.bits = true →
        (¬ sumWithin x (negate y) → exec (.subs rd ra rb) s = .next { s with status := 1 }) ∧
        (sumWithin x (negate y) → ∃ z, exec (.subs rd ra rb) s = .next { s.write rd (some z) with status := 0 } ∧
          canonical z = true ∧ value z = value x - value y))

/-- R239 (with R237, R238, R240, R244): `MULS` writes the canonical value of the exact product, `ZERO4` without any test
of capacity where an operand is zero; illegal groups are reported even then. -/
def Obligations.MulsWritesCanonicalProduct : Prop :=
  ∀ (rd ra rb : RegNum) (s : State), fieldOp (encode (.muls rd ra rb)) = 0x16 ∧
    ((s.read ra = none ∨ s.read rb = none) → exec (.muls rd ra rb) s = .next { s with status := 5 }) ∧
    ∀ x y, s.read ra = some x → s.read rb = some y →
      ((validDigits x.bits = false ∨ validDigits y.bits = false) →
        exec (.muls rd ra rb) s = .next { s with status := 3 }) ∧
      (validDigits x.bits = true → validDigits y.bits = true →
        ((isZero x.bits = true ∨ isZero y.bits = true) → exec (.muls rd ra rb) s =
          .next { s.write rd (some ⟨[false, false, false, false], false⟩) with status := 0 }) ∧
        (isZero x.bits = false → isZero y.bits = false →
          (withinMaxBits (roundUp4 x.bits.length + roundUp4 y.bits.length) = false →
            exec (.muls rd ra rb) s = .next { s with status := 1 }) ∧
          (withinMaxBits (roundUp4 x.bits.length + roundUp4 y.bits.length) = true →
            ∃ z, exec (.muls rd ra rb) s = .next { s.write rd (some z) with status := 0 } ∧
              canonical z = true ∧ value z = value x * value y ∧ z.neg = (effneg x ^^ effneg y))))

/-- R243 (with R241, R242, R90): `CMPS` answers the order of the represented numbers for valid digits; it examines no
digits: for any contents, different effective signs decide and equal ones give the order of the binary values, reversed
for two negative operands. -/
def Obligations.CmpsOrdersValues : Prop :=
  ∀ (ra rb : RegNum) (s : State), fieldOp (encode (.cmps ra rb)) = 0x17 ∧
    ((s.read ra = none ∨ s.read rb = none) → exec (.cmps ra rb) s = .next { s with status := 5 }) ∧
    ∀ x y, s.read ra = some x → s.read rb = some y →
      exec (.cmps ra rb) s = .next { s with
        dout := if effneg x = true ∧ effneg y = false then 0xFFFFFFFFFFFFFFFF
          else if effneg x = false ∧ effneg y = true then 1
          else if effneg x = true then natOrderDatum (val y.bits) (val x.bits)
          else natOrderDatum (val x.bits) (val y.bits),
        status := 0 } ∧
      (validDigits x.bits = true → validDigits y.bits = true →
        exec (.cmps ra rb) s = .next { s with dout := intOrderDatum (value x) (value y), status := 0 })

/-- R269: `addSigned` of values with valid digits is commutative, and associative wherever all four sums can be made. -/
def Obligations.AdditionCommutesAndAssociates : Prop :=
  ∀ a b c : BcdNumber, validDigits a.bits = true → validDigits b.bits = true → validDigits c.bits = true →
    addSigned a b = addSigned b a ∧
    ∀ u v l r, addSigned a b = .ok u → addSigned u c = .ok l → addSigned b c = .ok v → addSigned a v = .ok r → l = r

/-- R270: a value with valid digits plus its negation is `ZERO4`, canonical or not, wherever the sum can be made. -/
def Obligations.AdditiveInverseIsZero : Prop :=
  ∀ a : BcdNumber, validDigits a.bits = true → sumWithin a (negate a) →
    addSigned a (negate a) = .ok ⟨[false, false, false, false], false⟩

/-- R272: a value with valid digits times `fromInteger(0)` is `ZERO4`, times `fromInteger(1)` is the trimmed operand,
also with the operands exchanged. -/
def Obligations.MultiplicationIdentityAndZero : Prop :=
  ∃ zero one : BcdNumber, fromInteger 0 = .ok zero ∧ fromInteger 1 = .ok one ∧
    ∀ a : BcdNumber, validDigits a.bits = true →
      multiplySigned a zero = .ok BcdNumber.zero4 ∧ multiplySigned zero a = .ok BcdNumber.zero4 ∧
      (withinMaxBits (roundUp4 a.bits.length + 4) = true →
        ∃ p, trim a = .ok p ∧ multiplySigned a one = .ok p ∧ multiplySigned one a = .ok p)

/-! ### The whole machine -/

/-- R282: a command that ends in an error changes `STATUS` and nothing else. -/
def Obligations.ErrorChangesStatusOnly : Prop :=
  ∀ (i : Instr) (s t : State), exec i s = .next t → t.status ≠ 0 → t = { s with status := t.status }

/-- R289: the outcomes a command can report are those of its row of the table; AllocationFailure only with a finite
`MAXBITS`. -/
def Obligations.OutcomeMatrix : Prop :=
  ∀ (i : Instr) (s t : State), exec i s = .next t → t.status = 0 ∨
    ∃ e : Err, t.status = e.code ∧ i.mayReport e = true ∧ (e = .allocationFailure → Config.maxBits ≠ none)

/-- R290 (with R283 to R288): of the conditions that hold, the first in the rule's order decides `STATUS`, which is 0
where none holds. The premise, no register longer than `MAXBITS`, is an invariant of its own (SafeIsInvariant). -/
def Obligations.FirstErrorIsReported : Prop :=
  ∀ (i : Instr) (s t : State), regsFit s → exec i s = .next t →
    (absentSource i s → t.status = 5) ∧
    (¬ absentSource i s → sizesDiffer i s → t.status = 2) ∧
    (¬ absentSource i s → ¬ sizesDiffer i s → badDigits i s → t.status = 3) ∧
    (¬ absentSource i s → ¬ sizesDiffer i s → ¬ badDigits i s → tooLong i s → t.status = 1) ∧
    (¬ absentSource i s → ¬ sizesDiffer i s → ¬ badDigits i s → ¬ tooLong i s → outOfRange i s → t.status = 4) ∧
    (¬ absentSource i s → ¬ sizesDiffer i s → ¬ badDigits i s → ¬ tooLong i s → ¬ outOfRange i s → t.status = 0)

/-- R25, R32, R37: what a command leaves as it is: every register but its destination, `DOUT` unless it returns a datum,
and the host's side. -/
def Obligations.Frame : Prop :=
  ∀ (i : Instr) (s t : State), exec i s = .next t →
    (∀ r : RegNum, i.dest ≠ some r → t.read r = s.read r) ∧ (i.dest ≠ none → t.dout = s.dout) ∧
    t.din = s.din ∧ t.pending = s.pending

/-- R48: outcome, written register and datum of a command are a function of the command, `DIN` and its source registers:
two states that agree on those give the same. -/
def Obligations.ResultDependsOnSourcesOnly : Prop :=
  ∀ (i : Instr) (s s' t t' : State), s'.din = s.din → (∀ r ∈ i.sources, s'.read r = s.read r) →
    exec i s = .next t → exec i s' = .next t' →
    t'.status = t.status ∧ (t.status = 0 → (∀ r, i.dest = some r → t'.read r = t.read r) ∧
      (i.dest = none → t'.dout = t.dout))

/-- R57: a command whose destination is none of its sources, repeated with the same `CMD` and `DIN`, gives the same
destination value, `DOUT` and `STATUS`, so the second run changes nothing. -/
def Obligations.RepeatingChangesNothing : Prop :=
  ∀ (i : Instr) (s t : State), (∀ r, i.dest = some r → r ∉ i.sources) → exec i s = .next t → exec i t = .next t

/-- R297: if every present register has valid digits before one of the commands the rule names, every present register has
valid digits afterwards. -/
def Obligations.ArithmeticKeepsDigitsValid : Prop :=
  ∀ (i : Instr) (s t : State), keepsDigitsValid i s → regsValid s → exec i s = .next t → regsValid t

/-- R21, R105, R280: every step keeps every register within `MAXBITS` and `STATUS` away from the reserved value 7, from
every state in which both hold. -/
def Obligations.SafeIsInvariant : Prop :=
  ∀ (p : Profile) (s t : State), Safe s → stepIn p s = .next t → Safe t

/-- R36, R280: the invariants hold right after reset. -/
def Obligations.ResetIsSafe : Prop := Safe State.reset ∧ regsCanonical State.reset ∧ regsValid State.reset

/-- R12: under profile PUBLIC every step keeps every present register canonical, and no command ends in SizeMismatch or
InvalidDigit. -/
def Obligations.PublicKeepsCanonical : Prop :=
  ∀ s t : State, regsCanonical s → stepIn .pub s = .next t →
    regsCanonical t ∧ (s.pending ≠ [] → t.status ≠ 2 ∧ t.status ≠ 3)

/-- R87: the pseudo-command `MOV` is the command `VCOPY`, and `CLR`, presented to the block, leaves `ZERO4` in its register
(log 3 for the list of events). -/
def Obligations.PseudoCommands : Prop :=
  (∀ rd ra : RegNum, movCommand rd ra = .vcopy rd ra) ∧
  ∀ (rd : RegNum) (s : State) (rest : List HostEvent), s.pending = clrEvent rd :: rest →
    step s = .next { s.write rd (some ⟨[false, false, false, false], false⟩) with
      status := 0, din := 0, pending := rest }

/-- R246: the rendering of a number: the groups from the highest to the lowest, four characters each, joined by the
separator, with the sign in front of a negative number in the caller's style. -/
def Obligations.DisplayRendersDigits : Prop :=
  ∀ (sep : String) (x : BcdNumber),
    (effneg x = false → ∀ style, toDisplayString sep style x = bodyText sep x.bits) ∧
    (effneg x = true → toDisplayString sep .group1111 x = "1111" ++ sep ++ bodyText sep x.bits ∧
      toDisplayString sep .minus x = "-" ++ bodyText sep x.bits) ∧
    (∀ b0 b1 b2 b3 : Bool, bodyText sep [b0, b1, b2, b3] = String.ofList [bitChar b3, bitChar b2, bitChar b1, bitChar b0]) ∧
    (∀ n, x.bits.length = 4 * n + 4 → ∀ b0 b1 b2 b3 : Bool, bodyText sep (x.bits ++ [b0, b1, b2, b3]) =
      String.ofList [bitChar b3, bitChar b2, bitChar b1, bitChar b0] ++ sep ++ bodyText sep x.bits)
end

