-- ==== Sys2Proof/Laws/State.lean ====
section
/-! SUPPORT. What each update of the state does to each field, and reading a register after a write: later proofs unfold
no record update. -/

namespace Sys2Proof.Machine

variable (s : State) (r q : RegNum) (v : Option BcdNumber) (d : Word64) (e : Err) (rest : List HostEvent)

@[simp] theorem State.write_status : (s.write r v).status = s.status := rfl
@[simp] theorem State.write_dout : (s.write r v).dout = s.dout := rfl
@[simp] theorem State.write_din : (s.write r v).din = s.din := rfl
@[simp] theorem State.write_pending : (s.write r v).pending = s.pending := rfl

@[simp] theorem State.setDout_regs : (s.setDout d).regs = s.regs := rfl
@[simp] theorem State.setDout_status : (s.setDout d).status = s.status := rfl
@[simp] theorem State.setDout_dout : (s.setDout d).dout = d := rfl
@[simp] theorem State.setDout_din : (s.setDout d).din = s.din := rfl
@[simp] theorem State.setDout_pending : (s.setDout d).pending = s.pending := rfl
@[simp] theorem State.setDout_read : (s.setDout d).read r = s.read r := rfl

@[simp] theorem State.done_regs : s.done.regs = s.regs := rfl
@[simp] theorem State.done_status : s.done.status = 0 := rfl
@[simp] theorem State.done_dout : s.done.dout = s.dout := rfl
@[simp] theorem State.done_din : s.done.din = s.din := rfl
@[simp] theorem State.done_pending : s.done.pending = s.pending := rfl
@[simp] theorem State.done_read : s.done.read r = s.read r := rfl

@[simp] theorem State.raise_regs : (s.raise e).regs = s.regs := rfl
@[simp] theorem State.raise_status : (s.raise e).status = e.code := rfl
@[simp] theorem State.raise_dout : (s.raise e).dout = s.dout := rfl
@[simp] theorem State.raise_din : (s.raise e).din = s.din := rfl
@[simp] theorem State.raise_pending : (s.raise e).pending = s.pending := rfl
@[simp] theorem State.raise_read : (s.raise e).read r = s.read r := rfl

@[simp] theorem State.accept_regs : (s.accept d rest).regs = s.regs := rfl
@[simp] theorem State.accept_status : (s.accept d rest).status = s.status := rfl
@[simp] theorem State.accept_dout : (s.accept d rest).dout = s.dout := rfl
@[simp] theorem State.accept_din : (s.accept d rest).din = d := rfl
@[simp] theorem State.accept_pending : (s.accept d rest).pending = rest := rfl
@[simp] theorem State.accept_read : (s.accept d rest).read r = s.read r := rfl

@[simp] theorem State.resetBlock_status : s.resetBlock.status = 0 := rfl
@[simp] theorem State.resetBlock_dout : s.resetBlock.dout = 0 := rfl
@[simp] theorem State.resetBlock_din : s.resetBlock.din = s.din := rfl
@[simp] theorem State.resetBlock_pending : s.resetBlock.pending = s.pending := rfl

/-- After a reset of the block every register is absent (R310). -/
@[simp] theorem State.resetBlock_read : s.resetBlock.read r = none := by
  simp [State.read, State.resetBlock]

/-- At reset every register is absent (R36). -/
@[simp] theorem State.reset_read : State.reset.read r = none := by
  simp [State.read, State.reset]

/-- A register reads as what was last written to it (R60). -/
@[simp] theorem State.read_write_self : (s.write r v).read r = v := by
  simp [State.read, State.write]

/-- Writing a register leaves every other one alone (R25). -/
theorem State.read_write_ne (h : q ≠ r) : (s.write r v).read q = s.read q := by
  have h' : r.toNat ≠ q.toNat := fun e => h (BitVec.eq_of_toNat_eq e.symm)
  simp [State.read, State.write, Vector.getElem_set_ne, h']

/-- Reading after a write, both cases. -/
theorem State.read_write : (s.write r v).read q = if q = r then v else s.read q := by
  split
  · subst q; exact State.read_write_self s r v
  · exact State.read_write_ne s r q v ‹_›

/-- Two states with the same registers, status, data-out, port and events are the same. -/
theorem State.ext_read {s t : State} (hr : ∀ r, t.read r = s.read r) (h1 : t.status = s.status)
    (h2 : t.dout = s.dout) (h3 : t.din = s.din) (h4 : t.pending = s.pending) : t = s := by
  cases s; cases t
  simp only [State.mk.injEq] at *
  refine ⟨?_, h1, h2, h3, h4⟩
  ext1 i hi
  simpa [State.read, Nat.mod_eq_of_lt hi] using hr (BitVec.ofNat 3 i)

end Sys2Proof.Machine
end

