-- ==== Sys2Proof/Laws/Ops.lean ====
section
/-! SUPPORT. What the two ways a command ends can do, said once; what reading a source can answer. -/

namespace Sys2Proof.Machine

/-- A command that writes a register ends in exactly one of two ways (R111, R282). -/
theorem commitReg_cases {rd : RegNum} {res : Except Err BcdNumber} {s t : State} (h : commitReg rd res s = .next t) :
    (∃ v, res = .ok v ∧ t = (s.write rd (some v)).done) ∨ (∃ e, res = .error e ∧ t = s.raise e) := by
  cases res with
  | ok v => exact .inl ⟨v, rfl, by simpa [commitReg] using h.symm⟩
  | error e => exact .inr ⟨e, rfl, by simpa [commitReg] using h.symm⟩

/-- A command that returns a datum ends in exactly one of two ways (R32, R282). -/
theorem commitDout_cases {res : Except Err Word64} {s t : State} (h : commitDout res s = .next t) :
    (∃ d, res = .ok d ∧ t = (s.setDout d).done) ∨ (∃ e, res = .error e ∧ t = s.raise e) := by
  cases res with
  | ok d => exact .inl ⟨d, rfl, by simpa [commitDout] using h.symm⟩
  | error e => exact .inr ⟨e, rfl, by simpa [commitDout] using h.symm⟩

@[simp] theorem commitReg_ok (rd : RegNum) (v : BcdNumber) (s : State) :
    commitReg rd (.ok v) s = .next (s.write rd (some v)).done := rfl
@[simp] theorem commitReg_error (rd : RegNum) (e : Err) (s : State) :
    commitReg rd (.error e) s = .next (s.raise e) := rfl
@[simp] theorem commitDout_ok (d : Word64) (s : State) : commitDout (.ok d) s = .next (s.setDout d).done := rfl
@[simp] theorem commitDout_error (e : Err) (s : State) : commitDout (.error e) s = .next (s.raise e) := rfl

/-- Every command that writes a register answers a next state (R19, R319). -/
theorem commitReg_total (rd : RegNum) (res : Except Err BcdNumber) (s : State) : ∃ t, commitReg rd res s = .next t := by
  cases res <;> exact ⟨_, rfl⟩

/-- Every command that returns a datum answers a next state (R19, R319). -/
theorem commitDout_total (res : Except Err Word64) (s : State) : ∃ t, commitDout res s = .next t := by
  cases res <;> exact ⟨_, rfl⟩

/-- No error has the code of success, and none has the reserved code 7 (R280). -/
theorem Err.code_ne (e : Err) : e.code ≠ 0 ∧ e.code ≠ 7 := by cases e <;> decide

/-- The outcome codes tell the errors apart (R280). -/
theorem Err.code_injective {e f : Err} (h : e.code = f.code) : e = f := by
  cases e <;> cases f <;> first | rfl | exact absurd h (by decide)

/-- What reading a source answers (R111). -/
theorem src_eq (s : State) (r : RegNum) :
    src s r = match s.read r with | some x => .ok x | none => .error .absentOperand := rfl

theorem src_present {s : State} {r : RegNum} {x : BcdNumber} (h : s.read r = some x) : src s r = .ok x := by
  simp [src, h]

theorem src_absent {s : State} {r : RegNum} (h : s.read r = none) : src s r = .error .absentOperand := by
  simp [src, h]

/-- A source that is read is a present register (R111, R286). -/
theorem src_cases {s : State} {r : RegNum} :
    (∃ x, s.read r = some x ∧ src s r = .ok x) ∨ (s.read r = none ∧ src s r = .error .absentOperand) := by
  cases h : s.read r with
  | some x => exact .inl ⟨x, rfl, src_present h⟩
  | none => exact .inr ⟨rfl, src_absent h⟩

theorem src2_present {s : State} {ra rb : RegNum} {x y : BcdNumber} (hx : s.read ra = some x)
    (hy : s.read rb = some y) : src2 s ra rb = .ok (x, y) := by
  simp [src2, src_present hx, src_present hy]; rfl

theorem src2_absent {s : State} {ra rb : RegNum} (h : s.read ra = none ∨ s.read rb = none) :
    src2 s ra rb = .error .absentOperand := by
  rcases h with h | h
  · simp [src2, src_absent h]; rfl
  · rcases src_cases (s := s) (r := ra) with ⟨x, -, hx⟩ | ⟨-, hx⟩
    · simp [src2, hx, src_absent h]; rfl
    · simp [src2, hx]; rfl

/-- The two sources of a command (R111, R286). -/
theorem src2_cases {s : State} {ra rb : RegNum} :
    (∃ x y, s.read ra = some x ∧ s.read rb = some y ∧ src2 s ra rb = .ok (x, y)) ∨
    ((s.read ra = none ∨ s.read rb = none) ∧ src2 s ra rb = .error .absentOperand) := by
  cases ha : s.read ra with
  | none => exact .inr ⟨.inl rfl, src2_absent (.inl ha)⟩
  | some x =>
    cases hb : s.read rb with
    | none => exact .inr ⟨.inr rfl, src2_absent (.inr hb)⟩
    | some y => exact .inl ⟨x, y, rfl, rfl, src2_present ha hb⟩

/-- The validation of the arithmetic commands (R285). -/
theorem checkDigits_ok {x y : BcdNumber} (hx : validDigits x.bits = true) (hy : validDigits y.bits = true) :
    checkDigits x y = .ok () := by simp [checkDigits, hx, hy]

theorem checkDigits_error {x y : BcdNumber} (h : validDigits x.bits = false ∨ validDigits y.bits = false) :
    checkDigits x y = .error .invalidDigit := by
  rcases h with h | h <;> simp [checkDigits, h]

theorem checkDigits_cases {x y : BcdNumber} :
    (validDigits x.bits = true ∧ validDigits y.bits = true ∧ checkDigits x y = .ok ()) ∨
    ((validDigits x.bits = false ∨ validDigits y.bits = false) ∧ checkDigits x y = .error .invalidDigit) := by
  cases hx : validDigits x.bits with
  | false => exact .inr ⟨.inl rfl, checkDigits_error (.inl hx)⟩
  | true =>
    cases hy : validDigits y.bits with
    | false => exact .inr ⟨.inr rfl, checkDigits_error (.inr hy)⟩
    | true => exact .inl ⟨rfl, rfl, checkDigits_ok hx hy⟩

end Sys2Proof.Machine
end

