-- ==== Sys2Proof/Laws/Bits.lean ====
section
/-! SUPPORT. The vector operations and the reading of a vector as digit groups: lengths, bits, groups, decimal values. -/

namespace Sys2Proof.Machine

/-! ### Capacity (R11, R105) -/

/-- A vector may be made exactly when it is no longer than a finite `MAXBITS` (R105). -/
theorem fits_iff {n : Nat} : fits n = true ↔ ∀ m, Config.maxBits = some m → n ≤ m := by
  have h76 : ∀ m, Config.maxBits = some m → 76 ≤ m := by
    intro m hm
    simp only [Config.maxBits, Option.map_eq_some_iff] at hm
    obtain ⟨a, -, rfl⟩ := hm
    simp [Config.minMaxBits]
  cases hm : Config.maxBits with
  | none => simp [fits, hm]
  | some m =>
    have := h76 m hm
    simp only [fits, hm, Config.minMaxBits, Bool.or_eq_true, decide_eq_true_eq, Option.some.injEq]
    constructor
    · rintro h k rfl
      rcases h with h | h
      · exact (of_decide_eq_true h).trans this
      · exact h
    · intro h; exact .inr (h m rfl)

/-- The model's capacity test is the spec's (R105): the bound 76 it tests first is below every `MAXBITS`. -/
theorem withinMaxBits_eq (n : Nat) : withinMaxBits n = fits n := by
  rw [Bool.eq_iff_iff, fits_iff, withinMaxBits]
  cases Config.maxBits <;> simp

theorem fits_mono {n m : Nat} (h : fits m = true) (hle : n ≤ m) : fits n = true :=
  fits_iff.2 fun k hk => hle.trans (fits_iff.1 h k hk)

/-- Every implementation can make a vector of 76 bits (R11). -/
theorem fits_76 {n : Nat} (h : n ≤ 76) : fits n = true := by
  simp [fits, Config.minMaxBits, h]

theorem create_eq (n : Nat) : create n = if fits n then .ok (zeros n) else .error .allocationFailure := rfl

theorem create_ok {n : Nat} (h : fits n = true) : create n = .ok (zeros n) := by simp [create, h]
theorem create_error {n : Nat} (h : fits n = false) : create n = .error .allocationFailure := by simp [create, h]
theorem resize_ok {X : Bits} {n : Nat} (h : fits n = true) : resize X n = .ok (resized X n) := by simp [resize, h]
theorem resize_error {X : Bits} {n : Nat} (h : fits n = false) : resize X n = .error .allocationFailure := by
  simp [resize, h]
theorem make_ok {X : Bits} (h : fits X.length = true) : make X = .ok X := by simp [make, h]
theorem make_error {X : Bits} (h : fits X.length = false) : make X = .error .allocationFailure := by simp [make, h]

/-! ### Lengths and bits (R100 to R103) -/

@[simp] theorem length_zeros (n : Nat) : (zeros n).length = n := by simp [zeros]

@[simp] theorem getBit_zeros (n i : Nat) : getBit (zeros n) i = false := by
  simp [getBit, zeros, List.getD_eq_getElem?_getD, List.getElem?_replicate]; split <;> rfl

@[simp] theorem length_resized (X : Bits) (n : Nat) : (resized X n).length = n := by
  simp [resized]; omega

theorem getBit_lt {X : Bits} {i : Nat} (h : i < X.length) : getBit X i = X[i] := by
  simp [getBit, h]

/-- Reading beyond the end gives 0 (R101). -/
theorem getBit_ge {X : Bits} {i : Nat} (h : X.length ≤ i) : getBit X i = false := by
  simp [getBit, h]

@[simp] theorem getBit_nil (i : Nat) : getBit [] i = false := rfl
@[simp] theorem getBit_cons_zero (b : Bool) (X : Bits) : getBit (b :: X) 0 = b := rfl
@[simp] theorem getBit_cons_succ (b : Bool) (X : Bits) (i : Nat) : getBit (b :: X) (i + 1) = getBit X i := rfl

theorem getBit_append (X Y : Bits) (i : Nat) :
    getBit (X ++ Y) i = if i < X.length then getBit X i else getBit Y (i - X.length) := by
  simp only [getBit, List.getD_eq_getElem?_getD, List.getElem?_append]
  split <;> rfl

/-- The bits of a resized vector (R103). -/
theorem getBit_resized (X : Bits) (n i : Nat) : getBit (resized X n) i = if i < n then getBit X i else false := by
  rw [resized, getBit_append]
  simp only [getBit_zeros, List.length_take]
  by_cases h : i < n <;> by_cases h' : i < X.length
  · simp [h, h', getBit, List.getD_eq_getElem?_getD]
  · simp [h, h', getBit_ge (Nat.le_of_not_lt h')]
  · simp [h]
  · simp [h]

/-- Two vectors of one length with the same bits are equal. -/
theorem bits_ext {X Y : Bits} (hl : X.length = Y.length) (h : ∀ i, getBit X i = getBit Y i) : X = Y := by
  apply List.ext_getElem hl
  intro i h1 h2
  simpa [getBit_lt h1, getBit_lt h2] using h i

@[simp] theorem resized_self (X : Bits) : resized X X.length = X := by simp [resized, zeros]

@[simp] theorem length_setBit (X : Bits) (i : Nat) (b : Bool) : (setBit X i b).length = X.length := by
  unfold setBit; split <;> simp

/-- The bits after `set` (R102). -/
theorem getBit_setBit (X : Bits) (i j : Nat) (b : Bool) :
    getBit (setBit X i b) j = if j = i ∧ i < X.length then b else getBit X j := by
  unfold setBit
  split
  · rename_i h
    by_cases hj : j = i
    · subst hj; simp [getBit, h]
    · simp [getBit, hj, List.getD_eq_getElem?_getD, List.getElem?_set_ne (Ne.symm hj)]
  · rename_i h
    simp [h]

/-! ### Rounding up to whole groups (R14) -/

theorem roundUp4_mod (n : Nat) : roundUp4 n % 4 = 0 := by simp [roundUp4]
theorem le_roundUp4 (n : Nat) : n ≤ roundUp4 n := by simp only [roundUp4]; omega
theorem roundUp4_of_mod {n : Nat} (h : n % 4 = 0) : roundUp4 n = n := by simp only [roundUp4]; omega
theorem ngroups_eq (X : Bits) : ngroups X = (X.length + 3) / 4 := by simp only [ngroups, roundUp4]; omega
theorem roundUp4_length (X : Bits) : roundUp4 X.length = 4 * ngroups X := by simp only [ngroups, roundUp4]; omega
theorem ngroups_of_length {X : Bits} {n : Nat} (h : X.length = 4 * n) : ngroups X = n := by rw [ngroups_eq]; omega

/-- The common width is a positive number of whole groups that holds both operands (R158). -/
theorem cw_spec (A B : Bits) :
    cw A B % 4 = 0 ∧ 4 ≤ cw A B ∧ A.length ≤ cw A B ∧ B.length ≤ cw A B ∧ 4 * ngroups A ≤ cw A B ∧
      4 * ngroups B ≤ cw A B := by
  simp only [cw, roundUp4, ngroups_eq]; omega

theorem cw_comm (A B : Bits) : cw A B = cw B A := by simp only [cw, Nat.max_comm]

/-! ### Groups (R14, R89) -/

@[simp] theorem length_groups (X : Bits) : (groups X).length = ngroups X := by simp [groups]

@[simp] theorem groups_nil : groups [] = [] := rfl

theorem dig_beyond {X : Bits} {k : Nat} (h : ngroups X ≤ k) : dig X k = 0 := by
  rw [ngroups_eq] at h
  have hz : ∀ j, getBit X (4 * k + j) = false := fun j => getBit_ge (by omega)
  have h0 : getBit X (4 * k) = false := hz 0
  simp [dig, hz, h0]

theorem dig_congr {X Y : Bits} {k l : Nat} (h : ∀ j, j < 4 → getBit X (4 * k + j) = getBit Y (4 * l + j)) :
    dig X k = dig Y l := by
  have h0 : getBit X (4 * k) = getBit Y (4 * l) := h 0 (by omega)
  simp only [dig, h0, h 1 (by omega), h 2 (by omega), h 3 (by omega)]

theorem groups_cons4 (a b c d : Bool) (X : Bits) : groups (a :: b :: c :: d :: X) =
    (BitVec.ofBool d ++ BitVec.ofBool c ++ BitVec.ofBool b ++ BitVec.ofBool a) :: groups X := by
  have hn : ngroups (a :: b :: c :: d :: X) = ngroups X + 1 := by simp only [ngroups_eq, List.length_cons]; omega
  simp only [groups, hn, List.range_succ_eq_map, List.map_cons, List.map_map]
  congr 1

theorem nib_groups (d : Digit) : BitVec.ofBool (d.getLsbD 3) ++ BitVec.ofBool (d.getLsbD 2) ++
    BitVec.ofBool (d.getLsbD 1) ++ BitVec.ofBool (d.getLsbD 0) = d := by
  revert d; decide

@[simp] theorem ofGroups_nil : ofGroups [] = [] := rfl
@[simp] theorem ofGroups_cons (d : Digit) (ds : List Digit) : ofGroups (d :: ds) = nib d ++ ofGroups ds := rfl
theorem ofGroups_append (as bs : List Digit) : ofGroups (as ++ bs) = ofGroups as ++ ofGroups bs := by
  simp [ofGroups, List.flatMap_append]

@[simp] theorem length_nib (d : Digit) : (nib d).length = 4 := rfl

@[simp] theorem length_ofGroups (ds : List Digit) : (ofGroups ds).length = 4 * ds.length := by
  induction ds with
  | nil => rfl
  | cons d ds ih => simp [ih]; omega

/-- Reading back the groups a vector was made of (R89). -/
@[simp] theorem groups_ofGroups (ds : List Digit) : groups (ofGroups ds) = ds := by
  induction ds with
  | nil => rfl
  | cons d ds ih =>
    simp only [ofGroups_cons, nib, List.cons_append, List.nil_append, groups_cons4, ih, nib_groups]

/-- A vector of whole groups is the vector of its groups (R89). -/
theorem ofGroups_groups : ∀ {n : Nat} {X : Bits}, X.length = 4 * n → ofGroups (groups X) = X
  | 0, X, h => by
    have : X = [] := List.eq_nil_of_length_eq_zero (by simpa using h)
    subst this; rfl
  | n + 1, X, h => by
    match X, h with
    | a :: b :: c :: d :: X, h =>
      have hX : X.length = 4 * n := by simp only [List.length_cons] at h; omega
      rw [groups_cons4, ofGroups_cons, ofGroups_groups hX]
      cases a <;> cases b <;> cases c <;> cases d <;> rfl

theorem groups_getElem? (X : Bits) (k : Nat) : (groups X)[k]? = if k < ngroups X then some (dig X k) else none := by
  by_cases h : k < ngroups X <;> simp [groups, h]

/-- Two vectors of whole groups, equally long, with the same groups, are equal. -/
theorem eq_of_groups {X Y : Bits} (hX : X.length % 4 = 0) (hY : Y.length % 4 = 0) (h : groups X = groups Y) :
    X = Y := by
  rw [← ofGroups_groups (n := X.length / 4) (X := X) (by omega), h,
    ofGroups_groups (n := Y.length / 4) (X := Y) (by omega)]

/-- The groups of a vector resized to whole groups (R103, R158). -/
theorem groups_resized (X : Bits) (n : Nat) :
    groups (resized X (4 * n)) = (groups X).take n ++ List.replicate (n - ngroups X) 0#4 := by
  have hn : ngroups (resized X (4 * n)) = n := ngroups_of_length (by simp)
  apply List.ext_getElem?
  intro k
  rw [groups_getElem?, hn, List.getElem?_append, List.getElem?_take]
  simp only [List.length_take, length_groups]
  by_cases hk : k < n
  · have hd : dig (resized X (4 * n)) k = dig X k :=
      dig_congr fun j hj => by rw [getBit_resized, if_pos (by omega)]
    by_cases hg : k < ngroups X
    · rw [if_pos hk, if_pos (by omega), if_pos hk, groups_getElem?, if_pos hg, hd]
    · rw [if_pos hk, hd, dig_beyond (Nat.le_of_not_lt hg), if_neg (by omega), List.getElem?_replicate,
        if_pos (by omega)]; rfl
  · simp only [hk, if_false]
    rw [if_neg (by omega), List.getElem?_replicate, if_neg (by omega)]

/-- Growing a vector to whole groups adds zero groups. -/
theorem groups_resized_grow {X : Bits} {n : Nat} (h : ngroups X ≤ n) :
    groups (resized X (4 * n)) = groups X ++ List.replicate (n - ngroups X) 0#4 := by
  rw [groups_resized, List.take_of_length_le (by simpa using h)]

@[simp] theorem groups_zeros (n : Nat) : groups (zeros (4 * n)) = List.replicate n 0#4 := by
  have h : zeros (4 * n) = resized [] (4 * n) := by simp [resized]
  rw [h, groups_resized]
  simp [ngroups_eq]

/-! ### Decimal values (R14) -/

@[simp] theorem digitsVal_nil : digitsVal [] = 0 := rfl
@[simp] theorem digitsVal_cons (d : Digit) (ds : List Digit) : digitsVal (d :: ds) = d.toNat + 10 * digitsVal ds := rfl

theorem digitsVal_append (as bs : List Digit) :
    digitsVal (as ++ bs) = digitsVal as + 10 ^ as.length * digitsVal bs := by
  induction as with
  | nil => simp
  | cons a as ih => simp only [List.cons_append, digitsVal_cons, ih, List.length_cons, pow_succ]; ring

@[simp] theorem digitsVal_replicate_zero (n : Nat) : digitsVal (List.replicate n 0#4) = 0 := by
  induction n with
  | zero => rfl
  | succ n ih => rw [List.replicate_succ, digitsVal_cons, ih]; rfl

/-- Every group is a decimal digit (R130). -/
def digitsOk (ds : List Digit) : Prop := ∀ d ∈ ds, d.toNat ≤ 9

theorem validDigits_iff {X : Bits} : validDigits X = true ↔ digitsOk (groups X) := by
  simp [validDigits, digitsOk]

theorem digitsOk_cons {d : Digit} {ds : List Digit} : digitsOk (d :: ds) ↔ d.toNat ≤ 9 ∧ digitsOk ds := by
  simp [digitsOk]

theorem digitsOk_append {as bs : List Digit} : digitsOk (as ++ bs) ↔ digitsOk as ∧ digitsOk bs := by
  simp only [digitsOk, List.mem_append]
  exact ⟨fun h => ⟨fun d hd => h d (.inl hd), fun d hd => h d (.inr hd)⟩, fun h d hd => hd.elim (h.1 d) (h.2 d)⟩

theorem digitsOk_replicate_zero (n : Nat) : digitsOk (List.replicate n 0#4) := by
  intro d hd
  rw [List.eq_of_mem_replicate hd]; decide

theorem digitsOk_nil : digitsOk [] := by simp [digitsOk]

theorem digitsOk_take {ds : List Digit} (n : Nat) (h : digitsOk ds) : digitsOk (ds.take n) :=
  fun d hd => h d (List.mem_of_mem_take hd)

/-- The value of `n` decimal digits is below `10^n`. -/
theorem digitsVal_lt {ds : List Digit} (h : digitsOk ds) : digitsVal ds < 10 ^ ds.length := by
  induction ds with
  | nil => simp
  | cons d ds ih =>
    have := ih (digitsOk_cons.1 h).2
    have := (digitsOk_cons.1 h).1
    simp only [digitsVal_cons, List.length_cons, pow_succ]; omega

/-- Equally many decimal digits with the same value are the same digits. -/
theorem digitsVal_injective : ∀ {as bs : List Digit}, as.length = bs.length → digitsOk as → digitsOk bs →
    digitsVal as = digitsVal bs → as = bs
  | [], [], _, _, _, _ => rfl
  | a :: as, b :: bs, hl, ha, hb, h => by
    have ha' := digitsOk_cons.1 ha
    have hb' := digitsOk_cons.1 hb
    simp only [digitsVal_cons] at h
    have h1 : a.toNat = b.toNat := by omega
    have h2 : digitsVal as = digitsVal bs := by omega
    rw [BitVec.eq_of_toNat_eq h1, digitsVal_injective (by simpa using hl) ha'.2 hb'.2 h2]

theorem decval_lt {X : Bits} (h : validDigits X = true) : decval X < 10 ^ ngroups X := by
  simpa [decval] using digitsVal_lt (validDigits_iff.1 h)

@[simp] theorem decval_ofGroups (ds : List Digit) : decval (ofGroups ds) = digitsVal ds := by simp [decval]

theorem validDigits_ofGroups {ds : List Digit} : validDigits (ofGroups ds) = true ↔ digitsOk ds := by
  simp [validDigits_iff]

/-- Vectors of whole groups, equally long, with valid digits and the same value, are equal. -/
theorem eq_of_decval {X Y : Bits} (hl : X.length = Y.length) (h4 : X.length % 4 = 0) (hX : validDigits X = true)
    (hY : validDigits Y = true) (h : decval X = decval Y) : X = Y :=
  eq_of_groups h4 (hl ▸ h4) <| digitsVal_injective (by simp [ngroups, hl]) (validDigits_iff.1 hX)
    (validDigits_iff.1 hY) h

/-- Padding to whole groups keeps the value (R158). -/
theorem decval_resized_grow {X : Bits} {n : Nat} (h : ngroups X ≤ n) : decval (resized X (4 * n)) = decval X := by
  simp [decval, groups_resized_grow h, digitsVal_append]

/-- Padding to whole groups keeps the digits valid (R158). -/
theorem validDigits_resized_grow {X : Bits} {n : Nat} (h : ngroups X ≤ n) (hX : validDigits X = true) :
    validDigits (resized X (4 * n)) = true := by
  rw [validDigits_iff, groups_resized_grow h]
  exact digitsOk_append.2 ⟨validDigits_iff.1 hX, digitsOk_replicate_zero _⟩

/-- Resizing to whole groups keeps the digits valid. -/
theorem validDigits_resized {X : Bits} {n : Nat} (hX : validDigits X = true) :
    validDigits (resized X (4 * n)) = true := by
  rw [validDigits_iff, groups_resized]
  exact digitsOk_append.2 ⟨digitsOk_take _ (validDigits_iff.1 hX), digitsOk_replicate_zero _⟩

/-- Resizing to `n` whole groups keeps the value modulo `10^n`: what is cut off is the digits above (R103). -/
theorem decval_resized {X : Bits} {n : Nat} (hX : validDigits X = true) :
    decval (resized X (4 * n)) = decval X % 10 ^ n := by
  rcases Nat.lt_or_ge n (ngroups X) with h | h
  · have hlen : ((groups X).take n).length = n := by simp; omega
    have hlow := digitsVal_lt (digitsOk_take n (validDigits_iff.1 hX))
    have hval : decval X = digitsVal ((groups X).take n) + 10 ^ n * digitsVal ((groups X).drop n) := by
      conv_lhs => rw [decval, ← List.take_append_drop n (groups X), digitsVal_append, hlen]
    rw [hlen] at hlow
    rw [decval, groups_resized, digitsVal_append, digitsVal_replicate_zero, hval, Nat.add_mul_mod_self_left,
      Nat.mod_eq_of_lt hlow]
    rfl
  · rw [decval_resized_grow h,
      Nat.mod_eq_of_lt ((decval_lt hX).trans_le (Nat.pow_le_pow_right (by omega) h))]

@[simp] theorem decval_zeros (n : Nat) : decval (zeros (4 * n)) = 0 := by simp [decval]

theorem validDigits_zeros (n : Nat) : validDigits (zeros (4 * n)) = true := by
  rw [validDigits_iff, groups_zeros]; exact digitsOk_replicate_zero n

/-! ### Zero (R14, R26) -/

theorem isZero_iff_getBit {X : Bits} : isZero X = true ↔ ∀ i, getBit X i = false := by
  constructor
  · intro h i
    by_cases hi : i < X.length
    · rw [getBit_lt hi]
      have := List.all_eq_true.1 h _ (List.getElem_mem hi)
      simpa using this
    · exact getBit_ge (Nat.le_of_not_lt hi)
  · intro h
    rw [isZero, List.all_eq_true]
    intro b hb
    obtain ⟨i, hi, rfl⟩ := List.getElem_of_mem hb
    have := h i
    rw [getBit_lt hi] at this
    simp [this]

theorem digitsVal_eq_zero {ds : List Digit} : digitsVal ds = 0 ↔ ∀ d ∈ ds, d = 0 := by
  induction ds with
  | nil => simp
  | cons d ds ih =>
    simp only [digitsVal_cons, Nat.add_eq_zero_iff, List.mem_cons, forall_eq_or_imp]
    have hd : d.toNat = 0 ↔ d = 0 := ⟨fun h => BitVec.eq_of_toNat_eq (by simpa using h), fun h => by simp [h]⟩
    rw [hd]
    constructor
    · rintro ⟨h1, h2⟩; exact ⟨h1, ih.1 (by omega)⟩
    · rintro ⟨h1, h2⟩; exact ⟨h1, by rw [ih.2 h2]⟩

theorem dig_eq_zero {X : Bits} {k : Nat} (h : dig X k = 0) (j : Nat) (hj : j < 4) : getBit X (4 * k + j) = false := by
  have key : ∀ a b c d : Bool, BitVec.ofBool d ++ BitVec.ofBool c ++ BitVec.ofBool b ++ BitVec.ofBool a = (0 : Digit) →
      a = false ∧ b = false ∧ c = false ∧ d = false := by decide
  obtain ⟨h0, h1, h2, h3⟩ := key _ _ _ _ h
  match j, hj with
  | 0, _ => exact h0
  | 1, _ => exact h1
  | 2, _ => exact h2
  | 3, _ => exact h3

/-- A vector is zero exactly when its decimal value is 0, whatever its groups. -/
theorem isZero_iff_decval {X : Bits} : isZero X = true ↔ decval X = 0 := by
  rw [isZero_iff_getBit, decval, digitsVal_eq_zero]
  constructor
  · intro h d hd
    obtain ⟨k, -, rfl⟩ := List.mem_map.1 (show d ∈ (List.range (ngroups X)).map (dig X) from hd)
    rw [dig_congr (Y := []) (l := k) (fun j _ => by simp [h])]
    simp [dig]
  · intro h i
    by_cases hi : i / 4 < ngroups X
    · have hd := h (dig X (i / 4)) (List.mem_map.2 ⟨i / 4, by simpa using hi, rfl⟩)
      have := dig_eq_zero hd (i % 4) (Nat.mod_lt _ (by omega))
      rwa [Nat.div_add_mod] at this
    · exact getBit_ge (by rw [ngroups_eq] at hi; omega)

theorem isZero_eq (X : Bits) : isZero X = decide (decval X = 0) := by
  rw [Bool.eq_iff_iff, isZero_iff_decval, decide_eq_true_iff]

end Sys2Proof.Machine
end

