-- ==== Sys2Proof/Laws/Adder.lean ====
section
/-! SUPPORT. What the corrector, a digit step and `add` compute. -/

namespace Sys2Proof.Machine

/-- One digit step on decimal digits is decimal addition with carry (R151, R153). -/
theorem digitStep_spec : ∀ (a b : Digit) (c : Bool), a.toNat ≤ 9 → b.toNat ≤ 9 →
    (digitStep a b c).1.toNat + 10 * (digitStep a b c).2.toNat = a.toNat + b.toNat + c.toNat ∧
      (digitStep a b c).1.toNat ≤ 9 := by decide +kernel

/-- The digit steps of an addition: as many groups as the operands, decimal digits again, and the sum with the final
carry at the weight above them (R154, R156, R157). -/
theorem addGroups_spec : ∀ (as bs : List Digit) (c : Bool), as.length = bs.length → digitsOk as → digitsOk bs →
    (addGroups as bs c).1.length = as.length ∧ digitsOk (addGroups as bs c).1 ∧
      digitsVal (addGroups as bs c).1 + 10 ^ as.length * (addGroups as bs c).2.toNat =
        digitsVal as + digitsVal bs + c.toNat
  | [], [], c, _, _, _ => by simp [addGroups, digitsOk]
  | a :: as, b :: bs, c, hl, ha, hb => by
    have ha' := digitsOk_cons.1 ha
    have hb' := digitsOk_cons.1 hb
    obtain ⟨hsum, hok⟩ := digitStep_spec a b c ha'.1 hb'.1
    obtain ⟨h1, h2, h3⟩ := addGroups_spec as bs (digitStep a b c).2 (by simpa using hl) ha'.2 hb'.2
    refine ⟨by simp [addGroups, h1], digitsOk_cons.2 ⟨hok, h2⟩, ?_⟩
    simp only [addGroups, digitsVal_cons, List.length_cons, pow_succ]
    have : 10 ^ as.length * 10 * (addGroups as bs (digitStep a b c).2).2.toNat =
        10 * (10 ^ as.length * (addGroups as bs (digitStep a b c).2).2.toNat) := by ring
    omega

/-- `add` refuses operands of unequal length or of a length that is no multiple of 4 (R163). -/
theorem add_mismatch {A B : Bits} (h : A.length ≠ B.length ∨ A.length % 4 ≠ 0) : add A B = .error .sizeMismatch := by
  simp only [add, if_pos h]

/-- Everything `add` can do on operands of equal whole-group length with valid digits (R154 to R157, R283): the exact
sum, in as many groups or, when it does not fit them, in one more, for which there must be room. -/
theorem add_spec {A B : Bits} (hl : A.length = B.length) (h4 : A.length % 4 = 0) (hA : validDigits A = true)
    (hB : validDigits B = true) (hf : fits A.length = true) :
    (decval A + decval B < 10 ^ (A.length / 4) → ∃ R, add A B = .ok R ∧ R.length = A.length ∧
      validDigits R = true ∧ decval R = decval A + decval B) ∧
    (10 ^ (A.length / 4) ≤ decval A + decval B →
      (fits (A.length + 4) = true → ∃ R, add A B = .ok R ∧ R.length = A.length + 4 ∧ validDigits R = true ∧
        decval R = decval A + decval B) ∧
      (fits (A.length + 4) = false → add A B = .error .allocationFailure)) := by
  have hng : ngroups A = A.length / 4 := by rw [ngroups_eq]; omega
  have hn : (groups A).length = (groups B).length := by simp [ngroups, hl]
  obtain ⟨hlen, hok, hval⟩ := addGroups_spec (groups A) (groups B) false hn (validDigits_iff.1 hA) (validDigits_iff.1 hB)
  have hlt := digitsVal_lt hok
  simp only [hlen, length_groups, hng] at hlt hval
  have hadd : add A B = if (addGroups (groups A) (groups B) false).2 then
      make (ofGroups (addGroups (groups A) (groups B) false).1 ++ nib 1)
      else .ok (ofGroups (addGroups (groups A) (groups B) false).1) := by
    rw [add, if_neg (by omega), create_ok hf]; rfl
  change digitsVal _ + _ = decval A + decval B + 0 at hval
  cases hc : (addGroups (groups A) (groups B) false).2 with
  | false =>
    rw [hc] at hadd hval
    simp only [Bool.toNat_false, Nat.mul_zero, Nat.add_zero] at hval
    refine ⟨fun _ => ⟨_, hadd, ?_, validDigits_ofGroups.2 hok, by rw [decval_ofGroups, hval]⟩, fun hge => by omega⟩
    rw [length_ofGroups, hlen, length_groups, hng]; omega
  | true =>
    rw [hc] at hadd hval
    simp only [Bool.toNat_true, Nat.mul_one, Nat.add_zero] at hval
    have hnib : ofGroups (addGroups (groups A) (groups B) false).1 ++ nib 1 =
        ofGroups ((addGroups (groups A) (groups B) false).1 ++ [1]) := by rw [ofGroups_append]; rfl
    have hL : (ofGroups ((addGroups (groups A) (groups B) false).1 ++ [1])).length = A.length + 4 := by
      rw [length_ofGroups, List.length_append, hlen, length_groups, hng]; simp; omega
    rw [if_pos rfl, hnib] at hadd
    refine ⟨fun hlt' => by omega, fun _ => ⟨fun hf' => ⟨_, hadd.trans (make_ok (hL ▸ hf')), hL, ?_, ?_⟩, fun hf' => ?_⟩⟩
    · refine validDigits_ofGroups.2 (digitsOk_append.2 ⟨hok, ?_⟩)
      simp [digitsOk]
    · rw [decval_ofGroups, digitsVal_append, hlen, length_groups, hng]
      simpa using hval
    · exact hadd.trans (make_error (hL ▸ hf'))

/-- `add` never reports anything but what R154 and R163 say. -/
theorem add_errors {A B : Bits} {e : Err} (h : add A B = .error e) : e = .sizeMismatch ∨ e = .allocationFailure := by
  unfold add at h
  split at h
  · injection h with h; exact .inl h.symm
  · right
    rcases hf : fits A.length with _ | _
    · rw [create_error hf] at h; injection h with h; exact h.symm
    · rw [create_ok hf] at h
      simp only [bind, Except.bind] at h
      split at h
      · unfold make at h
        split at h
        · cases h
        · injection h with h; exact h.symm
      · injection h

end Sys2Proof.Machine
end

