-- ==== Sys2Proof/Laws/Canonicalizer.lean ====
section
/-! SUPPORT. What `trim` and `negate` do, and that canonical values are determined by what they represent. -/

namespace Sys2Proof.Machine

/-- Cutting trailing zeros off a list, read as its end being the most significant. -/
theorem dropZeros_spec (ds : List Digit) :
    (ds.reverse.dropWhile (· == 0)).length ≤ ds.length ∧
    ds = ds.take (ds.reverse.dropWhile (· == 0)).length ++
      List.replicate (ds.length - (ds.reverse.dropWhile (· == 0)).length) 0#4 ∧
    ((ds.reverse.dropWhile (· == 0)).length ≠ 0 →
      ds[(ds.reverse.dropWhile (· == 0)).length - 1]?.getD 0 ≠ 0) := by
  induction ds using List.reverseRecOn with
  | nil => simp
  | append_singleton ds d ih =>
    rw [List.reverse_append, List.reverse_singleton, List.singleton_append, List.dropWhile_cons]
    by_cases hd : d = 0
    · subst hd
      obtain ⟨h1, h2, h3⟩ := ih
      set m := (ds.reverse.dropWhile (· == 0)).length with hm
      have hb : ((0 : Digit) == 0) = true := rfl
      rw [if_pos hb, ← hm]
      refine ⟨by simp; omega, ?_, fun hne => ?_⟩
      · rw [List.take_append_of_le_length h1, List.length_append, List.length_singleton,
          show ds.length + 1 - m = (ds.length - m) + 1 by omega, List.replicate_succ', ← List.append_assoc, ← h2]
        rfl
      · rw [List.getElem?_append_left (by omega)]; exact h3 hne
    · have hb : (d == 0) = false := by simpa using hd
      rw [if_neg (by rw [hb]; exact Bool.false_ne_true)]
      refine ⟨by simp, ?_, fun _ => ?_⟩
      · simp [List.take_of_length_le]
      · simpa using hd

/-- What is left when leading zero groups are skipped (R215). -/
theorem significantGroups_spec (X : Bits) :
    significantGroups X ≤ ngroups X ∧
    groups X = (groups X).take (significantGroups X) ++ List.replicate (ngroups X - significantGroups X) 0#4 ∧
    (significantGroups X ≠ 0 → dig X (significantGroups X - 1) ≠ 0) := by
  obtain ⟨h1, h2, h3⟩ := dropZeros_spec (groups X)
  rw [length_groups] at h1 h2
  refine ⟨h1, h2, fun hne => ?_⟩
  have := h3 hne
  change (groups X)[significantGroups X - 1]?.getD 0 ≠ 0 at this
  have hlt : significantGroups X - 1 < ngroups X := by
    have : significantGroups X ≤ ngroups X := h1
    omega
  rwa [groups_getElem?, if_pos hlt] at this

/-- The groups of the trimmed vector. -/
theorem groups_trimmed (X : Bits) :
    groups (resized X (4 * significantGroups X)) = (groups X).take (significantGroups X) := by
  have := (significantGroups_spec X).1
  rw [groups_resized, show significantGroups X - ngroups X = 0 by omega, List.replicate_zero, List.append_nil]

/-- Trimming keeps the value (R216), whatever the groups. -/
theorem decval_trimmed (X : Bits) : decval (resized X (4 * significantGroups X)) = decval X := by
  rw [decval, groups_trimmed]
  conv_rhs => rw [decval, (significantGroups_spec X).2.1, digitsVal_append, digitsVal_replicate_zero]
  simp

/-- The top group of the trimmed vector is not zero (R215). -/
theorem dig_trimmed (X : Bits) (h : significantGroups X ≠ 0) :
    dig (resized X (4 * significantGroups X)) (significantGroups X - 1) ≠ 0 := by
  have := (significantGroups_spec X).2.2 h
  rwa [dig_congr (Y := X) (l := significantGroups X - 1) fun j hj => by rw [getBit_resized, if_pos (by omega)]]

/-- A vector is zero exactly when no group is left (R215, R216). -/
theorem significantGroups_eq_zero {X : Bits} : significantGroups X = 0 ↔ decval X = 0 := by
  constructor
  · intro h
    rw [← decval_trimmed, h]; simp [resized, zeros, decval]
  · intro h
    by_contra hne
    have hz := dig_trimmed X hne
    rw [← decval_trimmed, decval, digitsVal_eq_zero] at h
    apply hz
    apply h
    have hlen : ngroups (resized X (4 * significantGroups X)) = significantGroups X := ngroups_of_length (by simp)
    exact List.mem_map.2 ⟨significantGroups X - 1, by simp [hlen]; omega, rfl⟩

/-- Everything `trim` can do (R215 to R217, R283). -/
theorem trim_spec (x : BcdNumber) :
    (decval x.bits = 0 → trim x = .ok BcdNumber.zero4) ∧
    (decval x.bits ≠ 0 →
      (fits (4 * significantGroups x.bits) = true →
        trim x = .ok ⟨resized x.bits (4 * significantGroups x.bits), x.neg⟩) ∧
      (fits (4 * significantGroups x.bits) = false → trim x = .error .allocationFailure)) := by
  refine ⟨fun h => ?_, fun h => ⟨fun hf => ?_, fun hf => ?_⟩⟩
  · rw [trim, if_pos (significantGroups_eq_zero.2 h)]
  · rw [trim, if_neg (fun h' => h (significantGroups_eq_zero.1 h')), resize_ok hf]; rfl
  · rw [trim, if_neg (fun h' => h (significantGroups_eq_zero.1 h')), resize_error hf]; rfl

/-- A canonical value other than `ZERO4`, from its parts (R29). -/
theorem canonical_of_top {X : Bits} {s : Bool} {n : Nat} (hl : X.length = 4 * n) (hn : 1 ≤ n)
    (hv : validDigits X = true) (ht : dig X (n - 1) ≠ 0) : canonical ⟨X, s⟩ = true := by
  have h4 : X.length / 4 = n := by omega
  simp only [canonical, wellFormed, Bool.and_eq_true, Bool.or_eq_true, beq_iff_eq, bne_iff_ne, decide_eq_true_eq]
  exact ⟨⟨⟨by omega, by omega⟩, hv⟩, .inr (by rw [h4]; exact ht)⟩

theorem canonical_zero4 : canonical BcdNumber.zero4 = true := by decide

/-- The two kinds of canonical value (R29). -/
theorem canonical_cases {x : BcdNumber} (h : canonical x = true) : x = BcdNumber.zero4 ∨
    ∃ n, x.bits.length = 4 * n ∧ 1 ≤ n ∧ validDigits x.bits = true ∧ dig x.bits (n - 1) ≠ 0 := by
  simp only [canonical, wellFormed, Bool.and_eq_true, Bool.or_eq_true, beq_iff_eq, bne_iff_ne,
    decide_eq_true_eq] at h
  obtain ⟨⟨⟨h1, h2⟩, h3⟩, h4 | h4⟩ := h
  · exact .inl h4
  · exact .inr ⟨x.bits.length / 4, by omega, by omega, h3, h4⟩

/-- A canonical value has valid digits in whole groups (R28, R29). -/
theorem canonical_valid {x : BcdNumber} (h : canonical x = true) :
    validDigits x.bits = true ∧ x.bits.length % 4 = 0 ∧ 4 ≤ x.bits.length := by
  rcases canonical_cases h with rfl | ⟨n, h1, h2, h3, -⟩
  · decide
  · exact ⟨h3, by omega, by omega⟩

/-- A vector of `n` groups with a top group that is not zero has a value of at least `10^(n-1)`. -/
theorem decval_ge_of_top {X : Bits} {n : Nat} (hl : X.length = 4 * n) (hn : 1 ≤ n) (ht : dig X (n - 1) ≠ 0) :
    10 ^ (n - 1) ≤ decval X := by
  have hg : ngroups X = n := ngroups_of_length hl
  have hd : groups X = (List.range (n - 1)).map (dig X) ++ [dig X (n - 1)] := by
    rw [groups, hg, show n = (n - 1) + 1 by omega, List.range_succ, List.map_append]; rfl
  have hpos : 1 ≤ (dig X (n - 1)).toNat := by
    rcases Nat.eq_zero_or_pos (dig X (n - 1)).toNat with h | h
    · exact absurd (BitVec.eq_of_toNat_eq (by simpa using h)) ht
    · exact h
  rw [decval, hd, digitsVal_append, List.length_map, List.length_range]
  simp only [digitsVal_cons, digitsVal_nil, Nat.mul_zero, Nat.add_zero]
  calc 10 ^ (n - 1) = 10 ^ (n - 1) * 1 := (Nat.mul_one _).symm
    _ ≤ 10 ^ (n - 1) * (dig X (n - 1)).toNat := Nat.mul_le_mul_left _ hpos
    _ ≤ _ := Nat.le_add_left _ _

/-- A canonical value that is not `ZERO4` is not zero, and its sign is its effective sign (R29). -/
theorem canonical_sign {x : BcdNumber} (h : canonical x = true) : effneg x = x.neg := by
  rcases canonical_cases h with rfl | ⟨n, h1, h2, h3, h4⟩
  · rfl
  · have hge := decval_ge_of_top h1 h2 h4
    have : decval x.bits ≠ 0 := by
      have : 0 < 10 ^ (n - 1) := by positivity
      omega
    simp [effneg, isZero_eq, this]

/-- `trim` of a value with valid digits is canonical and represents the same number (R216). -/
theorem trim_canonical {x y : BcdNumber} (hv : validDigits x.bits = true) (h : trim x = .ok y) :
    canonical y = true ∧ value y = value x := by
  obtain ⟨h0, h1⟩ := trim_spec x
  by_cases hz : decval x.bits = 0
  · have : y = BcdNumber.zero4 := by rw [h0 hz] at h; injection h with h; exact h.symm
    subst this
    refine ⟨canonical_zero4, ?_⟩
    have : effneg x = false := by simp [effneg, isZero_eq, hz]
    rw [value, value, this, hz]; decide
  · cases hf : fits (4 * significantGroups x.bits) with
    | false => rw [(h1 hz).2 hf] at h; cases h
    | true =>
      rw [(h1 hz).1 hf] at h
      injection h with h
      subst h
      have hn : significantGroups x.bits ≠ 0 := fun h => hz (significantGroups_eq_zero.1 h)
      refine ⟨canonical_of_top (length_resized _ _) (by omega) (validDigits_resized hv) (dig_trimmed _ hn), ?_⟩
      simp only [value, effneg, isZero_eq, decval_trimmed]

/-- `trim` succeeds wherever the padded width can be made (R283). -/
theorem trim_total {x : BcdNumber} (h : fits (roundUp4 x.bits.length) = true) : ∃ y, trim x = .ok y := by
  obtain ⟨h0, h1⟩ := trim_spec x
  by_cases hz : decval x.bits = 0
  · exact ⟨_, h0 hz⟩
  · refine ⟨_, (h1 hz).1 (fits_mono h ?_)⟩
    have := (significantGroups_spec x.bits).1
    rw [roundUp4_length]; omega

theorem value_eq_zero {x : BcdNumber} : value x = 0 ↔ decval x.bits = 0 := by
  unfold value; split <;> omega

theorem value_natAbs (x : BcdNumber) : (value x).natAbs = decval x.bits := by
  unfold value; split <;> omega

theorem value_neg_iff (x : BcdNumber) : value x < 0 ↔ effneg x = true := by
  unfold value
  constructor
  · intro h
    by_contra hn
    rw [if_neg hn] at h; omega
  · intro h
    rw [if_pos h]
    have : decval x.bits ≠ 0 := fun h0 => by simp [effneg, isZero_eq, h0] at h
    omega

/-- Canonical values of the same number are the same value (R29). -/
theorem canonical_unique {x y : BcdNumber} (hx : canonical x = true) (hy : canonical y = true)
    (h : value x = value y) : x = y := by
  have hd : decval x.bits = decval y.bits := by rw [← value_natAbs, ← value_natAbs, h]
  have hs : x.neg = y.neg := by
    rw [← canonical_sign hx, ← canonical_sign hy, Bool.eq_iff_iff, ← value_neg_iff, ← value_neg_iff, h]
  have hpow : ∀ n m : Nat, 1 ≤ n → 1 ≤ m → 10 ^ (n - 1) < 10 ^ m → n ≤ m := fun n m h1 h2 hlt => by
    have := (Nat.pow_lt_pow_iff_right (show 1 < 10 by omega)).1 hlt
    omega
  have hb : x.bits = y.bits := by
    have z : ∀ z : BcdNumber, canonical z = true → decval z.bits = 0 → z = BcdNumber.zero4 := fun z hz h0 => by
      rcases canonical_cases hz with rfl | ⟨n, h1, h2, h3, h4⟩
      · rfl
      · have := decval_ge_of_top h1 h2 h4
        have : 0 < 10 ^ (n - 1) := by positivity
        omega
    by_cases h0 : decval x.bits = 0
    · rw [z x hx h0, z y hy (hd ▸ h0)]
    · rcases canonical_cases hx with rfl | ⟨n, h1, h2, h3, h4⟩
      · exact absurd (by decide) h0
      rcases canonical_cases hy with rfl | ⟨m, k1, k2, k3, k4⟩
      · exact absurd (hd ▸ by decide) h0
      have a1 := decval_ge_of_top h1 h2 h4
      have a2 := decval_lt h3
      have b1 := decval_ge_of_top k1 k2 k4
      have b2 := decval_lt k3
      rw [ngroups_of_length h1] at a2
      rw [ngroups_of_length k1] at b2
      have hnm : n = m := Nat.le_antisymm (hpow n m h2 k2 (by omega)) (hpow m n k2 h2 (by omega))
      subst hnm
      exact eq_of_decval (by omega) (by omega) h3 k3 hd
  cases x; cases y; simp_all

/-- A canonical value is what `trim` makes of it (R216). -/
theorem trim_of_canonical {x : BcdNumber} (h : canonical x = true) (hf : fits x.bits.length = true) :
    trim x = .ok x := by
  obtain ⟨hv, h4, -⟩ := canonical_valid h
  obtain ⟨y, hy⟩ := trim_total (x := x) (by rw [roundUp4_of_mod h4]; exact hf)
  obtain ⟨h1, h2⟩ := trim_canonical hv hy
  rw [hy, canonical_unique h1 h h2]

/-- `negate` inverts the number and keeps the vector (R219, R220). -/
theorem negate_spec (x : BcdNumber) : (negate x).bits = x.bits ∧ value (negate x) = -value x ∧
    effneg (negate x) = (!isZero x.bits && !x.neg) := by
  unfold negate
  by_cases h : isZero x.bits = true
  · have h0 : decval x.bits = 0 := isZero_iff_decval.1 h
    rw [if_pos h]
    simp [copyBits, value, effneg, h, h0]
  · have h' : isZero x.bits = false := by simpa using h
    rw [if_neg h]
    cases hn : x.neg <;> simp [copyBits, value, effneg, h', hn]

theorem negate_canonical {x : BcdNumber} (h : canonical x = true) : canonical (negate x) = true := by
  rcases canonical_cases h with rfl | ⟨n, h1, h2, h3, h4⟩
  · decide
  · unfold negate
    split
    · exact canonical_of_top h1 h2 h3 h4
    · exact canonical_of_top h1 h2 h3 h4

end Sys2Proof.Machine
end

