-- ==== Sys2Proof/Laws/Codec.lean ====
section
/-! SUPPORT. What the conversions of the DigitCodec compute. -/

namespace Sys2Proof.Machine

/-- Counting digits by dividing by ten, with enough fuel. -/
theorem digitCountFrom_spec : ∀ (fuel m : Nat), m < 2 ^ (fuel + 1) →
    1 ≤ digitCountFrom fuel m ∧ m < 10 ^ digitCountFrom fuel m ∧
      (m ≠ 0 → 10 ^ (digitCountFrom fuel m - 1) ≤ m)
  | 0, m, h => by
    simp only [digitCountFrom]
    refine ⟨le_refl 1, by omega, fun _ => by simp; omega⟩
  | fuel + 1, m, h => by
    unfold digitCountFrom
    split
    · exact ⟨le_refl 1, by omega, fun _ => by simp; omega⟩
    · rename_i hm
      obtain ⟨h1, h2, h3⟩ := digitCountFrom_spec fuel (m / 10) (by rw [pow_succ] at h ⊢; omega)
      have h3 := h3 (by omega)
      obtain ⟨k, hk⟩ : ∃ k, digitCountFrom fuel (m / 10) = k + 1 := ⟨_, (Nat.succ_pred_eq_of_pos h1).symm⟩
      rw [hk] at h2 h3 ⊢
      simp only [Nat.add_sub_cancel, show 1 + (k + 1) = k + 1 + 1 by omega, pow_succ] at h2 h3 ⊢
      exact ⟨by omega, by omega, fun _ => by omega⟩

/-- The number of decimal digits of `m` (R131). -/
theorem digitCount_spec (m : Nat) : 1 ≤ digitCount m ∧ m < 10 ^ digitCount m ∧
    (m ≠ 0 → 10 ^ (digitCount m - 1) ≤ m) := by
  apply digitCountFrom_spec
  exact Nat.lt_log2_self

/-- A number below `10^n` has at most `n` digits. -/
theorem digitCount_le {m n : Nat} (hn : 1 ≤ n) (h : m < 10 ^ n) : digitCount m ≤ n := by
  obtain ⟨h1, -, h3⟩ := digitCount_spec m
  by_cases h0 : m = 0
  · subst h0; exact le_trans (by decide : digitCount 0 ≤ 1) hn
  · have hlt : 10 ^ (digitCount m - 1) < 10 ^ n := lt_of_le_of_lt (h3 h0) h
    have := (Nat.pow_lt_pow_iff_right (show 1 < 10 by omega)).1 hlt
    omega

/-- The low `n` decimal digits of `m` (R139). -/
theorem digitsVal_range (m n : Nat) :
    digitsOk ((List.range n).map fun k => BitVec.ofNat 4 (m / 10 ^ k % 10)) ∧
      digitsVal ((List.range n).map fun k => BitVec.ofNat 4 (m / 10 ^ k % 10)) = m % 10 ^ n := by
  induction n with
  | zero => simp [digitsOk, Nat.mod_one]
  | succ n ih =>
    have hd : (BitVec.ofNat 4 (m / 10 ^ n % 10)).toNat = m / 10 ^ n % 10 := by
      rw [BitVec.toNat_ofNat]; omega
    rw [List.range_succ, List.map_append]
    refine ⟨digitsOk_append.2 ⟨ih.1, ?_⟩, ?_⟩
    · intro d hdm
      simp only [List.map_cons, List.map_nil, List.mem_singleton] at hdm
      subst hdm; omega
    · rw [digitsVal_append, ih.2, Nat.mod_pow_succ]
      simp only [List.map_cons, List.map_nil, digitsVal_cons, digitsVal_nil, hd, List.length_map, List.length_range,
        Nat.mul_zero, Nat.add_zero]

/-- The digits of a number (R139). -/
theorem natDigits_spec (m : Nat) : (natDigits m).length = digitCount m ∧ digitsOk (natDigits m) ∧
    digitsVal (natDigits m) = m := by
  obtain ⟨h1, h2⟩ := digitsVal_range m (digitCount m)
  exact ⟨by simp [natDigits], h1, by rw [natDigits, h2, Nat.mod_eq_of_lt (digitCount_spec m).2.1]⟩

/-- Everything `fromInteger` can do (R132, R139, R283): the canonical value of the number. -/
theorem fromInteger_spec (n : Int) :
    (fits (4 * digitCount n.natAbs) = true → ∃ x, fromInteger n = .ok x ∧ canonical x = true ∧ value x = n ∧
      x.neg = decide (n < 0) ∧ x.bits.length = 4 * digitCount n.natAbs) ∧
    (fits (4 * digitCount n.natAbs) = false → fromInteger n = .error .allocationFailure) := by
  obtain ⟨h1, h2, h3⟩ := natDigits_spec n.natAbs
  obtain ⟨c1, -, c3⟩ := digitCount_spec n.natAbs
  have hl : (ofGroups (natDigits n.natAbs)).length = 4 * digitCount n.natAbs := by rw [length_ofGroups, h1]
  refine ⟨fun hf => ?_, fun hf => ?_⟩
  · refine ⟨⟨ofGroups (natDigits n.natAbs), decide (n < 0)⟩, ?_, ?_, ?_, rfl, hl⟩
    · simp only [fromInteger, fromNat, make_ok (hl ▸ hf), bind, Except.bind]; rfl
    · by_cases h0 : n = 0
      · subst h0; decide
      · refine canonical_of_top hl c1 (validDigits_ofGroups.2 h2) fun hz => ?_
        -- a zero top group would leave a value below `10^(digits - 1)`
        have hlow : digitsVal (natDigits n.natAbs) < 10 ^ (digitCount n.natAbs - 1) := by
          have hsplit : natDigits n.natAbs = (natDigits n.natAbs).take (digitCount n.natAbs - 1) ++ [0#4] := by
            apply List.ext_getElem?
            intro k
            have hg := groups_getElem? (ofGroups (natDigits n.natAbs)) k
            rw [groups_ofGroups, ngroups_of_length hl] at hg
            rw [hg, List.getElem?_append, List.length_take, h1, Nat.min_eq_left (by omega), List.getElem?_take]
            by_cases hk : k < digitCount n.natAbs - 1
            · rw [if_pos hk, if_pos (by omega), if_pos hk]
              have hg' := groups_getElem? (ofGroups (natDigits n.natAbs)) k
              rw [groups_ofGroups, ngroups_of_length hl, if_pos (by omega)] at hg'
              exact hg'.symm
            · rw [if_neg hk]
              by_cases hk' : k = digitCount n.natAbs - 1
              · subst hk'; rw [if_pos (by omega), hz]; simp
              · rw [if_neg (by omega), List.getElem?_eq_none (by simp; omega)]
          rw [hsplit, digitsVal_append]
          have := digitsVal_lt (digitsOk_take (digitCount n.natAbs - 1) h2)
          rw [List.length_take, h1, Nat.min_eq_left (by omega)] at this
          simpa using this
        have := c3 (by omega)
        omega
    · have hd : decval (ofGroups (natDigits n.natAbs)) = n.natAbs := by rw [decval_ofGroups, h3]
      simp only [value, effneg, isZero_eq, hd]
      by_cases hn : n < 0
      · have h0 : decide (n.natAbs = 0) = false := decide_eq_false (by omega)
        rw [decide_eq_true hn, h0]
        simp only [Bool.not_false, Bool.and_self, if_true]
        omega
      · rw [decide_eq_false hn, Bool.false_and, if_neg Bool.false_ne_true]
        omega
  · simp only [fromInteger, fromNat, make_error (hl ▸ hf), bind, Except.bind]

/-- A 64-bit integer always converts (R283): at most 19 digits. -/
theorem fromInteger_64 (w : Word64) : fits (4 * digitCount w.toInt.natAbs) = true := by
  have h1 : w.toInt.natAbs < 10 ^ 19 := by
    have hlo := BitVec.le_toInt w
    have hhi := BitVec.toInt_lt (x := w)
    simp only [show 64 - 1 = 63 by omega] at hlo hhi
    omega
  exact fits_76 (by have := digitCount_le (by omega) h1; omega)

/-- Everything `toInteger` can do (R134, R135). -/
theorem toInteger_spec (x : BcdNumber) :
    (validDigits x.bits = false → toInteger x = .error .invalidDigit) ∧
    (validDigits x.bits = true →
      ((-(2 ^ 63) ≤ value x ∧ value x ≤ 2 ^ 63 - 1) → toInteger x = .ok (value x)) ∧
      ((value x < -(2 ^ 63) ∨ 2 ^ 63 - 1 < value x) → toInteger x = .error .overflow)) := by
  unfold toInteger
  refine ⟨fun h => by simp [h], fun h => ⟨fun hr => ?_, fun hr => ?_⟩⟩
  · rw [if_pos h, if_neg (by omega)]
  · rw [if_pos h, if_pos hr]

end Sys2Proof.Machine
end

