-- ==== Sys2Proof/Laws/Comparator.lean ====
section
/-! SUPPORT. The comparator orders vectors by their binary value, and vectors of decimal digits by their decimal value. -/

namespace Sys2Proof.Machine

/-- The comparison result of two natural numbers. -/
def cmpNat (a b : Nat) : Cmp := if a < b then .less else if a = b then .equal else .greater

/-- Bit `i` of a vector is bit `i` of its binary value (R13). -/
theorem val_testBit : ∀ (X : Bits) (i : Nat), (val X).testBit i = getBit X i
  | [], i => by simp [val]
  | b :: X, 0 => by cases b <;> simp [val, Nat.testBit_zero]
  | b :: X, i + 1 => by
    have h : (b.toNat + 2 * val X) / 2 = val X := by cases b <;> simp; omega
    rw [val, Nat.testBit_succ, h, val_testBit X i, getBit_cons_succ]

/-- Skipping leading zero bits, one bit at a time from the low end. -/
theorem efflen_cons (b : Bool) (X : Bits) :
    efflen (b :: X) = if efflen X = 0 then b.toNat else efflen X + 1 := by
  unfold efflen
  rw [List.reverse_cons, List.dropWhile_append]
  cases h : X.reverse.dropWhile (!·) with
  | nil => cases b <;> simp [List.dropWhile]
  | cons c Y => simp

/-- The effective length bounds the binary value from both sides (R170). -/
theorem efflen_spec : ∀ X : Bits, val X < 2 ^ efflen X ∧ (efflen X ≠ 0 → 2 ^ (efflen X - 1) ≤ val X)
  | [] => by simp [val, efflen]
  | b :: X => by
    obtain ⟨h1, h2⟩ := efflen_spec X
    rw [efflen_cons]
    by_cases h : efflen X = 0
    · rw [h] at h1
      cases b <;> simp_all [val]
    · have h2 := h2 h
      obtain ⟨n, hn⟩ := Nat.exists_eq_succ_of_ne_zero h
      rw [if_neg h, hn, val]
      rw [hn] at h1 h2
      simp only [Nat.succ_eq_add_one, Nat.add_sub_cancel, pow_succ] at *
      cases b <;> simp <;> omega

/-- Comparing the low `n` bits compares the values they have (R171). -/
theorem compareDown_spec (A B : Bits) : ∀ n, compareDown A B n = cmpNat (val A % 2 ^ n) (val B % 2 ^ n)
  | 0 => by simp [compareDown, cmpNat, Nat.mod_one]
  | n + 1 => by
    have ih := compareDown_spec A B n
    have ha := Nat.mod_lt (val A) (show 0 < 2 ^ n by positivity)
    have hb := Nat.mod_lt (val B) (show 0 < 2 ^ n by positivity)
    rw [compareDown, ih, Nat.mod_pow_succ, Nat.mod_pow_succ, ← Nat.toNat_testBit, ← Nat.toNat_testBit, val_testBit,
      val_testBit]
    cases getBit A n <;> cases getBit B n <;> simp only [cmpNat, Bool.toNat_true, Bool.toNat_false] <;>
      simp <;> split_ifs <;> first | rfl | omega

/-- The comparator orders vectors by their binary value (R172). -/
theorem compareMagnitude_val (A B : Bits) : compareMagnitude A B = cmpNat (val A) (val B) := by
  obtain ⟨ha1, ha2⟩ := efflen_spec A
  obtain ⟨hb1, hb2⟩ := efflen_spec B
  have key : ∀ m n : Nat, m < n → n ≠ 0 → 2 ^ m ≤ 2 ^ (n - 1) := fun m n h _ =>
    Nat.pow_le_pow_right (by omega) (by omega)
  unfold compareMagnitude
  split_ifs with h1 h2
  · have := ha2 (by omega)
    have := key _ _ h1 (by omega)
    simp only [cmpNat]; split_ifs <;> first | rfl | omega
  · have := hb2 (by omega)
    have := key _ _ h2 (by omega)
    simp only [cmpNat]; split_ifs <;> first | rfl | omega
  · have he : efflen A = efflen B := by omega
    rw [compareDown_spec, Nat.mod_eq_of_lt ha1, Nat.mod_eq_of_lt (he ▸ hb1)]

/-- The value of groups read in base 16. -/
def hexVal : List Digit → Nat
  | [] => 0
  | d :: ds => d.toNat + 16 * hexVal ds

theorem val_append (X Y : Bits) : val (X ++ Y) = val X + 2 ^ X.length * val Y := by
  induction X with
  | nil => simp [val]
  | cons b X ih => simp only [List.cons_append, val, ih, List.length_cons, pow_succ]; ring

theorem val_nib (d : Digit) : val (nib d) = d.toNat := by revert d; decide

theorem val_ofGroups (ds : List Digit) : val (ofGroups ds) = hexVal ds := by
  induction ds with
  | nil => rfl
  | cons d ds ih => rw [ofGroups_cons, val_append, val_nib, ih]; rfl

@[simp] theorem val_zeros (n : Nat) : val (zeros n) = 0 := by
  induction n with
  | zero => rfl
  | succ n ih => rw [zeros, List.replicate_succ, val]; simpa [zeros] using ih

/-- Padding keeps the binary value. -/
theorem val_resized_grow {X : Bits} {n : Nat} (h : X.length ≤ n) : val (resized X n) = val X := by
  simp [resized, val_append, List.take_of_length_le h]

/-- With every group a decimal digit, the base-16 order of groups is the base-10 order of digits (R172). -/
theorem hexVal_order : ∀ {as bs : List Digit}, as.length = bs.length → digitsOk as → digitsOk bs →
    (hexVal as < hexVal bs ↔ digitsVal as < digitsVal bs) ∧ (hexVal as = hexVal bs ↔ digitsVal as = digitsVal bs)
  | [], [], _, _, _ => by simp [hexVal]
  | a :: as, b :: bs, hl, ha, hb => by
    obtain ⟨ih1, ih2⟩ := hexVal_order (by simpa using hl) (digitsOk_cons.1 ha).2 (digitsOk_cons.1 hb).2
    have h1 := (digitsOk_cons.1 ha).1
    have h2 := (digitsOk_cons.1 hb).1
    simp only [hexVal, digitsVal_cons]
    constructor <;> constructor <;> intro h <;> omega

theorem cmpNat_hexVal {as bs : List Digit} (hl : as.length = bs.length) (ha : digitsOk as) (hb : digitsOk bs) :
    cmpNat (hexVal as) (hexVal bs) = cmpNat (digitsVal as) (digitsVal bs) := by
  obtain ⟨h1, h2⟩ := hexVal_order hl ha hb
  simp only [cmpNat, h1, h2]

/-- The comparator orders vectors of valid digits by their decimal value, whatever their lengths (R172). -/
theorem compareMagnitude_decval {A B : Bits} (hA : validDigits A = true) (hB : validDigits B = true) :
    compareMagnitude A B = cmpNat (decval A) (decval B) := by
  obtain ⟨h4, -, hlA, hlB, hgA, hgB⟩ := cw_spec A B
  obtain ⟨n, hn⟩ : ∃ n, cw A B = 4 * n := ⟨cw A B / 4, by omega⟩
  rw [hn] at hlA hlB hgA hgB
  have hgA' : ngroups A ≤ n := by omega
  have hgB' : ngroups B ≤ n := by omega
  have e : ∀ X : Bits, X.length ≤ 4 * n → val X = hexVal (groups (resized X (4 * n))) := fun X hX => by
    rw [← val_resized_grow hX, ← val_ofGroups, ofGroups_groups (length_resized X (4 * n))]
  rw [compareMagnitude_val, e A hlA, e B hlB,
    cmpNat_hexVal (by simp only [length_groups, ngroups_eq, length_resized])
      (validDigits_iff.1 (validDigits_resized hA)) (validDigits_iff.1 (validDigits_resized hB))]
  change cmpNat (decval (resized A (4 * n))) (decval (resized B (4 * n))) = _
  rw [decval_resized_grow hgA', decval_resized_grow hgB']

theorem cmpNat_less {a b : Nat} : cmpNat a b = .less ↔ a < b := by
  unfold cmpNat; split_ifs <;> simp <;> omega
theorem cmpNat_equal {a b : Nat} : cmpNat a b = .equal ↔ a = b := by
  unfold cmpNat; split_ifs <;> simp <;> omega
theorem cmpNat_greater {a b : Nat} : cmpNat a b = .greater ↔ b < a := by
  unfold cmpNat; split_ifs <;> simp <;> omega

/-- The comparison of two registers' contents, absent ones included (R173, R174). -/
theorem compareOperands_absent {x y : Option BcdNumber} :
    compareOperands x y = .error .absentOperand ↔ x = none ∧ y = none := by
  cases x <;> cases y <;> simp [compareOperands]

end Sys2Proof.Machine
end

