-- ==== Sys2Proof/Laws/Multiplier.lean ====
section
/-! SUPPORT. What the repeated-addition multiplier computes: the exact product at the width of both operands. -/

namespace Sys2Proof.Machine

/-- Padded addition of vectors of whole groups whose sum fits `n` groups, when neither operand is wider (R201, R203). -/
theorem addPadded_spec {A B : Bits} {n : Nat} (hA4 : A.length % 4 = 0) (hB4 : B.length % 4 = 0)
    (hA : validDigits A = true) (hB : validDigits B = true) (hAn : A.length ≤ 4 * n) (hBn : B.length ≤ 4 * n)
    (hsum : decval A + decval B < 10 ^ n) (hf : fits (4 * n) = true) :
    ∃ R, addPadded A B = .ok R ∧ validDigits R = true ∧ decval R = decval A + decval B ∧
      (R.length = max A.length B.length ∨ R.length = max A.length B.length + 4) ∧ R.length ≤ 4 * n := by
  obtain ⟨m, hm⟩ : ∃ m, max A.length B.length = 4 * m := ⟨max A.length B.length / 4, by omega⟩
  have hmn : 4 * m ≤ 4 * n := hm ▸ max_le hAn hBn
  have hAm : A.length ≤ 4 * m := hm ▸ le_max_left _ _
  have hBm : B.length ≤ 4 * m := hm ▸ le_max_right _ _
  clear hAn hBn
  have hfm : fits (4 * m) = true := fits_mono hf hmn
  have hgA : ngroups A ≤ m := by rw [ngroups_eq]; omega
  have hgB : ngroups B ≤ m := by rw [ngroups_eq]; omega
  have hdA := decval_resized_grow hgA
  have hdB := decval_resized_grow hgB
  obtain ⟨h1, h2⟩ := add_spec (A := resized A (4 * m)) (B := resized B (4 * m)) (by simp) (by simp)
    (validDigits_resized hA) (validDigits_resized hB) (by simpa using hfm)
  rw [length_resized, hdA, hdB, show 4 * m / 4 = m by omega] at h1 h2
  have hunf : addPadded A B = add (resized A (4 * m)) (resized B (4 * m)) := by
    simp only [addPadded, hm, resize_ok hfm, bind, Except.bind]
  rw [hunf, hm]
  rcases Nat.lt_or_ge (decval A + decval B) (10 ^ m) with h | h
  · obtain ⟨R, hR, hRl, hRv, hRd⟩ := h1 h
    exact ⟨R, hR, hRv, hRd, .inl hRl, hRl ▸ hmn⟩
  · have hlt : m < n := by
      by_contra hge
      have : 10 ^ n ≤ 10 ^ m := Nat.pow_le_pow_right (by omega) (by omega)
      omega
    have hm4 : 4 * m + 4 ≤ 4 * n := by omega
    obtain ⟨R, hR, hRl, hRv, hRd⟩ := (h2 h).1 (fits_mono hf hm4)
    exact ⟨R, hR, hRv, hRd, .inr hRl, hRl ▸ hm4⟩

/-- The repeated additions of a partial product (R201). -/
theorem addTimes_spec {A : Bits} {a : Nat} (hA4 : A.length = 4 * a) (hA : validDigits A = true)
    (hf : fits (4 * (a + 1)) = true) : ∀ (d : Nat) (P : Bits), P.length % 4 = 0 → P.length ≤ 4 * (a + 1) →
    validDigits P = true → decval P + d * decval A < 10 ^ (a + 1) →
    ∃ R, addTimes A d P = .ok R ∧ validDigits R = true ∧ decval R = decval P + d * decval A ∧ R.length % 4 = 0 ∧
      R.length ≤ 4 * (a + 1)
  | 0, P, h4, hl, hP, _ => ⟨P, rfl, hP, by simp, h4, hl⟩
  | d + 1, P, h4, hl, hP, hlt => by
    have hmul : (d + 1) * decval A = decval A + d * decval A := by ring
    obtain ⟨Q, hQ, hQv, hQd, hQl, hQn⟩ := addPadded_spec (A := P) (B := A) (n := a + 1) h4 (by omega) hP hA hl (by omega)
      (by omega) hf
    obtain ⟨R, hR, hRv, hRd, hR4, hRl⟩ := addTimes_spec hA4 hA hf d Q (by omega) hQn hQv (by omega)
    exact ⟨R, by simp only [addTimes, hQ, bind, Except.bind, hR], hRv, by omega, hR4, hRl⟩

/-- A partial product by a decimal digit (R201). -/
theorem partialProduct_spec {A : Bits} {a d : Nat} (hA4 : A.length = 4 * a) (hA : validDigits A = true)
    (hf : fits (4 * (a + 1)) = true) (hd : d ≤ 9) :
    ∃ P, partialProduct A d = .ok P ∧ validDigits P = true ∧ decval P = d * decval A ∧ P.length % 4 = 0 ∧
      P.length ≤ 4 * (a + 1) := by
  have hlt : decval A < 10 ^ a := by simpa [ngroups_of_length hA4] using decval_lt hA
  have hbound : d * decval A < 10 ^ (a + 1) := by
    have : d * decval A ≤ 9 * decval A := Nat.mul_le_mul_right _ hd
    rw [pow_succ]; omega
  have hz : zeros A.length = zeros (4 * a) := by rw [hA4]
  obtain ⟨P, hP, hPv, hPd, hP4, hPl⟩ := addTimes_spec hA4 hA hf d (zeros (4 * a)) (by simp) (by simp)
    (validDigits_zeros a) (by simpa using hbound)
  refine ⟨P, ?_, hPv, by simpa using hPd, hP4, hPl⟩
  rw [partialProduct, create_ok (fits_mono hf (by omega)), hz]
  exact hP

/-- The shift by `k` decimal places keeps the digits valid and, where nothing is dropped, multiplies by `10^k`
(R202). -/
theorem shifted_spec {P : Bits} {k w : Nat} (hP4 : P.length % 4 = 0) (hP : validDigits P = true)
    (hlt : decval P * 10 ^ k < 10 ^ w) :
    (shifted P (4 * k) (4 * w)).length = 4 * w ∧ validDigits (shifted P (4 * k) (4 * w)) = true ∧
      decval (shifted P (4 * k) (4 * w)) = decval P * 10 ^ k := by
  have hcat : zeros (4 * k) ++ P = ofGroups (List.replicate k 0#4 ++ groups P) := by
    rw [ofGroups_append, ofGroups_groups (n := P.length / 4) (by omega)]
    congr 1
    exact eq_of_groups (by simp) (by simp) (by simp)
  have hv : validDigits (zeros (4 * k) ++ P) = true := by
    rw [hcat, validDigits_ofGroups]
    exact digitsOk_append.2 ⟨digitsOk_replicate_zero k, validDigits_iff.1 hP⟩
  have hd : decval (zeros (4 * k) ++ P) = decval P * 10 ^ k := by
    rw [hcat, decval_ofGroups, digitsVal_append, digitsVal_replicate_zero, List.length_replicate, decval]; ring
  exact ⟨length_resized _ _, validDigits_resized hv, by rw [shifted, decval_resized hv, hd, Nat.mod_eq_of_lt hlt]⟩

/-- The bits `shl` makes (R202). -/
theorem getBit_shifted (P : Bits) (s width j : Nat) :
    getBit (shifted P s width) j = if s ≤ j ∧ j < width then getBit P (j - s) else false := by
  rw [shifted, getBit_resized, getBit_append]
  by_cases h1 : j < width <;> by_cases h2 : j < s <;> simp [h1, h2]; omega

/-- The walk over the multiplier's digits (R203, R204, R206): the running total keeps the result width. -/
theorem accumulate_spec {A : Bits} {a r : Nat} (hA4 : A.length = 4 * a) (hA : validDigits A = true)
    (hf : fits (4 * r) = true) : ∀ (ds : List Digit) (k : Nat) (total : Bits), digitsOk ds → (ds ≠ [] → a + 1 ≤ r) →
    total.length = 4 * r → validDigits total = true →
    decval total + decval A * (10 ^ k * digitsVal ds) < 10 ^ r →
    ∃ P, accumulate A (4 * r) ds k total = .ok P ∧ P.length = 4 * r ∧ validDigits P = true ∧
      decval P = decval total + decval A * (10 ^ k * digitsVal ds)
  | [], k, total, _, _, hl, hv, _ => ⟨total, rfl, hl, hv, by simp⟩
  | d :: ds, k, total, hds, har, hl, hv, hlt => by
    have hd9 := (digitsOk_cons.1 hds).1
    have hexp : decval A * (10 ^ k * digitsVal (d :: ds)) =
        d.toNat * decval A * 10 ^ k + decval A * (10 ^ (k + 1) * digitsVal ds) := by
      rw [digitsVal_cons, pow_succ]; ring
    rw [hexp] at hlt ⊢
    by_cases hd : d = 0
    · obtain ⟨P, hP, h1, h2, h3⟩ := accumulate_spec hA4 hA hf ds (k + 1) total (digitsOk_cons.1 hds).2
        (fun _ => har (by simp)) hl hv (by subst hd; simpa using hlt)
      exact ⟨P, by simp [accumulate, hd, hP], h1, h2, by subst hd; simpa using h3⟩
    · obtain ⟨Q, hQ, hQv, hQd, hQ4, -⟩ := partialProduct_spec hA4 hA (fits_mono hf (by have := har (by simp); omega)) hd9
      obtain ⟨s1, s2, s3⟩ := shifted_spec (k := k) (w := r) hQ4 hQv (by rw [hQd]; omega)
      rw [hQd] at s3
      obtain ⟨T, hT, hTv, hTd, hTl, hTn⟩ := addPadded_spec (A := total) (B := shifted Q (4 * k) (4 * r)) (n := r)
        (by omega) (by omega) hv s2 (by omega) (by omega) (by rw [s3]; omega) hf
      obtain ⟨P, hP, h1, h2, h3⟩ := accumulate_spec hA4 hA hf ds (k + 1) T (digitsOk_cons.1 hds).2
        (fun _ => har (by simp)) (by omega) hTv (by omega)
      refine ⟨P, ?_, h1, h2, by omega⟩
      simp only [accumulate, if_neg hd, hQ, shl, hf, if_true, bind, Except.bind, hT, hP]

/-- Everything the multiplier can do on operands with valid digits (R200, R204, R206): the exact product at the width
of both padded operands, or AllocationFailure exactly where that width cannot be made. -/
theorem multiplyMagnitude_spec {A B : Bits} (hA : validDigits A = true) (hB : validDigits B = true) :
    (fits (roundUp4 A.length + roundUp4 B.length) = true → ∃ P, multiplyMagnitude A B = .ok P ∧
      P.length = roundUp4 A.length + roundUp4 B.length ∧ validDigits P = true ∧ decval P = decval A * decval B) ∧
    (fits (roundUp4 A.length + roundUp4 B.length) = false → multiplyMagnitude A B = .error .allocationFailure) := by
  rw [roundUp4_length, roundUp4_length]
  set a := ngroups A with ha
  set b := ngroups B with hb
  have hunf : multiplyMagnitude A B = (do
      let A' ← resize A (4 * a)
      let B' ← resize B (4 * b)
      let total ← create (A'.length + B'.length)
      accumulate A' (A'.length + B'.length) (groups B') 0 total) := by
    simp only [multiplyMagnitude, roundUp4_length]; rfl
  constructor
  · intro hf
    have hdA := decval_resized_grow (n := a) ha.le
    have hdB := decval_resized_grow (n := b) hb.le
    have hvA := validDigits_resized_grow (n := a) ha.le hA
    have hvB := validDigits_resized_grow (n := b) hb.le hB
    have hlA : decval A < 10 ^ a := decval_lt hA
    have hlB : decval B < 10 ^ b := decval_lt hB
    have hrw : 4 * a + 4 * b = 4 * (a + b) := by ring
    rw [hrw] at hf
    have hB' : digitsVal (groups (resized B (4 * b))) = decval B := hdB
    have hprod : decval A * decval B < 10 ^ (a + b) := by
      rw [pow_add]
      calc decval A * decval B ≤ 10 ^ a * decval B := Nat.mul_le_mul_right _ hlA.le
        _ < 10 ^ a * 10 ^ b := Nat.mul_lt_mul_of_pos_left hlB (by positivity)
    obtain ⟨P, hP, h1, h2, h3⟩ := accumulate_spec (a := a) (r := a + b) (length_resized A (4 * a)) hvA hf
      (groups (resized B (4 * b))) 0 (zeros (4 * (a + b))) (validDigits_iff.1 hvB)
      (fun hne => by
        have : ngroups (resized B (4 * b)) = b := ngroups_of_length (length_resized _ _)
        have : 0 < (groups (resized B (4 * b))).length := List.length_pos_of_ne_nil hne
        rw [length_groups] at this
        omega)
      (by simp) (validDigits_zeros _) (by rw [hB', hdA]; simpa using hprod)
    refine ⟨P, ?_, by omega, h2, by rw [h3, hB', hdA]; simp⟩
    rw [hunf]
    simp only [resize_ok (fits_mono hf (show 4 * a ≤ 4 * (a + b) by omega)),
      resize_ok (fits_mono hf (show 4 * b ≤ 4 * (a + b) by omega)), bind, Except.bind, length_resized, hrw,
      create_ok hf, hP]
  · intro hf
    rw [hunf]
    rcases hfa : fits (4 * a) with _ | _
    · simp only [resize_error hfa, bind, Except.bind]
    · rcases hfb : fits (4 * b) with _ | _
      · simp only [resize_ok hfa, resize_error hfb, bind, Except.bind]
      · simp only [resize_ok hfa, resize_ok hfb, bind, Except.bind, length_resized, create_error hf]

end Sys2Proof.Machine
end

