-- ==== Sys2Proof/Laws/Subtractor.lean ====
section
/-! SUPPORT. What the complement subtraction computes: the exact difference of the magnitudes, its sign and its width. -/

namespace Sys2Proof.Machine

theorem nine_spec : ∀ d : Digit, d.toNat ≤ 9 → (nine d).toNat = 9 - d.toNat ∧ (nine d).toNat ≤ 9 := by decide

/-- The 9's complement of decimal digits (R182). -/
theorem nine_digits {ds : List Digit} (h : digitsOk ds) :
    digitsOk (ds.map nine) ∧ digitsVal (ds.map nine) + digitsVal ds + 1 = 10 ^ ds.length := by
  induction ds with
  | nil => simp [digitsOk]
  | cons d ds ih =>
    obtain ⟨h1, h2⟩ := ih (digitsOk_cons.1 h).2
    obtain ⟨h3, h4⟩ := nine_spec d (digitsOk_cons.1 h).1
    refine ⟨digitsOk_cons.2 ⟨h4, h1⟩, ?_⟩
    have := (digitsOk_cons.1 h).1
    simp only [List.map_cons, digitsVal_cons, List.length_cons, pow_succ, h3]; omega

/-- The 9's complement of a vector of whole groups (R182). -/
theorem nines_spec {X : Bits} {n : Nat} (hl : X.length = 4 * n) (h : validDigits X = true) :
    (nines X).length = 4 * n ∧ validDigits (nines X) = true ∧ decval (nines X) + decval X + 1 = 10 ^ n := by
  obtain ⟨h1, h2⟩ := nine_digits (validDigits_iff.1 h)
  have hg := ngroups_of_length hl
  refine ⟨by simp [nines, hg], validDigits_ofGroups.2 h1, ?_⟩
  rw [nines, decval_ofGroups, decval, h2, length_groups, hg]

/-- The number 1 padded to whole groups (R183). -/
theorem one_spec (n : Nat) (hn : 1 ≤ n) :
    validDigits (resized (nib 1) (4 * n)) = true ∧ decval (resized (nib 1) (4 * n)) = 1 := by
  have h1 : ngroups (nib 1) ≤ n := by simpa [ngroups_eq] using hn
  exact ⟨validDigits_resized_grow h1 (by decide), by rw [decval_resized_grow h1]; decide⟩

/-- Cutting the top group off a vector removes its digit from the value. -/
theorem cut_spec {U : Bits} {n v : Nat} (h : validDigits U = true)
    (hv : decval U = v + 10 ^ n) (hv' : v < 10 ^ n) :
    (resized U (4 * n)).length = 4 * n ∧ validDigits (resized U (4 * n)) = true ∧ decval (resized U (4 * n)) = v := by
  refine ⟨length_resized U (4 * n), validDigits_resized h, ?_⟩
  rw [decval_resized h, hv, Nat.add_mod_right, Nat.mod_eq_of_lt hv']

/-- The result of the subtraction: exact magnitude, sign, digits and width (R180, R189). -/
structure SubResult (A B : Bits) (M : Bits) (sign : Bool) : Prop where
  /-- The magnitude is the distance of the operands (R180). -/
  magnitude : decval M = (decval A - decval B) + (decval B - decval A)
  /-- The sign is that of the difference (R180, R186). -/
  sign_eq : sign = decide (decval A < decval B)
  /-- The digits are valid (R190). -/
  valid : validDigits M = true
  /-- The width is the common width, but 4 for two zeros (R189). -/
  width : M.length = if decval A = 0 ∧ decval B = 0 then 4 else cw A B

/-- Steps 3 to 6 for operands in order (R182 to R185, R189): with `l ≥ s` as padded vectors of `n` groups. -/
theorem complement_steps {L S : Bits} {n : Nat} (hn : 1 ≤ n) (hL : L.length = 4 * n) (hS : S.length = 4 * n)
    (hLv : validDigits L = true) (hSv : validDigits S = true) (hle : decval S ≤ decval L)
    {cmp : Cmp} (hcmp : cmp = .equal ↔ decval L = decval S) :
    (fits (4 * n + 4) = true → ∃ T U M, add (nines S) (resized (nib 1) (4 * n)) = .ok T ∧
      fits T.length = true ∧ add (resized L T.length) T = .ok U ∧ endAround cmp (4 * n) T.length U = .ok M ∧
      decval M = decval L - decval S ∧ validDigits M = true ∧
      M.length = if decval L = 0 ∧ decval S = 0 then 4 else 4 * n) ∧
    (fits (4 * n) = true → fits (4 * n + 4) = false →
      add (nines S) (resized (nib 1) (4 * n)) = .error .allocationFailure ∨
      ∃ T, add (nines S) (resized (nib 1) (4 * n)) = .ok T ∧ fits T.length = true ∧
        add (resized L T.length) T = .error .allocationFailure) := by
  obtain ⟨hNl, hNv, hNd⟩ := nines_spec hS hSv
  obtain ⟨h1v, h1d⟩ := one_spec n hn
  have hLlt : decval L < 10 ^ n := by simpa [ngroups_of_length hL] using decval_lt hLv
  have h4n : 4 * n / 4 = n := by omega
  by_cases hs : decval S = 0
  · -- the 10's complement of zero grows; no end-around carry follows
    have hge : 10 ^ n ≤ decval (nines S) + decval (resized (nib 1) (4 * n)) := by omega
    refine ⟨fun hf => ?_, fun hf hf' => .inl ?_⟩
    · have hfn : fits (4 * n) = true := fits_mono hf (by omega)
      obtain ⟨T, hT, hTl, hTv, hTd⟩ := (((add_spec (A := nines S) (B := resized (nib 1) (4 * n)) (by rw [hNl]; simp)
        (by omega) hNv h1v (by rw [hNl]; exact hfn)).2 (by rw [hNl, h4n]; exact hge)).1 (by rw [hNl]; exact hf))
      rw [hNl] at hTl
      have hT4 : T.length = 4 * (n + 1) := by omega
      have hg1 : ngroups L ≤ n + 1 := by rw [ngroups_of_length hL]; omega
      have hL'd : decval (resized L (4 * (n + 1))) = decval L := decval_resized_grow hg1
      have hL'v := validDigits_resized_grow (n := n + 1) hg1 hLv
      have hpow : (10 : Nat) ^ (n + 1) = 10 * 10 ^ n := by rw [pow_succ]; ring
      obtain ⟨U, hU, hUl, hUv, hUd⟩ := (add_spec (A := resized L (4 * (n + 1))) (B := T) (by rw [hT4]; simp)
        (by simp) hL'v hTv (by simpa using fits_mono hf (by omega))).1
        (by rw [length_resized, hL'd, show 4 * (n + 1) / 4 = n + 1 by omega, hpow]; omega)
      have hUd' : decval U = decval L + 10 ^ n := by omega
      have hUl' : U.length = 4 * n + 4 := by rw [hUl, length_resized]; omega
      by_cases hl : decval L = 0
      · refine ⟨T, U, zeros 4, hT, by rw [hTl]; exact hf, by rw [hT4]; exact hU, ?_, ?_, by decide, by simp [hl, hs]⟩
        · rw [endAround, if_neg (by omega), if_pos (hcmp.2 (by omega)), create_ok (fits_76 (by omega))]
        · have : decval (zeros 4) = 0 := by decide
          omega
      · obtain ⟨c1, c2, c3⟩ := cut_spec hUv hUd' hLlt
        refine ⟨T, U, resized U (4 * n), hT, by rw [hTl]; exact hf, by rw [hT4]; exact hU, ?_, by omega, c2,
          by simp [hl]⟩
        rw [endAround, if_neg (by omega), if_neg (fun h => by have := hcmp.1 h; omega), resize_ok hfn]
    · exact ((add_spec (A := nines S) (B := resized (nib 1) (4 * n)) (by rw [hNl]; simp) (by omega) hNv h1v
        (by rw [hNl]; exact hf)).2 (by rw [hNl, h4n]; exact hge)).2 (by rw [hNl]; exact hf')
  · -- the 10's complement fits its width; the end-around carry occurs
    have hfn' : fits (4 * n) = true → ∃ T, add (nines S) (resized (nib 1) (4 * n)) = .ok T ∧ T.length = 4 * n ∧
        validDigits T = true ∧ decval T = decval (nines S) + 1 := fun hf => by
      obtain ⟨T, hT, hTl, hTv, hTd⟩ := (add_spec (A := nines S) (B := resized (nib 1) (4 * n)) (by rw [hNl]; simp)
        (by omega) hNv h1v (by rw [hNl]; exact hf)).1 (by rw [hNl, h4n]; omega)
      exact ⟨T, hT, by rw [hTl, hNl], hTv, by rw [hTd, h1d]⟩
    have hU : ∀ T : Bits, T.length = 4 * n → decval T = decval (nines S) + 1 →
        10 ^ ((resized L T.length).length / 4) ≤ decval (resized L T.length) + decval T := fun T hTl hTd => by
      rw [length_resized, hTl, h4n, ← hL, resized_self]; omega
    refine ⟨fun hf => ?_, fun hf hf' => .inr ?_⟩
    · have hfn : fits (4 * n) = true := fits_mono hf (by omega)
      obtain ⟨T, hT, hTl, hTv, hTd⟩ := hfn' hfn
      have hLT : resized L T.length = L := by rw [hTl, ← hL, resized_self]
      have hge := hU T hTl hTd
      rw [hLT, hL, h4n] at hge
      obtain ⟨U, hU, hUl, hUv, hUd⟩ := ((add_spec (A := L) (B := T) (by omega) (by omega) hLv hTv
        (by rw [hL]; exact hfn)).2 (by rw [hL, h4n]; exact hge)).1 (by rw [hL]; exact hf)
      have hUd' : decval U = (decval L - decval S) + 10 ^ n := by omega
      obtain ⟨c1, c2, c3⟩ := cut_spec hUv hUd' (by omega)
      refine ⟨T, U, resized U (4 * n), hT, by rw [hTl]; exact hfn, by rw [hLT]; exact hU, ?_, c3, c2, by simp [hs]⟩
      rw [endAround, if_pos (by omega), hTl, resize_ok hfn]
    · obtain ⟨T, hT, hTl, hTv, hTd⟩ := hfn' hf
      have hLT : resized L T.length = L := by rw [hTl, ← hL, resized_self]
      have hge := hU T hTl hTd
      rw [hLT, hL, h4n] at hge
      refine ⟨T, hT, by rw [hTl]; exact hf, ?_⟩
      rw [hLT]
      exact ((add_spec (A := L) (B := T) (by omega) (by omega) hLv hTv (by rw [hL]; exact hf)).2
        (by rw [hL, h4n]; exact hge)).2 (by rw [hL]; exact hf')

/-- Everything the subtractor can do on operands with valid digits (R180, R187, R189, R283): the exact signed
difference, or AllocationFailure exactly where `W + 4` bits cannot be made. -/
theorem subtractMagnitude_spec {A B : Bits} (hA : validDigits A = true) (hB : validDigits B = true) :
    (fits (cw A B + 4) = true → ∃ M sign, subtractMagnitude A B = .ok (M, sign) ∧ SubResult A B M sign) ∧
    (fits (cw A B + 4) = false → subtractMagnitude A B = .error .allocationFailure) := by
  obtain ⟨h4, hge4, -, -, hgA, hgB⟩ := cw_spec A B
  obtain ⟨n, hn⟩ : ∃ n, cw A B = 4 * n := ⟨cw A B / 4, by omega⟩
  have hgA' : ngroups A ≤ n := by omega
  have hgB' : ngroups B ≤ n := by omega
  have hcmp := compareMagnitude_decval hA hB
  -- the operands in order
  set c := compareMagnitude A B with hc
  obtain ⟨lo, sm, hlo, hsm, hgl, hgs, hlv, hsv, hle, heq, hmag, hzero⟩ : ∃ lo sm : Bits,
      (if c = .less then B else A) = lo ∧ (if c = .less then A else B) = sm ∧ ngroups lo ≤ n ∧ ngroups sm ≤ n ∧
      validDigits lo = true ∧ validDigits sm = true ∧ decval sm ≤ decval lo ∧
      (c = .equal ↔ decval lo = decval sm) ∧
      decval lo - decval sm = (decval A - decval B) + (decval B - decval A) ∧
      ((decval lo = 0 ∧ decval sm = 0) ↔ (decval A = 0 ∧ decval B = 0)) := by
    by_cases hless : c = .less
    · have hlt := cmpNat_less.1 (hcmp ▸ hless)
      refine ⟨B, A, by simp [hless], by simp [hless], hgB', hgA', hB, hA, by omega, ?_, by omega, by omega⟩
      rw [hless]; simp; omega
    · have hge : ¬ decval A < decval B := fun h => hless (hcmp ▸ cmpNat_less.2 h)
      exact ⟨A, B, by simp [hless], by simp [hless], hgA', hgB', hA, hB, by omega, by rw [hcmp, cmpNat_equal],
        by omega, Iff.rfl⟩
  have hlod := decval_resized_grow (n := n) hgl
  have hsmd := decval_resized_grow (n := n) hgs
  obtain ⟨hok, herr⟩ := complement_steps (L := resized lo (4 * n)) (S := resized sm (4 * n)) (n := n) (by omega)
    (length_resized _ _) (length_resized _ _) (validDigits_resized_grow hgl hlv) (validDigits_resized_grow hgs hsv)
    (by rw [hlod, hsmd]; exact hle) (cmp := c) (by rw [hlod, hsmd]; exact heq)
  rw [hlod, hsmd] at hok
  have hunf : subtractMagnitude A B = (do
      let L ← resize lo (4 * n)
      let S ← resize sm (4 * n)
      let one ← resize (nib 1) (4 * n)
      let T ← add (nines S) one
      let L' ← resize L T.length
      let U ← add L' T
      let M ← endAround c (4 * n) T.length U
      return (M, if isZero M then false else decide (c = .less))) := by
    simp only [subtractMagnitude, ← hc, hlo, hsm, hn]
  constructor
  · intro hf
    rw [hn] at hf
    have hfn : fits (4 * n) = true := fits_mono hf (by omega)
    obtain ⟨T, U, M, hT, hfT, hU, hM, hMd, hMv, hMl⟩ := hok hf
    refine ⟨M, if isZero M then false else decide (c = .less), ?_, ⟨?_, ?_, hMv, ?_⟩⟩
    · rw [hunf]
      simp only [resize_ok hfn, resize_ok hfT, bind, Except.bind, hT, hU, hM]
      rfl
    · rw [hMd, hmag]
    · rw [isZero_eq, hMd, hmag, hcmp]
      by_cases hlt : decval A < decval B
      · simp [cmpNat_less.2 hlt, hlt]; omega
      · have : cmpNat (decval A) (decval B) ≠ .less := fun h => hlt (cmpNat_less.1 h)
        simp [this, hlt]
    · rw [hMl, hn]; simp only [hzero]
  · intro hf
    rw [hn] at hf
    rw [hunf]
    rcases hfn : fits (4 * n) with _ | _
    · simp only [resize_error hfn]; rfl
    · rcases herr hfn hf with h | ⟨T, hT, hfT, hU⟩
      · simp only [resize_ok hfn, bind, Except.bind, h]
      · simp only [resize_ok hfn, resize_ok hfT, bind, Except.bind, hT, hU]

end Sys2Proof.Machine
end

