-- ==== Sys2Proof/Laws/Signed.lean ====
section
/-! SUPPORT. What the signed operations compute: canonical values of the exact sum, difference and product, and the order
of the represented numbers. -/

namespace Sys2Proof.Machine

/-- Whether the vectors an addition of two values makes are within capacity (R283, rows `ADDS`, `SUBS`): the common
width and, for a sum that carries out or for different signs, one group more. -/
def sumFits (a b : BcdNumber) : Prop :=
  if effneg a = effneg b then
    fits (cw a.bits b.bits) = true ∧
      (10 ^ (cw a.bits b.bits / 4) ≤ decval a.bits + decval b.bits → fits (cw a.bits b.bits + 4) = true)
  else fits (cw a.bits b.bits + 4) = true

/-- The capacity condition of R283 is the one the additions test. -/
theorem sumWithin_iff (a b : BcdNumber) : sumWithin a b ↔ sumFits a b := by
  simp only [sumWithin, sumFits, withinMaxBits_eq]

/-- The signed value in terms of the effective sign. -/
theorem value_eq (x : BcdNumber) : value x = if effneg x = true then -(decval x.bits : Int) else decval x.bits := rfl

/-- The signed value of a vector with a sign that is to be trimmed. -/
theorem value_mk (X : Bits) (s : Bool) : value ⟨X, s⟩ = if s then -(decval X : Int) else decval X := by
  rw [value_eq, effneg]
  by_cases h : isZero X = true
  · have := isZero_iff_decval.1 h
    simp [h, this]
  · simp [show isZero X = false by simpa using h]

/-- Trimming a vector of whole groups that could be made. -/
theorem trim_made {X : Bits} {s : Bool} (h4 : X.length % 4 = 0) (hf : fits X.length = true)
    (hv : validDigits X = true) :
    ∃ y, trim ⟨X, s⟩ = .ok y ∧ canonical y = true ∧ value y = if s then -(decval X : Int) else decval X := by
  have hf' : fits (roundUp4 X.length) = true := (roundUp4_of_mod h4).symm ▸ hf
  obtain ⟨y, hy⟩ := trim_total (x := ⟨X, s⟩) hf'
  obtain ⟨h1, h2⟩ := trim_canonical (x := ⟨X, s⟩) hv hy
  exact ⟨y, hy, h1, by rw [h2, value_mk]⟩

/-- The padded addition of two magnitudes (R230, R283, row `ADDS` with equal signs). -/
theorem addMagnitudes_spec {A B : Bits} {n : Nat} (hA : validDigits A = true) (hB : validDigits B = true)
    (hn : cw A B = 4 * n) (hf : fits (4 * n) = true) :
    (decval A + decval B < 10 ^ n ∨ fits (4 * n + 4) = true → ∃ R,
      add (resized A (4 * n)) (resized B (4 * n)) = .ok R ∧ R.length % 4 = 0 ∧ fits R.length = true ∧
        validDigits R = true ∧ decval R = decval A + decval B) ∧
    (10 ^ n ≤ decval A + decval B → fits (4 * n + 4) = false →
      add (resized A (4 * n)) (resized B (4 * n)) = .error .allocationFailure) := by
  obtain ⟨-, -, -, -, hgA, hgB⟩ := cw_spec A B
  rw [hn] at hgA hgB
  have hgA' : ngroups A ≤ n := Nat.le_of_mul_le_mul_left hgA (by omega)
  have hgB' : ngroups B ≤ n := Nat.le_of_mul_le_mul_left hgB (by omega)
  have hA' := decval_resized_grow hgA'
  have hB' := decval_resized_grow hgB'
  obtain ⟨k1, k2⟩ := add_spec (A := resized A (4 * n)) (B := resized B (4 * n)) (by simp) (by simp)
    (validDigits_resized hA) (validDigits_resized hB) (by simpa using hf)
  rw [length_resized, hA', hB', show 4 * n / 4 = n by omega] at k1 k2
  refine ⟨fun h => ?_, fun hge hf' => (k2 hge).2 hf'⟩
  rcases Nat.lt_or_ge (decval A + decval B) (10 ^ n) with hlt | hge
  · obtain ⟨R, hR, hl, hv, hd⟩ := k1 hlt
    exact ⟨R, hR, by omega, by rw [hl]; exact hf, hv, hd⟩
  · have hf' : fits (4 * n + 4) = true := h.resolve_left (by omega)
    obtain ⟨R, hR, hl, hv, hd⟩ := (k2 hge).1 hf'
    exact ⟨R, hR, by omega, by rw [hl]; exact hf', hv, hd⟩

/-- The sum of two signed values of one sign. -/
theorem value_add_same {a b : BcdNumber} (hs : effneg a = effneg b) : value a + value b =
    if effneg a = true then -((decval a.bits + decval b.bits : Nat) : Int) else (decval a.bits + decval b.bits : Nat) := by
  rw [value_eq, value_eq, ← hs]
  split <;> push_cast <;> ring

/-- The sum of two signed values of different signs, from the distance of their magnitudes (R232). -/
theorem value_add_diff {a b : BcdNumber} (hs : effneg a ≠ effneg b) {m : Nat} {t : Bool}
    (hm : m = (decval a.bits - decval b.bits) + (decval b.bits - decval a.bits))
    (ht : t = decide (decval a.bits < decval b.bits)) :
    (if (effneg a ^^ t) = true then -(m : Int) else m) = value a + value b := by
  rw [value_eq, value_eq]
  rcases Nat.lt_or_ge (decval a.bits) (decval b.bits) with h | h
  · have ht' : t = true := by simpa [ht] using h
    cases ha : effneg a <;> cases hb : effneg b <;> simp_all <;> omega
  · have ht' : t = false := by simpa [ht] using h
    cases ha : effneg a <;> cases hb : effneg b <;> simp_all <;> ring

/-- Everything `addSigned` can do on values with valid digits (R230 to R234, R283). -/
theorem addSigned_spec {a b : BcdNumber} (ha : validDigits a.bits = true) (hb : validDigits b.bits = true) :
    (sumFits a b → ∃ y, addSigned a b = .ok y ∧ canonical y = true ∧ value y = value a + value b) ∧
    (¬ sumFits a b → addSigned a b = .error .allocationFailure) := by
  obtain ⟨h4, -⟩ := cw_spec a.bits b.bits
  by_cases hs : effneg a = effneg b
  · obtain ⟨n, hn⟩ : ∃ n, cw a.bits b.bits = 4 * n := ⟨cw a.bits b.bits / 4, by omega⟩
    have h4n : 4 * n / 4 = n := by omega
    simp only [sumFits, addSigned, if_pos hs, hn, h4n]
    refine ⟨fun ⟨hf, hc⟩ => ?_, fun hno => ?_⟩
    · obtain ⟨R, hR, hR4, hRf, hRv, hRd⟩ := (addMagnitudes_spec ha hb hn hf).1
        ((Nat.lt_or_ge (decval a.bits + decval b.bits) (10 ^ n)).imp id hc)
      obtain ⟨y, hy, h1, h2⟩ := trim_made (s := effneg a) hR4 hRf hRv
      refine ⟨y, ?_, h1, by rw [h2, hRd, value_add_same hs]⟩
      simp only [resize_ok hf, bind, Except.bind, hR, hy]
    · rcases hf : fits (4 * n) with _ | _
      · simp only [resize_error hf, bind, Except.bind]
      · have hno' : 10 ^ n ≤ decval a.bits + decval b.bits ∧ fits (4 * n + 4) = false := by
          by_contra hcon
          refine hno ⟨hf, fun hge => ?_⟩
          by_contra hf'
          exact hcon ⟨hge, by simpa using hf'⟩
        simp only [resize_ok hf, bind, Except.bind, (addMagnitudes_spec ha hb hn hf).2 hno'.1 hno'.2]
  · simp only [sumFits, addSigned, if_neg hs]
    obtain ⟨hok, herr⟩ := subtractMagnitude_spec ha hb
    refine ⟨fun hf => ?_, fun hf => ?_⟩
    · obtain ⟨M, t, hM, hr⟩ := hok hf
      have hMl : M.length % 4 = 0 ∧ fits M.length = true := by
        rw [hr.width]; split
        · exact ⟨rfl, fits_76 (by omega)⟩
        · exact ⟨h4, fits_mono hf (by omega)⟩
      obtain ⟨y, hy, h1, h2⟩ := trim_made (s := effneg a ^^ t) hMl.1 hMl.2 hr.valid
      refine ⟨y, by simp only [hM, bind, Except.bind, hy], h1, ?_⟩
      rw [h2, value_add_diff hs hr.magnitude hr.sign_eq]
    · simp only [herr (by simpa using hf), bind, Except.bind]

/-- Everything `subtractSigned` can do on values with valid digits (R235, R283). -/
theorem subtractSigned_spec {a b : BcdNumber} (ha : validDigits a.bits = true) (hb : validDigits b.bits = true) :
    (sumFits a (negate b) → ∃ y, subtractSigned a b = .ok y ∧ canonical y = true ∧ value y = value a - value b) ∧
    (¬ sumFits a (negate b) → subtractSigned a b = .error .allocationFailure) := by
  obtain ⟨h1, h2, -⟩ := negate_spec b
  obtain ⟨hok, herr⟩ := addSigned_spec ha (b := negate b) (by rw [h1]; exact hb)
  exact ⟨fun h => by
    obtain ⟨y, hy, hc, hv⟩ := hok h
    exact ⟨y, hy, hc, by rw [hv, h2]; ring⟩, herr⟩

/-- Everything `multiplySigned` can do on values with valid digits (R237 to R240, R283). -/
theorem multiplySigned_spec {a b : BcdNumber} (ha : validDigits a.bits = true) (hb : validDigits b.bits = true) :
    ((value a = 0 ∨ value b = 0) → multiplySigned a b = .ok BcdNumber.zero4) ∧
    (value a ≠ 0 → value b ≠ 0 →
      (fits (roundUp4 a.bits.length + roundUp4 b.bits.length) = true →
        ∃ y, multiplySigned a b = .ok y ∧ canonical y = true ∧ value y = value a * value b) ∧
      (fits (roundUp4 a.bits.length + roundUp4 b.bits.length) = false →
        multiplySigned a b = .error .allocationFailure)) := by
  have hz : ∀ x : BcdNumber, isZero x.bits = true ↔ value x = 0 := fun x => by
    rw [isZero_iff_decval, value_eq_zero]
  refine ⟨fun h => ?_, fun h1 h2 => ?_⟩
  · have : (isZero a.bits || isZero b.bits) = true := by
      rw [Bool.or_eq_true, hz, hz]; exact h
    rw [multiplySigned, if_pos this]
  · have hno : ¬ (isZero a.bits || isZero b.bits) = true := by
      rw [Bool.or_eq_true, hz, hz]; tauto
    obtain ⟨hok, herr⟩ := multiplyMagnitude_spec ha hb
    refine ⟨fun hf => ?_, fun hf => ?_⟩
    · obtain ⟨P, hP, hPl, hPv, hPd⟩ := hok hf
      obtain ⟨y, hy, hc, hv⟩ := trim_made (s := effneg a ^^ effneg b) (X := P)
        (by rw [hPl]; have := roundUp4_mod a.bits.length; have := roundUp4_mod b.bits.length; omega)
        (by rw [hPl]; exact hf) hPv
      refine ⟨y, by rw [multiplySigned, if_neg hno]; simp only [hP, bind, Except.bind, hy], hc, ?_⟩
      rw [hv, hPd, value_eq, value_eq]
      cases effneg a <;> cases effneg b <;> simp
    · rw [multiplySigned, if_neg hno]; simp only [herr hf, bind, Except.bind]

/-- The comparison result of two integers. -/
def cmpInt (a b : Int) : Cmp := if a < b then .less else if a = b then .equal else .greater

/-- `compareSigned` is the order of the represented numbers (R242). -/
theorem compareSigned_spec {a b : BcdNumber} (ha : validDigits a.bits = true) (hb : validDigits b.bits = true) :
    compareSigned a b = cmpInt (value a) (value b) := by
  have hnz : ∀ x : BcdNumber, effneg x = true → decval x.bits ≠ 0 := fun x h h0 => by
    simp [effneg, isZero_eq, h0] at h
  have hna := hnz a
  have hnb := hnz b
  unfold compareSigned
  rw [compareMagnitude_decval ha hb, value_eq, value_eq]
  cases hsa : effneg a <;> cases hsb : effneg b <;> simp only [hsa, hsb, cmpInt, cmpNat] at * <;> simp at * <;>
    split_ifs <;> first | rfl | omega

end Sys2Proof.Machine
end

