-- ==== Sys2Proof/Laws/Exec.lean ====
section
/-! SUPPORT. What `exec` can do, said once: every command but `REL` ends through `commitReg` or `commitDout` with a result
that depends on `DIN` and its source registers alone. -/

namespace Sys2Proof.Machine

/-- The result a command hands to its destination register. -/
def regResult (i : Instr) (s : State) : Except Err BcdNumber :=
  match i with
  | .vcreate _ => do
    let X ← create (dinNat s)
    return ⟨X, false⟩
  | .vset rd f => do
    let x ← src s rd
    return ⟨setBit x.bits (dinNat s) f, x.neg⟩
  | .vresize _ ra f => do
    let x ← src s ra
    let X ← resize x.bits (dinNat s)
    return ⟨X, if f then x.neg else false⟩
  | .vcopy _ ra => do
    let x ← src s ra
    return ⟨copyBits x.bits, x.neg⟩
  | .fromint _ => fromInteger (dinInt s)
  | .trim _ ra => do
    let x ← src s ra
    trim x
  | .neg _ ra => do
    let x ← src s ra
    return negate x
  | .addm _ ra rb => do
    let (x, y) ← src2 s ra rb
    if x.bits.length ≠ y.bits.length ∨ x.bits.length % 4 ≠ 0 then throw .sizeMismatch
    checkDigits x y
    let R ← add x.bits y.bits
    return ⟨R, false⟩
  | .subm _ ra rb => do
    let (x, y) ← src2 s ra rb
    checkDigits x y
    let (M, sign) ← subtractMagnitude x.bits y.bits
    return ⟨M, sign⟩
  | .mulm _ ra rb => do
    let (x, y) ← src2 s ra rb
    checkDigits x y
    let P ← multiplyMagnitude x.bits y.bits
    return ⟨P, false⟩
  | .adds _ ra rb => do
    let (x, y) ← src2 s ra rb
    checkDigits x y
    addSigned x y
  | .subs _ ra rb => do
    let (x, y) ← src2 s ra rb
    checkDigits x y
    subtractSigned x y
  | .muls _ ra rb => do
    let (x, y) ← src2 s ra rb
    checkDigits x y
    multiplySigned x y
  | .vget _ | .vlen _ | .vsign _ | .rel _ | .toint _ | .cmpm _ _ | .cmps _ _ => .error .illegalCommand

/-- The datum a command hands to `DOUT`. -/
def doutResult (i : Instr) (s : State) : Except Err Word64 :=
  match i with
  | .vget ra => do
    let x ← src s ra
    return bitDatum (getBit x.bits (dinNat s))
  | .vlen ra => do
    let x ← src s ra
    return lenDatum x.bits.length
  | .vsign ra => do
    let x ← src s ra
    return bitDatum x.neg
  | .toint ra => do
    let x ← src s ra
    let v ← toInteger x
    return intDatum v
  | .cmpm ra rb => do
    let c ← compareOperands (s.read ra) (s.read rb)
    return cmpDatum c
  | .cmps ra rb => do
    let (x, y) ← src2 s ra rb
    return cmpDatum (compareSigned x y)
  | .vcreate _ | .vset _ _ | .vresize _ _ _ | .vcopy _ _ | .rel _ | .fromint _ | .trim _ _ | .neg _ _ => .error .illegalCommand
  | .addm _ _ _ | .subm _ _ _ | .mulm _ _ _ | .adds _ _ _ | .subs _ _ _ | .muls _ _ _ => .error .illegalCommand

/-- The three shapes of a command: `REL`, a command with a destination register, a command that returns a datum. -/
theorem exec_shape (i : Instr) : (∃ rd, i = .rel rd) ∨
    (∃ rd, i.dest = some rd ∧ ∀ s, exec i s = commitReg rd (regResult i s) s) ∨
    (i.dest = none ∧ ∀ s, exec i s = commitDout (doutResult i s) s) := by
  cases i
  case rel rd => exact .inl ⟨rd, rfl⟩
  all_goals first | exact .inr (.inl ⟨_, rfl, fun _ => rfl⟩) | exact .inr (.inr ⟨rfl, fun _ => rfl⟩)

/-- A command's result depends on `DIN` and its sources alone (R48). -/
theorem results_congr {i : Instr} {s s' : State} (hd : s'.din = s.din) (hr : ∀ r ∈ i.sources, s'.read r = s.read r) :
    regResult i s' = regResult i s ∧ doutResult i s' = doutResult i s := by
  cases i <;> simp [Instr.sources] at hr <;> simp [regResult, doutResult, dinNat, dinInt, hd, src, src2, hr]

/-- Everything the two-operand arithmetic does before it computes (R111, R244, R285): absent operands, then illegal
digits, then the computation. -/
theorem arithmetic_cases {α : Type} (s : State) (ra rb : RegNum) (f : BcdNumber → BcdNumber → Except Err α) :
    ((s.read ra = none ∨ s.read rb = none) ∧
      (do let (x, y) ← src2 s ra rb; checkDigits x y; f x y) = .error .absentOperand) ∨
    ∃ x y, s.read ra = some x ∧ s.read rb = some y ∧
      (((validDigits x.bits = false ∨ validDigits y.bits = false) ∧
        (do let (x, y) ← src2 s ra rb; checkDigits x y; f x y) = .error .invalidDigit) ∨
      (validDigits x.bits = true ∧ validDigits y.bits = true ∧
        (do let (x, y) ← src2 s ra rb; checkDigits x y; f x y) = f x y)) := by
  rcases src2_cases (s := s) (ra := ra) (rb := rb) with ⟨x, y, hx, hy, he⟩ | ⟨h, he⟩
  · right; refine ⟨x, y, hx, hy, ?_⟩
    rcases checkDigits_cases (x := x) (y := y) with ⟨h1, h2, h3⟩ | ⟨h1, h3⟩
    · right; refine ⟨h1, h2, ?_⟩; simp only [he, h3, bind, Except.bind]
    · left; refine ⟨h1, ?_⟩; simp only [he, h3, bind, Except.bind]
  · left; refine ⟨h, ?_⟩; simp only [he, bind, Except.bind]

end Sys2Proof.Machine
end

