-- ==== Sys2Proof/Laws/PerInstr.lean ====
section
/-! SUPPORT. Facts about every command as syntax, one lemma per constructor of Instr. -/

namespace Sys2Proof.Laws

/-- The position of a command's row in the command table (R80). -/
def rowNumber : Instr → Nat
  | .vcreate _ => 0
  | .vget _ => 1
  | .vset _ _ => 2
  | .vresize _ _ _ => 3
  | .vcopy _ _ => 4
  | .vlen _ => 5
  | .vsign _ => 6
  | .rel _ => 7
  | .fromint _ => 8
  | .toint _ => 9
  | .trim _ _ => 10
  | .neg _ _ => 11
  | .addm _ _ _ => 12
  | .subm _ _ _ => 13
  | .mulm _ _ _ => 14
  | .cmpm _ _ => 15
  | .adds _ _ _ => 16
  | .subs _ _ _ => 17
  | .muls _ _ _ => 18
  | .cmps _ _ => 19

/-- The word of a command satisfies `w & mask == match` of the command's own row (R80, R83). -/
def OwnRow.Statement (i : Instr) : Prop := (opTable[rowNumber i]?).any (·.selects (encode i)) = true

theorem OwnRow.vcreate : ∀ rd, OwnRow.Statement (.vcreate rd) := by unfold OwnRow.Statement; decide +kernel
theorem OwnRow.vget : ∀ ra, OwnRow.Statement (.vget ra) := by unfold OwnRow.Statement; decide +kernel
theorem OwnRow.vset : ∀ rd f, OwnRow.Statement (.vset rd f) := by unfold OwnRow.Statement; decide +kernel
theorem OwnRow.vresize : ∀ rd ra f, OwnRow.Statement (.vresize rd ra f) := by unfold OwnRow.Statement; decide +kernel
theorem OwnRow.vcopy : ∀ rd ra, OwnRow.Statement (.vcopy rd ra) := by unfold OwnRow.Statement; decide +kernel
theorem OwnRow.vlen : ∀ ra, OwnRow.Statement (.vlen ra) := by unfold OwnRow.Statement; decide +kernel
theorem OwnRow.vsign : ∀ ra, OwnRow.Statement (.vsign ra) := by unfold OwnRow.Statement; decide +kernel
theorem OwnRow.rel : ∀ rd, OwnRow.Statement (.rel rd) := by unfold OwnRow.Statement; decide +kernel
theorem OwnRow.fromint : ∀ rd, OwnRow.Statement (.fromint rd) := by unfold OwnRow.Statement; decide +kernel
theorem OwnRow.toint : ∀ ra, OwnRow.Statement (.toint ra) := by unfold OwnRow.Statement; decide +kernel
theorem OwnRow.trim : ∀ rd ra, OwnRow.Statement (.trim rd ra) := by unfold OwnRow.Statement; decide +kernel
theorem OwnRow.neg : ∀ rd ra, OwnRow.Statement (.neg rd ra) := by unfold OwnRow.Statement; decide +kernel
theorem OwnRow.addm : ∀ rd ra rb, OwnRow.Statement (.addm rd ra rb) := by unfold OwnRow.Statement; decide +kernel
theorem OwnRow.subm : ∀ rd ra rb, OwnRow.Statement (.subm rd ra rb) := by unfold OwnRow.Statement; decide +kernel
theorem OwnRow.mulm : ∀ rd ra rb, OwnRow.Statement (.mulm rd ra rb) := by unfold OwnRow.Statement; decide +kernel
theorem OwnRow.cmpm : ∀ ra rb, OwnRow.Statement (.cmpm ra rb) := by unfold OwnRow.Statement; decide +kernel
theorem OwnRow.adds : ∀ rd ra rb, OwnRow.Statement (.adds rd ra rb) := by unfold OwnRow.Statement; decide +kernel
theorem OwnRow.subs : ∀ rd ra rb, OwnRow.Statement (.subs rd ra rb) := by unfold OwnRow.Statement; decide +kernel
theorem OwnRow.muls : ∀ rd ra rb, OwnRow.Statement (.muls rd ra rb) := by unfold OwnRow.Statement; decide +kernel
theorem OwnRow.cmps : ∀ ra rb, OwnRow.Statement (.cmps ra rb) := by unfold OwnRow.Statement; decide +kernel

end Sys2Proof.Laws
end

