-- ==== Sys2Proof/Tests/Slice0.lean ====
section
/-! SUPPORT. Tests: ill-formed terms refused, decoding of words written out from `spec/30_encoding.md`, one step per
command on the vectors of `spec/95_test_vectors.md` (the part is named at each test), and witnesses that the hypotheses of
the obligations can be met. -/

set_option Elab.async false

namespace Sys2Proof.Tests

open Sys2Proof.Machine

/-- A vector from its rendering (R52): most significant group first, spaces between groups. -/
def bitsOf (s : String) : Bits := ((s.toList.filter (· ≠ ' ')).map (· == '1')).reverse

/-- A non-negative value. -/
def pos (s : String) : BcdNumber := ⟨bitsOf s, false⟩

/-- A value with the sign flag set. -/
def neg (s : String) : BcdNumber := ⟨bitsOf s, true⟩

/-- The reset state with some registers written and `DOUT` 0xAA. -/
def st (l : List (RegNum × BcdNumber)) : State :=
  l.foldl (fun s p => s.write p.1 (some p.2)) { State.reset with dout := 0xAA }

/-- The next state of an outcome. -/
def nextOf (o : Host.Outcome State Fault Refusal) : Option State :=
  match o with
  | .next t => some t
  | .fault _ => none
  | .refused _ => none

/-- `STATUS`, `DOUT` and one register after one command presented to a state. -/
def after (s : State) (cmd : CmdWord) (din : Word64) (r : RegNum) : Option (BitVec 3 × Word64 × Option BcdNumber) :=
  (nextOf (step { s with pending := [.command cmd din] })).map fun t => (t.status, t.dout, t.read r)

/-! ### Well-formedness: ill-formed terms are refused -/

/-- Each command outside profile PUBLIC is refused by it (R12). -/
theorem test_wellformed_public_refuses :
    ([.vcreate 0, .vset 0 true, .vresize 1 0 false, .vcopy 1 0, .trim 1 0, .addm 2 0 1, .subm 2 0 1, .mulm 2 0 1,
      .cmpm 0 1] : List Instr).all (fun i => !i.inProfile .pub) = true := by decide

/-- Each command is accepted by profile FULL, which is implemented (R12). -/
theorem test_wellformed_full : Instr.wellFormed (.vcreate 0) = true ∧ Instr.wellFormed (.cmps 7 7) = true := by decide

/-- A length that is not a multiple of 4, an empty vector and a group above 9 are not well-formed values (R28). -/
theorem test_wellformed_value : wellFormed (pos "010101") = false ∧ wellFormed (pos "") = false ∧
    wellFormed (pos "0001 1010") = false ∧ wellFormed (pos "0000 1001") = true := by decide

/-- A leading zero group and a negative zero are not canonical (R29). -/
theorem test_canonical_value : canonical (pos "0000 1001") = false ∧ canonical (neg "0000") = false ∧
    canonical (pos "0000") = true ∧ canonical (neg "1001") = true := by decide

/-- The words that part 2.11 calls illegal, refused by name. -/
theorem test_decode_illegal_words :
    ([0x0000, 0x0001, 0x6800, 0x7000, 0x7800, 0xC000, 0xF800, 0xFFFF] : List CmdWord).map decode =
      List.replicate 8 (.error .reservedOpcode) ∧
    ([0x0801, 0x0820, 0x1100, 0x1822, 0x9A04, 0xA206, 0xA205, 0x4820, 0xBA04] : List CmdWord).map decode =
      List.replicate 9 (.error .nonzeroField) ∧
    decodeIn .pub 0x0800 = .error .outsideProfile := by decide +kernel

/-! ### Decoding of words written out by fields, `op rd ra rb f z` (R71, R80, part 2.11) -/

theorem test_decode_vcreate : decode 0b0000111100000000 = .ok (.vcreate 7) := by decide
theorem test_decode_vget : decode 0b0001000011100000 = .ok (.vget 7) := by decide
theorem test_decode_vset : decode 0b0001101100000010 = .ok (.vset 3 true) := by decide
theorem test_decode_vresize : decode 0b0010001111100010 = .ok (.vresize 3 7 true) := by decide
theorem test_decode_vcopy : decode 0b0010101111100000 = .ok (.vcopy 3 7) := by decide
theorem test_decode_vlen : decode 0b0011000011100000 = .ok (.vlen 7) := by decide
theorem test_decode_vsign : decode 0b0011100010100000 = .ok (.vsign 5) := by decide
theorem test_decode_rel : decode 0b0100011100000000 = .ok (.rel 7) := by decide
theorem test_decode_fromint : decode 0b0100110100000000 = .ok (.fromint 5) := by decide
theorem test_decode_toint : decode 0b0101000011100000 = .ok (.toint 7) := by decide
theorem test_decode_trim : decode 0b0101101111100000 = .ok (.trim 3 7) := by decide
theorem test_decode_neg : decode 0b0110001111100000 = .ok (.neg 3 7) := by decide
theorem test_decode_addm : decode 0b1000001111110100 = .ok (.addm 3 7 5) := by decide
theorem test_decode_subm : decode 0b1000101000000100 = .ok (.subm 2 0 1) := by decide
theorem test_decode_mulm : decode 0b1001001000000100 = .ok (.mulm 2 0 1) := by decide
theorem test_decode_cmpm : decode 0b1001100011011100 = .ok (.cmpm 6 7) := by decide
theorem test_decode_adds : decode 0b1010001000000100 = .ok (.adds 2 0 1) := by decide
theorem test_decode_subs : decode 0b1010101000000100 = .ok (.subs 2 0 1) := by decide
theorem test_decode_muls : decode 0b1011001000000100 = .ok (.muls 2 0 1) := by decide
theorem test_decode_cmps : decode 0b1011100011011100 = .ok (.cmps 6 7) := by decide

/-- The assembler text of a command with its data-in operand (R86). -/
theorem test_assembly_text : assemblyText (.vresize 1 0 true) 12 = "VRESIZE V1, V0, 1, #12" ∧
    assemblyText (.fromint 0) (-42) = "FROMINT V0, #-42" ∧ assemblyText (.addm 2 0 1) 0 = "ADDM V2, V0, V1" := by
  decide +kernel

/-! ### One step of each command -/

/-- Part 2.1, command 1. -/
theorem test_vcreate : after (st []) 0x0800 8 0 = some (0, 0xAA, some (pos "0000 0000")) := by decide +kernel
/-- Part 2.1, commands 5 to 8: in range, and beyond the end. -/
theorem test_vget : after (st [(0, pos "0010 0001")]) 0x1000 5 0 = some (0, 1, some (pos "0010 0001")) ∧
    after (st [(0, pos "0010 0001")]) 0x1000 8 0 = some (0, 0, some (pos "0010 0001")) := by decide +kernel
/-- Part 2.1, command 4 and the sign table: the sign is kept. -/
theorem test_vset : after (st [(0, neg "0111")]) 0x1802 3 0 = some (0, 0xAA, some (neg "1111")) := by decide +kernel
/-- Part 2.1, command 9: beyond the end. -/
theorem test_vset_beyond : after (st [(0, pos "0010 0001")]) 0x1802 8 0 = some (0, 0xAA, some (pos "0010 0001")) := by
  decide +kernel
/-- Part 2.1, sign table: `f = 1` growing, `f = 0` shrinking. -/
theorem test_vresize : after (st [(0, neg "0000 0111")]) 0x2102 12 1 = some (0, 0xAA, some (neg "0000 0000 0111")) ∧
    after (st [(0, neg "0000 0111")]) 0x2100 4 1 = some (0, 0xAA, some (pos "0111")) := by decide +kernel
/-- Part 2.1, sign table: the raw flag is copied. -/
theorem test_vcopy : after (st [(0, neg "0000")]) 0x2900 0 1 = some (0, 0xAA, some (neg "0000")) := by decide +kernel
/-- Part 2.1, command 14: a length of 6. -/
theorem test_vlen : after (st [(3, pos "10 0000")]) 0x3060 0 3 = some (0, 6, some (pos "10 0000")) := by decide +kernel
/-- Part 2.1, sign table: the raw flag, not the effective sign. -/
theorem test_vsign : after (st [(0, neg "0000")]) 0x3800 0 0 = some (0, 1, some (neg "0000")) := by decide +kernel
/-- Part 2.1, commands 19 and 21: a present and an absent register. -/
theorem test_rel : after (st [(1, pos "0001")]) 0x4100 0 1 = some (0, 0xAA, none) ∧
    after (st []) 0x4100 0 1 = some (0, 0xAA, none) := by decide +kernel
/-- Part 2.2: the minimum integer. -/
theorem test_fromint : after (st []) 0x4800 0x8000000000000000 0 = some (0, 0xAA, some (neg
    "1001 0010 0010 0011 0011 0111 0010 0000 0011 0110 1000 0101 0100 0111 0111 0101 1000 0000 1000")) := by decide +kernel
/-- Part 2.2: `DIN` 0 and -10. -/
theorem test_fromint_small : after (st []) 0x4800 0 0 = some (0, 0xAA, some (pos "0000")) ∧
    after (st []) 0x4800 0xFFFFFFFFFFFFFFF6 0 = some (0, 0xAA, some (neg "0001 0000")) := by decide +kernel
/-- Part 2.2: the minimum integer converts, the same magnitude without the sign overflows. -/
theorem test_toint : after (st [(0, neg
      "1001 0010 0010 0011 0011 0111 0010 0000 0011 0110 1000 0101 0100 0111 0111 0101 1000 0000 1000")]) 0x5000 0 1 =
      some (0, 0x8000000000000000, none) ∧
    after (st [(0, pos
      "1001 0010 0010 0011 0011 0111 0010 0000 0011 0110 1000 0101 0100 0111 0111 0101 1000 0000 1000")]) 0x5000 0 1 =
      some (4, 0xAA, none) := by decide +kernel
/-- Part 2.2: a partial top group, and an illegal group. -/
theorem test_toint_groups : after (st [(0, pos "10 0101")]) 0x5000 0 1 = some (0, 25, none) ∧
    after (st [(0, pos "0001 1010")]) 0x5000 0 1 = some (3, 0xAA, none) := by decide +kernel
/-- Part 2.8: a partial top group is widened; a zero of any width and sign becomes `ZERO4`. -/
theorem test_trim : after (st [(0, pos "10 0101")]) 0x5900 0 1 = some (0, 0xAA, some (pos "0010 0101")) ∧
    after (st [(0, neg "0000 0000 0000")]) 0x5900 0 1 = some (0, 0xAA, some (pos "0000")) := by decide +kernel
/-- Part 2.8: leading zero groups and an illegal group. -/
theorem test_trim_groups : after (st [(0, neg "0000 0000 0100")]) 0x5900 0 1 = some (0, 0xAA, some (neg "0100")) ∧
    after (st [(0, pos "0000 1111")]) 0x5900 0 1 = some (0, 0xAA, some (pos "1111")) := by decide +kernel
/-- Part 2.8: the width is kept; a flagged zero is repaired. -/
theorem test_neg : after (st [(0, pos "0000 0100")]) 0x6100 0 1 = some (0, 0xAA, some (neg "0000 0100")) ∧
    after (st [(0, neg "0000 0000")]) 0x6100 0 1 = some (0, 0xAA, some (pos "0000 0000")) := by decide +kernel
/-- Part 2.4: 99 + 99, and carry through every digit. -/
theorem test_addm : after (st [(0, pos "1001 1001"), (1, pos "1001 1001")]) 0x8204 0 2 =
      some (0, 0xAA, some (pos "0001 1001 1000")) ∧
    after (st [(0, pos "1001 1001 1001"), (1, pos "0000 0000 0001")]) 0x8204 0 2 =
      some (0, 0xAA, some (pos "0001 0000 0000 0000")) := by decide +kernel
/-- Part 2.4: SizeMismatch before InvalidDigit. -/
theorem test_addm_size : after (st [(0, pos "0001 1010"), (1, pos "0001")]) 0x8204 0 2 = some (2, 0xAA, none) ∧
    after (st [(0, pos "0001 1010"), (1, pos "0000 0001")]) 0x8204 0 2 = some (3, 0xAA, none) := by decide +kernel
/-- Part 2.6: 5 - 9, and 55 - 55 at the common width. -/
theorem test_subm : after (st [(0, pos "0101"), (1, pos "1001")]) 0x8A04 0 2 = some (0, 0xAA, some (neg "0100")) ∧
    after (st [(0, pos "0101 0101"), (1, pos "0101 0101")]) 0x8A04 0 2 = some (0, 0xAA, some (pos "0000 0000")) := by
  decide +kernel
/-- Part 2.6: 5 - 0, the corrected clause of step 6 (C2), and 0 - 0. -/
theorem test_subm_zero : after (st [(0, pos "0101"), (1, pos "0000")]) 0x8A04 0 2 = some (0, 0xAA, some (pos "0101")) ∧
    after (st [(0, pos "0000 0000"), (1, pos "0000")]) 0x8A04 0 2 = some (0, 0xAA, some (pos "0000")) := by decide +kernel
/-- Part 2.7: 99 * 99, and 12 * 10 with a skipped digit. -/
theorem test_mulm : after (st [(0, pos "1001 1001"), (1, pos "1001 1001")]) 0x9204 0 2 =
      some (0, 0xAA, some (pos "1001 1000 0000 0001")) ∧
    after (st [(0, pos "0001 0010"), (1, pos "0001 0000")]) 0x9204 0 2 =
      some (0, 0xAA, some (pos "0000 0001 0010 0000")) := by decide +kernel
/-- Part 2.7: 6-bit 25 times 2-bit 2 (C11). -/
theorem test_mulm_partial : after (st [(0, pos "10 0101"), (1, pos "10")]) 0x9204 0 2 =
    some (0, 0xAA, some (pos "0000 0101 0000")) := by decide +kernel
/-- Part 2.5: 42 against 41, and illegal groups unexamined. -/
theorem test_cmpm : after (st [(0, pos "0100 0010"), (1, pos "0100 0001")]) 0x9804 0 2 = some (0, 1, none) ∧
    after (st [(0, pos "1111"), (1, pos "0001 0000")]) 0x9804 0 2 = some (0, 0xFFFFFFFFFFFFFFFF, none) := by
  decide +kernel
/-- Part 2.5: one and two absent operands. -/
theorem test_cmpm_absent : after (st [(1, pos "0000")]) 0x9804 0 2 = some (0, 0xFFFFFFFFFFFFFFFF, none) ∧
    after (st []) 0x9804 0 2 = some (5, 0xAA, none) := by decide +kernel
/-- Part 1, T1, and part 2.9: the destination is both sources. -/
theorem test_adds : after (st [(0, pos "0001 0010 0011"), (1, pos "0100 0101 0110")]) 0xA204 0 2 =
      some (0, 0xAA, some (pos "0101 0111 1001")) ∧
    after (st [(0, pos "0101")]) 0xA000 0 0 = some (0, 0xAA, some (pos "0001 0000")) := by decide +kernel
/-- Part 2.9: a flagged zero against -5; an absent source before an illegal digit (part 2.10). -/
theorem test_adds_corners : after (st [(0, neg "0000"), (1, neg "0101")]) 0xA204 0 2 =
      some (0, 0xAA, some (neg "0101")) ∧
    after (st [(0, pos "0001 1010"), (2, neg "0111")]) 0xA260 0 2 = some (5, 0xAA, some (neg "0111")) := by decide +kernel
/-- Part 1, T2 and T3. -/
theorem test_subs : after (st [(0, pos "0001 0000 0000"), (1, pos "0001")]) 0xAA04 0 2 =
      some (0, 0xAA, some (pos "1001 1001")) ∧
    after (st [(0, pos "0101"), (1, pos "1001")]) 0xAA04 0 2 = some (0, 0xAA, some (neg "0100")) := by decide +kernel
/-- Part 1, T4, and part 2.9: -042 * 1. -/
theorem test_muls : after (st [(0, pos "1001 1001"), (1, pos "1001 1001")]) 0xB204 0 2 =
      some (0, 0xAA, some (pos "1001 1000 0000 0001")) ∧
    after (st [(0, neg "0000 0100 0010"), (1, pos "0001")]) 0xB204 0 2 = some (0, 0xAA, some (neg "0100 0010")) := by
  decide +kernel
/-- Part 2.9: the zero shortcut, and the validation before it. -/
theorem test_muls_zero : after (st [(0, neg "0000 0000"), (1, neg "0101")]) 0xB204 0 2 = some (0, 0xAA, some (pos "0000")) ∧
    after (st [(0, pos "0000"), (1, pos "1010")]) 0xB204 0 2 = some (3, 0xAA, none) := by decide +kernel
/-- Part 2.9: -5 against -3, and a flagged zero against zero. -/
theorem test_cmps : after (st [(0, neg "0000 0101"), (1, neg "0011")]) 0xB804 0 2 = some (0, 0xFFFFFFFFFFFFFFFF, none) ∧
    after (st [(0, neg "0000"), (1, pos "0000")]) 0xB804 0 2 = some (0, 0, none) := by decide +kernel
/-- Part 2.9: an absent operand is an error. -/
theorem test_cmps_absent : after (st [(0, pos "0001")]) 0xB804 0 2 = some (5, 0xAA, none) := by decide +kernel
/-- Part 2.10: illegal words change `STATUS` only. -/
theorem test_illegal : after (st [(2, neg "0111")]) 0x0000 0 2 = some (6, 0xAA, some (neg "0111")) ∧
    after (st [(2, neg "0111")]) 0xA206 0 2 = some (6, 0xAA, some (neg "0111")) := by decide +kernel

/-- A reset event after some commands (R310). -/
theorem test_reset_event : (nextOf (step { st [(0, pos "0001")] with status := 3, pending := [.reset] })) =
    some State.reset := by decide +kernel

/-- The table word is presented with the level of the port, and is what the first step after reset runs. -/
theorem test_withFetchWord : step (State.reset.withFetchWord 16 0x4800) = exec (.fromint 0) State.reset := by rfl

/-- Part 1, T3: the two renderings of -4 (R246). -/
theorem test_display : toDisplayString " " .group1111 (neg "0100") = "1111 0100" ∧
    toDisplayString " " .minus (neg "0100") = "-0100" ∧
    toDisplayString " " .minus (pos "0101 0111 1001") = "0101 0111 1001" := by decide +kernel

/-! ### Witnesses: states and operands that meet the hypotheses of the obligations, clause by clause at boundary values.
`MAXBITS` has no value in the model (log 1), so a length above it is shown for `MAXBITS` 76, the least the spec admits. -/

/-- 8 bits, 4 bits and 12 bits: 91, -9 and a flagged zero; the rest absent. -/
def three : State := st [(0, pos "1001 0001"), (1, neg "1001"), (2, neg "0000 0000 0000")]

/-- A state with 2^63 - 1, 2^63 and -2^63 and -2^63 - 1. -/
def limits : State := st
  [(0, pos "1001 0010 0010 0011 0011 0111 0010 0000 0011 0110 1000 0101 0100 0111 0111 0101 1000 0000 0111"),
   (1, pos "1001 0010 0010 0011 0011 0111 0010 0000 0011 0110 1000 0101 0100 0111 0111 0101 1000 0000 1000"),
   (2, neg "1001 0010 0010 0011 0011 0111 0010 0000 0011 0110 1000 0101 0100 0111 0111 0101 1000 0000 1000"),
   (3, neg "1001 0010 0010 0011 0011 0111 0010 0000 0011 0110 1000 0101 0100 0111 0111 0101 1000 0000 1001")]

/-- An illegal group, of 8 and of 4 bits. -/
def illegalDigits : State := st [(0, pos "0001 1010"), (1, pos "1111"), (2, pos "0000 0001"), (3, pos "0001")]

/-- Lengths up to 76 bits can always be made. -/
theorem within_76 {n : Nat} (h : n ≤ 76) : withinMaxBits n = true := by rw [withinMaxBits_eq]; exact fits_76 h

/-- A length above a finite `MAXBITS` cannot be made. -/
theorem beyond_76 (h : Config.maxBits = some 76) {n : Nat} (hn : 76 < n) : withinMaxBits n = false := by
  simp [withinMaxBits, h, hn]

theorem witness_DecodeEncodeRoundTrip :
    Instr.inProfile .pub (.adds 2 0 1) = true ∧ Instr.inProfile .full (.mulm 7 7 7) = true := by decide
theorem witness_DecodedWordIsEncoding : decodeIn .pub 0xA204 = .ok (.adds 2 0 1) ∧
    decodeIn .full 0x23E2 = .ok (.vresize 3 7 true) := by decide
theorem witness_LegalWordsAreTableRows : ∃ row ∈ opTable, (0xB8FC : CmdWord) &&& row.mask = row.pattern := by
  decide +kernel
theorem witness_ReservedOpcodesAreIllegal : fieldOp 0x07FF = 0x00 ∧ fieldOp 0x6800 = 0x0D ∧ fieldOp 0x7000 = 0x0E ∧
    fieldOp 0x7FFF = 0x0F ∧ (fieldOp 0xC000).toNat = 0x18 ∧ (fieldOp 0xFFFF).toNat = 0x1F := by decide
theorem witness_UnusedFieldsMustBeZero : ∃ row ∈ opTable, fieldOp (0x0801 : CmdWord) = fieldOp row.pattern ∧
    (0x0801 : CmdWord) &&& row.mask ≠ row.pattern := by decide +kernel
theorem witness_StepRunsDecodedCommand :
    ({ three with pending := [.command 0xA204 7, .reset] } : State).pending = .command 0xA204 7 :: [.reset] ∧
    decode 0xA204 = .ok (.adds 2 0 1) ∧ decodeIn .pub 0xA204 = .ok (.adds 2 0 1) := by decide +kernel
theorem witness_IllegalCommandSetsStatusOnly :
    ({ three with pending := [.command 0 7] } : State).pending = .command 0 7 :: [] ∧
    (∀ row ∈ opTable, (0 : CmdWord) &&& row.mask ≠ row.pattern) ∧
    ∃ row ∈ opTable, (0x0800 : CmdWord) &&& row.mask = row.pattern ∧ (row.read 0x0800).inProfile .pub = false := by
  decide +kernel
theorem witness_HostSideOfSteps : three.pending = [] ∧
    ({ three with pending := [.reset, .reset] } : State).pending = .reset :: [.reset] ∧
    ({ three with pending := [.command 0x3000 1] } : State).pending = .command 0x3000 1 :: [] ∧
    ∃ t, step { three with pending := [.command 0x3000 1] } = .next t := by
  exact ⟨rfl, rfl, rfl, _, rfl⟩
theorem witness_InputsAreNotKept : ({ three with pending := [.command 0x3000 1] } : State).pending = .command 0x3000 1 :: [] ∧
    Instr.usesDin (.vlen 0) = false ∧ ∃ t, exec (.vlen 0) three = .next t := ⟨rfl, rfl, _, rfl⟩
theorem witness_VcreateMakesZeroVector :
    withinMaxBits ({ three with din := 0 } : State).din.toNat = true ∧
    withinMaxBits ({ three with din := 76 } : State).din.toNat = true ∧
    (Config.maxBits = some 76 → withinMaxBits ({ three with din := 77 } : State).din.toNat = false) :=
  ⟨within_76 (by decide), within_76 (by decide), fun h => beyond_76 h (by decide)⟩
theorem witness_VgetAnswersBit : three.read 3 = none ∧ three.read 1 = some (neg "1001") ∧
    ({ three with din := 3 } : State).din.toNat < (neg "1001").bits.length ∧
    (neg "1001").bits.length ≤ ({ three with din := 4 } : State).din.toNat := by decide +kernel
theorem witness_VsetWritesBit : three.read 3 = none ∧ three.read 0 = some (pos "1001 0001") ∧
    ({ three with din := 7 } : State).din.toNat < (pos "1001 0001").bits.length ∧
    (pos "1001 0001").bits.length ≤ ({ three with din := 8 } : State).din.toNat := by decide +kernel
theorem witness_VresizeKeepsLowBits : three.read 3 = none ∧ three.read 1 = some (neg "1001") ∧
    withinMaxBits ({ three with din := 0 } : State).din.toNat = true ∧
    withinMaxBits ({ three with din := 76 } : State).din.toNat = true ∧
    (Config.maxBits = some 76 → withinMaxBits ({ three with din := 77 } : State).din.toNat = false) :=
  ⟨by decide +kernel, by decide +kernel, within_76 (by decide), within_76 (by decide), fun h => beyond_76 h (by decide)⟩
theorem witness_VcopyCopiesValue : three.read 3 = none ∧ three.read 1 = some (neg "1001") ∧ three.read 2 ≠ none := by
  decide +kernel
theorem witness_VlenAndVsignAnswerFields : three.read 3 = none ∧ three.read 1 = some (neg "1001") := by decide +kernel
theorem witness_RelReleasesRegister : three.read 3 = none ∧ (∃ t, exec (.rel 0) three = .next t) ∧
    Instr.sources (.toint 0) = [0] ∧ ∃ u, exec (.toint 0) (three.write 0 none) = .next u := ⟨by decide +kernel, ⟨_, rfl⟩, rfl, _, rfl⟩
theorem witness_ReadOutRecoversRegister : three.read 0 = some (pos "1001 0001") ∧
    (pos "1001 0001").bits.length < 2 ^ 64 := by decide +kernel
theorem witness_DigitCountIsDecimalLength : (1 : Nat) ≠ 0 ∧ (2 ^ 63 : Nat) ≠ 0 := by decide
theorem witness_TointAnswersValue : three.read 3 = none ∧
    (∃ x, illegalDigits.read 0 = some x ∧ validDigits x.bits = false) ∧
    (∃ x, limits.read 0 = some x ∧ validDigits x.bits = true ∧ value x = 2 ^ 63 - 1) ∧
    (∃ x, limits.read 1 = some x ∧ validDigits x.bits = true ∧ 2 ^ 63 - 1 < value x) ∧
    (∃ x, limits.read 2 = some x ∧ validDigits x.bits = true ∧ value x = -(2 ^ 63)) ∧
    (∃ x, limits.read 3 = some x ∧ validDigits x.bits = true ∧ value x < -(2 ^ 63)) := by
  refine ⟨by decide +kernel, ⟨_, rfl, ?_⟩, ⟨_, rfl, ?_⟩, ⟨_, rfl, ?_⟩, ⟨_, rfl, ?_⟩, ⟨_, rfl, ?_⟩⟩ <;> decide +kernel
theorem witness_IntegerRoundTrip : (-(2 ^ 63) : Int) ≤ -(2 ^ 63) ∧ (2 ^ 63 - 1 : Int) ≤ 2 ^ 63 - 1 ∧
    toInteger (neg "0000 0100 0010") = .ok (-42) := by decide +kernel
theorem witness_CorrectorTable : 16 * false.toNat + (9#4).toNat < 10 ∧ 10 ≤ 16 * false.toNat + (10#4).toNat ∧
    16 * true.toNat + (3#4).toNat ≤ 19 ∧ 10 ≤ 16 * true.toNat + (15#4).toNat := by decide

/-- 99 and 1 on 8 bits, 98 and 1 on 8 bits. -/
def sums : State := st [(0, pos "1001 1001"), (1, pos "0000 0001"), (2, pos "1001 1000"), (3, pos "010101")]
theorem witness_AddmAddsMagnitudes : (three.read 0 ≠ none ∧ three.read 3 = none) ∧
    (three.read 0 = some (pos "1001 0001") ∧ three.read 1 = some (neg "1001") ∧
      (pos "1001 0001").bits.length ≠ (neg "1001").bits.length) ∧
    (sums.read 3 = some (pos "010101") ∧ (pos "010101").bits.length % 4 ≠ 0) ∧
    (illegalDigits.read 0 = some (pos "0001 1010") ∧ illegalDigits.read 2 = some (pos "0000 0001") ∧
      validDigits (pos "0001 1010").bits = false) ∧
    (sums.read 2 = some (pos "1001 1000") ∧ sums.read 1 = some (pos "0000 0001") ∧
      decval (pos "1001 1000").bits + decval (pos "0000 0001").bits < 10 ^ (8 / 4)) ∧
    (sums.read 0 = some (pos "1001 1001") ∧ decval (pos "1001 1001").bits + decval (pos "0000 0001").bits = 10 ^ (8 / 4)) ∧
    (validDigits (pos "1001 1001").bits = true ∧ validDigits (pos "0000 0001").bits = true) := by decide +kernel
theorem witness_AddmAddsMagnitudes_capacity : withinMaxBits (pos "1001 1001").bits.length = true ∧
    withinMaxBits ((pos "1001 1001").bits.length + 4) = true ∧
    (Config.maxBits = some 76 → withinMaxBits 76 = true ∧ withinMaxBits (76 + 4) = false) :=
  ⟨within_76 (by decide), within_76 (by decide), fun h => ⟨within_76 (by decide), beyond_76 h (by decide)⟩⟩
theorem witness_CmpmOrdersMagnitudes : (three.read 3 = none ∧ three.read 4 = none) ∧ three.read 0 ≠ none ∧
    three.read 0 = some (pos "1001 0001") ∧ three.read 1 = some (neg "1001") ∧
    validDigits (pos "1001 0001").bits = true ∧ validDigits (neg "1001").bits = true := by decide +kernel
theorem witness_CompareIsTotalPreorder :
    compareMagnitude (bitsOf "0000 0101") (bitsOf "0101") = .equal ∧
    compareMagnitude (bitsOf "0101") (bitsOf "101") = .equal ∧
    compareMagnitude (bitsOf "0101") (bitsOf "0110") = .less ∧ compareMagnitude (bitsOf "0110") (bitsOf "1 0000") = .less ∧
    compareMagnitude (bitsOf "1 0000") (bitsOf "0110") = .greater ∧
    compareMagnitude (bitsOf "0110") (bitsOf "0101") = .greater := by decide +kernel
theorem witness_SubmSubtractsMagnitudes : (three.read 0 ≠ none ∧ three.read 3 = none) ∧
    (∃ x, illegalDigits.read 0 = some x ∧ validDigits x.bits = false) ∧
    (three.read 0 = some (pos "1001 0001") ∧ three.read 1 = some (neg "1001") ∧
      validDigits (pos "1001 0001").bits = true ∧ validDigits (neg "1001").bits = true) ∧
    withinMaxBits (cw (pos "1001 0001").bits (neg "1001").bits + 4) = true ∧
    (Config.maxBits = some 76 → ∃ x, limits.read 0 = some x ∧ validDigits x.bits = true ∧
      withinMaxBits (cw x.bits x.bits + 4) = false) :=
  ⟨by decide +kernel, ⟨_, rfl, by decide +kernel⟩, by decide +kernel, within_76 (by decide +kernel),
    fun h => ⟨_, rfl, by decide +kernel, beyond_76 h (by decide +kernel)⟩⟩
theorem witness_MulmMultipliesMagnitudes : (three.read 0 ≠ none ∧ three.read 3 = none) ∧
    (∃ x, illegalDigits.read 0 = some x ∧ validDigits x.bits = false) ∧
    (three.read 0 = some (pos "1001 0001") ∧ three.read 1 = some (neg "1001") ∧
      validDigits (pos "1001 0001").bits = true ∧ validDigits (neg "1001").bits = true) ∧
    withinMaxBits (roundUp4 (pos "1001 0001").bits.length + roundUp4 (neg "1001").bits.length) = true ∧
    (Config.maxBits = some 76 → ∃ x, limits.read 0 = some x ∧ validDigits x.bits = true ∧
      withinMaxBits (roundUp4 x.bits.length + roundUp4 x.bits.length) = false) :=
  ⟨by decide +kernel, ⟨_, rfl, by decide +kernel⟩, by decide +kernel, within_76 (by decide +kernel),
    fun h => ⟨_, rfl, by decide +kernel, beyond_76 h (by decide +kernel)⟩⟩
theorem witness_TrimCutsLeadingZeroGroups : three.read 3 = none ∧
    (three.read 2 = some (neg "0000 0000 0000") ∧ isZero (neg "0000 0000 0000").bits = true) ∧
    (illegalDigits.read 2 = some (pos "0000 0001") ∧ dig (pos "0000 0001").bits 0 ≠ 0) := by decide +kernel
theorem witness_TrimCutsLeadingZeroGroups_top : (∀ k, 0 < k → dig (pos "0000 0001").bits k = 0) ∧
    withinMaxBits (4 * 0 + 4) = true ∧
    (Config.maxBits = some 77 → dig (List.replicate 77 true) 19 ≠ 0 ∧
      (∀ k, 19 < k → dig (List.replicate 77 true) k = 0) ∧ withinMaxBits (4 * 19 + 4) = false) := by
  refine ⟨fun k hk => ?_, within_76 (by decide), fun h => ⟨by decide +kernel, fun k hk => dig_beyond ?_, ?_⟩⟩
  · rcases Nat.lt_or_ge k 2 with h | h
    · rw [show k = 1 by omega]; decide +kernel
    · exact dig_beyond (show ngroups _ ≤ k from h)
  · rw [ngroups_eq]; simp; omega
  · simp [withinMaxBits, h]
theorem witness_TrimProperties : trim (neg "0000 0100") = .ok (neg "0100") ∧ validDigits (neg "0000 0100").bits = true ∧
    trim (neg "0100") = .ok (neg "0100") ∧ canonical (neg "0100") = true ∧ value (neg "0100") = -4 ∧
    trim (neg "0000 0000") = .ok BcdNumber.zero4 := by decide +kernel
theorem witness_NegInvertsSign : three.read 3 = none ∧
    (three.read 2 = some (neg "0000 0000 0000") ∧ isZero (neg "0000 0000 0000").bits = true) ∧
    (three.read 1 = some (neg "1001") ∧ isZero (neg "1001").bits = false) := by decide +kernel
theorem witness_NegateProperties : validDigits (neg "0000 0100").bits = true ∧ canonical (neg "0100") = true := by
  decide +kernel
theorem witness_CanonicalFormIsUnique : canonical (neg "0100") = true ∧ neg "0100" ≠ BcdNumber.zero4 := by decide +kernel
theorem witness_AddsWritesCanonicalSum : (three.read 3 = none ∨ three.read 0 = none) ∧
    (∃ x, illegalDigits.read 0 = some x ∧ validDigits x.bits = false) ∧
    (three.read 0 = some (pos "1001 0001") ∧ three.read 1 = some (neg "1001") ∧
      validDigits (pos "1001 0001").bits = true ∧ validDigits (neg "1001").bits = true) ∧
    sumWithin (pos "1001 0001") (neg "1001") ∧ sumWithin (pos "1001 1001") (pos "0000 0001") ∧
    (Config.maxBits = some 76 → ∃ x y, limits.read 0 = some x ∧ limits.read 2 = some y ∧ ¬ sumWithin x y) := by
  refine ⟨by decide +kernel, ⟨_, rfl, by decide +kernel⟩, by decide +kernel, ?_, ?_, fun h => ⟨_, _, rfl, rfl, ?_⟩⟩
  · rw [sumWithin, if_neg (by decide +kernel)]; exact within_76 (by decide +kernel)
  · rw [sumWithin, if_pos (by decide +kernel)]
    exact ⟨within_76 (by decide +kernel), fun _ => within_76 (by decide +kernel)⟩
  · rw [sumWithin, if_neg (by decide +kernel), beyond_76 h (by decide +kernel)]; decide
theorem witness_SubsWritesCanonicalDifference : (three.read 0 = none ∨ three.read 3 = none) ∧
    (∃ x, illegalDigits.read 0 = some x ∧ validDigits x.bits = false) ∧
    (three.read 0 = some (pos "1001 0001") ∧ three.read 1 = some (neg "1001") ∧
      validDigits (pos "1001 0001").bits = true ∧ validDigits (neg "1001").bits = true) ∧
    sumWithin (pos "1001 0001") (negate (neg "1001")) ∧
    (Config.maxBits = some 76 → ∃ x y, limits.read 0 = some x ∧ limits.read 1 = some y ∧ ¬ sumWithin x (negate y)) := by
  refine ⟨by decide +kernel, ⟨_, rfl, by decide +kernel⟩, by decide +kernel, ?_, fun h => ⟨_, _, rfl, rfl, ?_⟩⟩
  · rw [sumWithin, if_pos (by decide +kernel)]
    exact ⟨within_76 (by decide +kernel), fun _ => within_76 (by decide +kernel)⟩
  · rw [sumWithin, if_neg (by decide +kernel), beyond_76 h (by decide +kernel)]; decide
theorem witness_MulsWritesCanonicalProduct : (three.read 0 = none ∨ three.read 3 = none) ∧
    (∃ x, illegalDigits.read 0 = some x ∧ validDigits x.bits = false) ∧
    (three.read 0 = some (pos "1001 0001") ∧ three.read 1 = some (neg "1001") ∧ three.read 2 = some (neg "0000 0000 0000") ∧
      validDigits (pos "1001 0001").bits = true ∧ validDigits (neg "1001").bits = true ∧
      validDigits (neg "0000 0000 0000").bits = true ∧
      isZero (pos "1001 0001").bits = false ∧ isZero (neg "1001").bits = false ∧ isZero (neg "0000 0000 0000").bits = true) ∧
    withinMaxBits (roundUp4 (pos "1001 0001").bits.length + roundUp4 (neg "1001").bits.length) = true ∧
    (Config.maxBits = some 76 → ∃ x, limits.read 0 = some x ∧ validDigits x.bits = true ∧ isZero x.bits = false ∧
      withinMaxBits (roundUp4 x.bits.length + roundUp4 x.bits.length) = false) :=
  ⟨by decide +kernel, ⟨_, rfl, by decide +kernel⟩, by decide +kernel, within_76 (by decide +kernel),
    fun h => ⟨_, rfl, by decide +kernel, by decide +kernel, beyond_76 h (by decide +kernel)⟩⟩
theorem witness_CmpsOrdersValues : (three.read 0 = none ∨ three.read 3 = none) ∧ three.read 0 = some (pos "1001 0001") ∧
    three.read 1 = some (neg "1001") ∧ validDigits (pos "1001 0001").bits = true ∧ validDigits (neg "1001").bits = true := by
  decide +kernel
theorem witness_AdditionCommutesAndAssociates : validDigits (neg "0101").bits = true ∧ validDigits (pos "0000").bits = true ∧
    validDigits (pos "0101").bits = true ∧ addSigned (neg "0101") (pos "0000") = .ok (neg "0101") ∧
    addSigned (neg "0101") (pos "0101") = .ok (pos "0000") ∧ addSigned (pos "0000") (pos "0101") = .ok (pos "0101") := by
  decide +kernel
theorem witness_AdditiveInverseIsZero : validDigits (pos "0000 0111").bits = true ∧
    sumWithin (pos "0000 0111") (negate (pos "0000 0111")) :=
  ⟨by decide +kernel, by rw [sumWithin, if_neg (by decide +kernel)]; exact within_76 (by decide +kernel)⟩
theorem witness_MultiplicationIdentityAndZero : validDigits (neg "0000 0111").bits = true ∧
    withinMaxBits (roundUp4 (neg "0000 0111").bits.length + 4) = true := ⟨by decide +kernel, within_76 (by decide +kernel)⟩
theorem witness_ErrorChangesStatusOnly : ∃ t, exec (.vlen 3) three = .next t ∧ t.status ≠ 0 := ⟨_, rfl, by decide +kernel⟩
theorem witness_OutcomeMatrix : ∃ t, exec (.toint 1) limits = .next t ∧ t.status = 4 :=
  ⟨_, rfl, by decide +kernel⟩

/-- Registers of at most 76 bits are within capacity. -/
theorem fit_of_short {s : State} (h : ∀ r : RegNum, (s.read r).all (fun x => decide (x.bits.length ≤ 76)) = true) : regsFit s := by
  intro r
  have := h r
  cases hr : s.read r with
  | none => rfl
  | some x => rw [hr] at this; exact within_76 (by simpa using this)
theorem witness_FirstErrorIsReported : regsFit three ∧ regsFit illegalDigits ∧ regsFit limits ∧
    (∃ t, exec (.vlen 3) three = .next t ∧ absentSource (.vlen 3) three) ∧
    (∃ t, exec (.rel 3) three = .next t ∧ ¬ absentSource (.rel 3) three ∧ ¬ sizesDiffer (.rel 3) three ∧
      ¬ badDigits (.rel 3) three ∧ ¬ tooLong (.rel 3) three ∧ ¬ outOfRange (.rel 3) three) ∧
    (∃ t, exec (.addm 4 0 1) three = .next t ∧ sizesDiffer (.addm 4 0 1) three ∧ ¬ absentSource (.addm 4 0 1) three) ∧
    (∃ t, exec (.subm 4 0 2) illegalDigits = .next t ∧ badDigits (.subm 4 0 2) illegalDigits) ∧
    (∃ t, exec (.toint 1) limits = .next t ∧ outOfRange (.toint 1) limits) ∧
    (Config.maxBits = some 76 → ∃ t, exec (.subm 4 0 1) limits = .next t ∧ tooLong (.subm 4 0 1) limits) := by
  refine ⟨fit_of_short (by decide +kernel), fit_of_short (by decide +kernel), fit_of_short (by decide +kernel), ⟨_, rfl, ?_⟩,
    ⟨_, rfl, ?_, id, ?_, id, id⟩, ⟨_, rfl, ?_, ?_⟩, ⟨_, rfl, rfl, ?_⟩, ⟨_, rfl, ?_⟩, fun h => ?_⟩
  · exact ⟨3, by decide, by decide +kernel⟩
  · rintro ⟨r, hr, -⟩; cases hr
  · rintro ⟨h, -⟩; cases h
  · exact ⟨_, _, rfl, rfl, .inl (by decide +kernel)⟩
  · intro h
    have h' : ∃ r ∈ ([0, 1] : List RegNum), three.read r = none := h
    exact absurd h' (by decide +kernel)
  · exact ⟨0, by decide, _, rfl, by decide +kernel⟩
  · exact ⟨_, rfl, .inr (by decide +kernel)⟩
  · obtain ⟨t, ht⟩ := commitReg_total 4 (regResult (.subm 4 0 1) limits) limits
    exact ⟨t, ht, _, _, rfl, rfl, beyond_76 h (by decide +kernel)⟩
theorem witness_Frame : (∃ t, exec (.vcopy 3 0) three = .next t) ∧ Instr.dest (.vcopy 3 0) ≠ some 0 ∧
    Instr.dest (.vcopy 3 0) ≠ none := ⟨⟨_, rfl⟩, by decide, by decide⟩
theorem witness_ResultDependsOnSourcesOnly : (three.write 1 none).din = three.din ∧
    (∀ r ∈ Instr.sources (.vcopy 3 0), (three.write 1 none).read r = three.read r) ∧
    (∃ t, exec (.vcopy 3 0) three = .next t ∧ t.status = 0) ∧ ∃ t', exec (.vcopy 3 0) (three.write 1 none) = .next t' :=
  ⟨rfl, by decide +kernel, ⟨_, rfl, rfl⟩, _, rfl⟩
theorem witness_RepeatingChangesNothing : (∀ r, Instr.dest (.vcopy 3 0) = some r → r ∉ Instr.sources (.vcopy 3 0)) ∧
    ∃ t, exec (.vcopy 3 0) three = .next t := ⟨by decide +kernel, _, rfl⟩
theorem witness_ArithmeticKeepsDigitsValid : keepsDigitsValid (.neg 3 0) three ∧ regsValid three ∧
    (∃ t, exec (.neg 3 0) three = .next t) ∧ keepsDigitsValid (.vresize 3 0 true) { three with din := 8 } := by
  refine ⟨trivial, by decide +kernel, ⟨_, rfl⟩, fun x hx => ?_⟩
  have h : some (pos "1001 0001") = some x := by rw [← hx]; decide +kernel
  injection h with h; subst h; decide +kernel
theorem witness_SafeIsInvariant : Safe { three with pending := [.command 0x3000 0] } ∧
    ∃ t, stepIn .full { three with pending := [.command 0x3000 0] } = .next t :=
  ⟨⟨fit_of_short (by decide +kernel), by decide +kernel⟩, _, rfl⟩

/-- Two canonical registers and a command that reads one of them. -/
def reading : State := { st [(0, pos "1001"), (1, neg "0001 0000")] with pending := [.command 0x3000 0] }
theorem witness_PublicKeepsCanonical : regsCanonical reading ∧ (∃ t, stepIn .pub reading = .next t) ∧ reading.pending ≠ [] :=
  ⟨by decide +kernel, ⟨_, rfl⟩, by decide +kernel⟩
theorem witness_PseudoCommands : ({ three with pending := [clrEvent 2] } : State).pending = clrEvent 2 :: [] := rfl
theorem witness_DisplayRendersDigits : effneg (pos "0100") = false ∧ effneg (neg "0100") = true ∧
    (pos "0100").bits.length = 4 * 0 + 4 := by decide +kernel
end Sys2Proof.Tests
end

section
/-! SUPPORT. What the decoder accepts, what `exec` and `stepIn` can do, each said once; and the statements about the
step and the profiles (spec `00_scope.md` R9, R10, R12). -/

namespace Sys2Proof.Machine

/-! ### The decoder (R12, R80, R82) -/

/-- A word decodes to the command of the row that selects it, provided the profile has the command. -/
theorem decodeIn_eq_ok_iff {p : Profile} {w : CmdWord} {i : Instr} : decodeIn p w = .ok i ↔
    ∃ row, opTable.find? (·.selects w) = some row ∧ row.read w = i ∧ i.inProfile p = true := by
  unfold decodeIn
  cases opTable.find? (·.selects w) with
  | none =>
    simp only [reduceCtorEq, false_and, exists_false, iff_false]
    split <;> simp
  | some row =>
    simp only [Option.some.injEq, exists_eq_left']
    constructor
    · intro h
      split at h
      · cases h; exact ⟨rfl, ‹_›⟩
      · cases h
    · rintro ⟨rfl, hp⟩
      rw [if_pos hp]

/-- A profile's decoder is the decoder of FULL restricted to the profile's commands. -/
theorem decodeIn_iff_full {p : Profile} {w : CmdWord} {i : Instr} :
    decodeIn p w = .ok i ↔ decodeIn .full w = .ok i ∧ i.inProfile p = true := by
  simp only [decodeIn_eq_ok_iff]
  constructor
  · rintro ⟨row, hrow, hread, hp⟩
    exact ⟨⟨row, hrow, hread, rfl⟩, hp⟩
  · rintro ⟨⟨row, hrow, hread, -⟩, hp⟩
    exact ⟨row, hrow, hread, hp⟩

/-- The public commands by their mnemonics, in the order of R12. -/
theorem isPublic_iff_mnemonic (i : Instr) : i.isPublic = true ↔ mnemonic i ∈
    ["FROMINT", "TOINT", "ADDS", "SUBS", "MULS", "CMPS", "NEG", "VLEN", "VSIGN", "VGET", "REL"] := by
  cases i <;> simp [Instr.isPublic, mnemonic]

/-! ### What `exec` can do -/

/-- Every command answers a next state (R19, R282, R319). -/
theorem exec_total (i : Instr) (s : State) : ∃ t, exec i s = .next t := by
  rcases exec_shape i with ⟨rd, rfl⟩ | ⟨rd, -, hexec⟩ | ⟨-, hexec⟩
  · exact ⟨_, rfl⟩
  · rw [hexec]; exact commitReg_total rd _ s
  · rw [hexec]; exact commitDout_total _ s

/-- Everything a command can do: release a register, write its destination, return a datum, or end in the error of its
result (R111, R282). -/
theorem exec_cases {i : Instr} {s t : State} (h : exec i s = .next t) :
    (∃ rd, i = .rel rd ∧ t = (s.write rd none).done) ∨
    (∃ rd v, i.dest = some rd ∧ regResult i s = .ok v ∧ t = (s.write rd (some v)).done) ∨
    (∃ d, i.dest = none ∧ doutResult i s = .ok d ∧ t = (s.setDout d).done) ∨
    ∃ e, ((∃ rd, i.dest = some rd ∧ regResult i s = .error e) ∨ (i.dest = none ∧ doutResult i s = .error e)) ∧
      t = s.raise e := by
  rcases exec_shape i with ⟨rd, rfl⟩ | ⟨rd, hd, hexec⟩ | ⟨hd, hexec⟩
  · cases h; exact .inl ⟨rd, rfl, rfl⟩
  · rcases commitReg_cases (hexec s ▸ h) with ⟨v, hv, ht⟩ | ⟨e, he, ht⟩
    · exact .inr (.inl ⟨rd, v, hd, hv, ht⟩)
    · exact .inr (.inr (.inr ⟨e, .inl ⟨rd, hd, he⟩, ht⟩))
  · rcases commitDout_cases (hexec s ▸ h) with ⟨d, hv, ht⟩ | ⟨e, he, ht⟩
    · exact .inr (.inr (.inl ⟨d, hd, hv, ht⟩))
    · exact .inr (.inr (.inr ⟨e, .inr ⟨hd, he⟩, ht⟩))

/-- No command touches the port or the host's events (R33). -/
theorem exec_host_side {i : Instr} {s t : State} (h : exec i s = .next t) : t.pending = s.pending ∧ t.din = s.din := by
  rcases exec_cases h with ⟨rd, -, rfl⟩ | ⟨rd, v, -, -, rfl⟩ | ⟨d, -, -, rfl⟩ | ⟨e, -, rfl⟩ <;> exact ⟨rfl, rfl⟩

/-! ### What a step can do, by the host's next event -/

/-- With nothing presented the block does nothing (R9). -/
theorem stepIn_idle {p : Profile} {s : State} (h : s.pending = []) : stepIn p s = .next s := by
  simp only [stepIn, h]

/-- A reset event resets the block and leaves the later events (R310). -/
theorem stepIn_reset {p : Profile} {s : State} {rest : List HostEvent} (h : s.pending = .reset :: rest) :
    stepIn p s = .next { s.resetBlock with pending := rest } := by
  simp only [stepIn, h]; rfl

/-- A legal word runs its command with its `DIN` on the port (R10, R82, R318). -/
theorem stepIn_command {p : Profile} {s : State} {cmd : CmdWord} {d : Word64} {rest : List HostEvent} {i : Instr}
    (h : s.pending = .command cmd d :: rest) (hi : decodeIn p cmd = .ok i) :
    stepIn p s = exec i (s.accept d rest) := by
  simp only [stepIn, h, hi]

/-- An illegal word ends as IllegalCommand (R287). -/
theorem stepIn_illegal {p : Profile} {s : State} {cmd : CmdWord} {d : Word64} {rest : List HostEvent} {why : Illegal}
    (h : s.pending = .command cmd d :: rest) (hi : decodeIn p cmd = .error why) :
    stepIn p s = .next ((s.accept d rest).raise .illegalCommand) := by
  simp only [stepIn, h, hi]

/-- Every step answers a next state (R19, R82, R310, R319). -/
theorem stepIn_total (p : Profile) (s : State) : ∃ t, stepIn p s = .next t := by
  match h : s.pending with
  | [] => exact ⟨_, stepIn_idle h⟩
  | .reset :: rest => exact ⟨_, stepIn_reset h⟩
  | .command cmd d :: rest =>
    cases hi : decodeIn p cmd with
    | ok i => rw [stepIn_command h hi]; exact exec_total i _
    | error why => exact ⟨_, stepIn_illegal h hi⟩

/-- Everything the step of a presented command can do: the command of a legal word, or IllegalCommand. -/
theorem stepIn_command_cases {p : Profile} {s t : State} {cmd : CmdWord} {d : Word64} {rest : List HostEvent}
    (h : s.pending = .command cmd d :: rest) (ht : stepIn p s = .next t) :
    (∃ i, decodeIn p cmd = .ok i ∧ exec i (s.accept d rest) = .next t) ∨
    t = (s.accept d rest).raise .illegalCommand := by
  cases hi : decodeIn p cmd with
  | ok i => exact .inl ⟨i, rfl, by rw [← stepIn_command h hi, ht]⟩
  | error why => rw [stepIn_illegal h hi] at ht; cases ht; exact .inr rfl

/-- A command's step takes its event and leaves its `DIN` on the port (R33, R318). -/
theorem stepIn_command_host_side {p : Profile} {s t : State} {cmd : CmdWord} {d : Word64} {rest : List HostEvent}
    (h : s.pending = .command cmd d :: rest) (ht : stepIn p s = .next t) : t.pending = rest ∧ t.din = d := by
  rcases stepIn_command_cases h ht with ⟨i, -, hexec⟩ | rfl
  · exact exec_host_side hexec
  · exact ⟨rfl, rfl⟩

/-! ### The statements -/

/-- Settles O13, by the event that is presented and the shape of the command. -/
theorem everyStepAnswersNext : Obligations.EveryStepAnswersNext := ⟨stepIn_total, exec_total⟩

/-- Settles O12, one clause per form of the pending events. -/
theorem hostSideOfSteps : Obligations.HostSideOfSteps :=
  ⟨rfl, rfl, fun _ h => stepIn_idle h, fun _ _ h => ⟨stepIn_reset h, rfl⟩,
    fun _ _ _ _ _ h ht => stepIn_command_host_side h ht⟩

/-- Settles O8: the model's step is that of profile FULL, so both clauses are the step of a legal word. -/
theorem stepRunsDecodedCommand : Obligations.StepRunsDecodedCommand :=
  fun _ _ _ _ _ h => ⟨fun hi => stepIn_command h hi, fun _ hi => stepIn_command h hi⟩

/-- Settles O7: the list by the mnemonic of each command, the decoder by the row that selects the word. -/
theorem publicProfileIsEleven : Obligations.PublicProfileIsEleven :=
  ⟨isPublic_iff_mnemonic, fun _ _ => decodeIn_iff_full⟩

end Sys2Proof.Machine
end

section
/-! SUPPORT. Profile PUBLIC (R12): from canonical registers its commands make canonical values only, and never end in
SizeMismatch or InvalidDigit, because a canonical value has valid digits and no public command is `ADDM`. -/

namespace Sys2Proof.Machine

/-! ### Checks on every register -/

/-- Writing a value that passes a check keeps the check on every register. -/
theorem everyRegister_write {p : BcdNumber → Bool} {s : State} {rd : RegNum} {v : Option BcdNumber}
    (hs : everyRegister p s) (hv : v.all p = true) : everyRegister p (s.write rd v) := by
  intro r
  rw [State.read_write]
  split
  · exact hv
  · exact hs r

/-- A check on every register holds of a value that is read. -/
theorem everyRegister_read {p : BcdNumber → Bool} {s : State} {r : RegNum} {x : BcdNumber}
    (hs : everyRegister p s) (hx : s.read r = some x) : p x = true := by
  simpa [hx] using hs r

/-- After a reset of the block every check holds, no register being present (R310). -/
theorem everyRegister_resetBlock (p : BcdNumber → Bool) (s : State) : everyRegister p s.resetBlock := by
  intro r
  simp

/-! ### Results that profile PUBLIC admits -/

/-- What a public command may answer from canonical registers: a good result, or an error that is neither SizeMismatch
nor InvalidDigit (R12). -/
def PublicResult {α : Type} (good : α → Prop) : Except Err α → Prop
  | .ok v => good v
  | .error e => e ≠ .sizeMismatch ∧ e ≠ .invalidDigit

section
variable {α : Type} {good : α → Prop}

@[simp] theorem publicResult_ok {v : α} : PublicResult good (.ok v) ↔ good v := Iff.rfl
@[simp] theorem publicResult_error {e : Err} :
    PublicResult good (.error e) ↔ e ≠ .sizeMismatch ∧ e ≠ .invalidDigit := Iff.rfl

/-- A command that reads one source. -/
theorem publicResult_src {s : State} {ra : RegNum} {f : BcdNumber → Except Err α} (hs : regsCanonical s)
    (hf : ∀ x, canonical x = true → PublicResult good (f x)) :
    PublicResult good (do let x ← src s ra; f x) := by
  rcases src_cases (s := s) (r := ra) with ⟨x, hx, hsrc⟩ | ⟨-, hsrc⟩
  · rw [hsrc]; exact hf x (everyRegister_read hs hx)
  · rw [hsrc]; exact ⟨nofun, nofun⟩

/-- A command that reads two sources and does not look at their digits. -/
theorem publicResult_src2 {s : State} {ra rb : RegNum} {f : BcdNumber → BcdNumber → α}
    (hf : ∀ x y, good (f x y)) : PublicResult good (do let (x, y) ← src2 s ra rb; return f x y) := by
  rcases src2_cases (s := s) (ra := ra) (rb := rb) with ⟨x, y, -, -, hsrc⟩ | ⟨-, hsrc⟩
  · rw [hsrc]; exact hf x y
  · rw [hsrc]; exact ⟨nofun, nofun⟩

/-- A command that validates two sources: canonical operands pass the validation (R244, R285). -/
theorem publicResult_arithmetic {s : State} {ra rb : RegNum} {f : BcdNumber → BcdNumber → Except Err α}
    (hs : regsCanonical s)
    (hf : ∀ x y, validDigits x.bits = true → validDigits y.bits = true → PublicResult good (f x y)) :
    PublicResult good (do let (x, y) ← src2 s ra rb; checkDigits x y; f x y) := by
  rcases arithmetic_cases s ra rb f with ⟨-, hres⟩ | ⟨x, y, hx, hy, ⟨hbad, -⟩ | ⟨hvx, hvy, hres⟩⟩
  · rw [hres]; exact ⟨nofun, nofun⟩
  · obtain ⟨hvx, -⟩ := canonical_valid (everyRegister_read hs hx)
    obtain ⟨hvy, -⟩ := canonical_valid (everyRegister_read hs hy)
    simp [hvx, hvy] at hbad
  · rw [hres]; exact hf x y hvx hvy

/-- A computation that succeeds well within capacity and else ends in AllocationFailure (R283). -/
theorem publicResult_of_capacity {within : Prop} {Q : α → Prop} {res : Except Err α}
    (hok : within → ∃ y, res = .ok y ∧ good y ∧ Q y) (herr : ¬ within → res = .error .allocationFailure) :
    PublicResult good res := by
  by_cases hw : within
  · obtain ⟨y, hres, hy, -⟩ := hok hw
    rw [hres]; exact hy
  · rw [herr hw]; exact ⟨nofun, nofun⟩

end

/-! ### The public commands -/

theorem fromInteger_public (n : Int) : PublicResult (canonical · = true) (fromInteger n) :=
  publicResult_of_capacity (fromInteger_spec n).1 fun h => (fromInteger_spec n).2 (by simpa using h)

theorem addSigned_public {a b : BcdNumber} (ha : validDigits a.bits = true) (hb : validDigits b.bits = true) :
    PublicResult (canonical · = true) (addSigned a b) :=
  publicResult_of_capacity (addSigned_spec ha hb).1 (addSigned_spec ha hb).2

theorem subtractSigned_public {a b : BcdNumber} (ha : validDigits a.bits = true) (hb : validDigits b.bits = true) :
    PublicResult (canonical · = true) (subtractSigned a b) :=
  publicResult_of_capacity (subtractSigned_spec ha hb).1 (subtractSigned_spec ha hb).2

theorem multiplySigned_public {a b : BcdNumber} (ha : validDigits a.bits = true) (hb : validDigits b.bits = true) :
    PublicResult (canonical · = true) (multiplySigned a b) := by
  obtain ⟨hzero, hnonzero⟩ := multiplySigned_spec ha hb
  by_cases hz : value a = 0 ∨ value b = 0
  · rw [hzero hz]; exact canonical_zero4
  · obtain ⟨hna, hnb⟩ := not_or.1 hz
    obtain ⟨hok, herr⟩ := hnonzero hna hnb
    exact publicResult_of_capacity hok fun h => herr (by simpa using h)

/-- On valid digits TOINT can only overflow (R134, R135). -/
theorem toInteger_public {x : BcdNumber} (hx : validDigits x.bits = true) :
    PublicResult (fun _ => True) (do let v ← toInteger x; return intDatum v) := by
  obtain ⟨hok, herr⟩ := (toInteger_spec x).2 hx
  by_cases hr : -(2 ^ 63) ≤ value x ∧ value x ≤ 2 ^ 63 - 1
  · rw [hok hr]; trivial
  · rw [herr (by omega)]; exact ⟨nofun, nofun⟩

/-- The public commands with a destination: `FROMINT`, `NEG`, `ADDS`, `SUBS`, `MULS`, and `REL`, for which `regResult`
holds an error that no command reports (R12). -/
theorem regResult_public {i : Instr} {s : State} {rd : RegNum} (hp : i.isPublic = true) (hs : regsCanonical s)
    (hd : i.dest = some rd) : PublicResult (canonical · = true) (regResult i s) := by
  cases i
  case fromint => exact fromInteger_public _
  case neg => exact publicResult_src hs fun x hx => negate_canonical hx
  case adds => exact publicResult_arithmetic hs fun _ _ => addSigned_public
  case subs => exact publicResult_arithmetic hs fun _ _ => subtractSigned_public
  case muls => exact publicResult_arithmetic hs fun _ _ => multiplySigned_public
  case rel => exact ⟨nofun, nofun⟩
  all_goals simp [Instr.isPublic, Instr.dest] at hp hd

/-- The public commands that return a datum: `VGET`, `VLEN`, `VSIGN`, `TOINT`, `CMPS` (R12). -/
theorem doutResult_public {i : Instr} {s : State} (hp : i.isPublic = true) (hs : regsCanonical s)
    (hd : i.dest = none) : PublicResult (fun _ => True) (doutResult i s) := by
  cases i
  case vget => exact publicResult_src hs fun _ _ => trivial
  case vlen => exact publicResult_src hs fun _ _ => trivial
  case vsign => exact publicResult_src hs fun _ _ => trivial
  case toint => exact publicResult_src hs fun x hx => toInteger_public (canonical_valid hx).1
  case cmps => exact publicResult_src2 (f := fun x y => cmpDatum (compareSigned x y)) fun _ _ => trivial
  all_goals simp [Instr.isPublic, Instr.dest] at hp hd

/-- Only SizeMismatch has the code 2 and only InvalidDigit the code 3 (R280). -/
theorem Err.code_ne_two_three {e : Err} (h : e ≠ .sizeMismatch ∧ e ≠ .invalidDigit) : e.code ≠ 2 ∧ e.code ≠ 3 :=
  ⟨fun hc => h.1 (Err.code_injective hc), fun hc => h.2 (Err.code_injective hc)⟩

/-- A public command keeps canonical registers canonical and leaves `STATUS` neither 2 nor 3 (R12). -/
theorem exec_public_keeps_canonical {i : Instr} {s t : State} (hp : i.isPublic = true) (hs : regsCanonical s)
    (h : exec i s = .next t) : regsCanonical t ∧ t.status ≠ 2 ∧ t.status ≠ 3 := by
  rcases exec_cases h with ⟨rd, -, rfl⟩ | ⟨rd, v, hd, hv, rfl⟩ | ⟨d, -, -, rfl⟩ | ⟨e, hres, rfl⟩
  · exact ⟨everyRegister_write hs rfl, by simp⟩
  · have hcan := regResult_public hp hs hd
    rw [hv] at hcan
    exact ⟨everyRegister_write hs hcan, by simp⟩
  · exact ⟨hs, by simp⟩
  · refine ⟨hs, Err.code_ne_two_three ?_⟩
    rcases hres with ⟨rd, hd, he⟩ | ⟨hd, he⟩
    · simpa only [he, publicResult_error] using regResult_public hp hs hd
    · simpa only [he, publicResult_error] using doutResult_public hp hs hd

/-- Settles O57: no event changes nothing, a reset leaves no register present, a public command keeps the invariant,
and an illegal word changes `STATUS` alone. -/
theorem publicKeepsCanonical : Obligations.PublicKeepsCanonical := by
  intro s t hs ht
  match h : s.pending with
  | [] => rw [stepIn_idle h] at ht; cases ht; exact ⟨hs, fun hne => absurd rfl hne⟩
  | .reset :: rest =>
    rw [stepIn_reset h] at ht; cases ht
    exact ⟨everyRegister_resetBlock canonical s, fun _ => by simp⟩
  | .command cmd d :: rest =>
    rcases stepIn_command_cases h ht with ⟨i, hi, hexec⟩ | rfl
    · have hp : i.isPublic = true := (decodeIn_iff_full.1 hi).2
      obtain ⟨hcan, hstatus⟩ := exec_public_keeps_canonical hp (s := s.accept d rest) hs hexec
      exact ⟨hcan, fun _ => hstatus⟩
    · exact ⟨hs, fun _ => Err.code_ne_two_three (e := .illegalCommand) ⟨nofun, nofun⟩⟩

end Sys2Proof.Machine
end

section
/-! SUPPORT. The register file and what commands read and leave unchanged: the port, the registers, `STATUS` and `DOUT`
(spec `10_state.md` R21, R25, R33, R48); the statements about them. -/

namespace Sys2Proof.Machine

/-! ### What commands read -/

/-- The result of a command that does not use `DIN` is the same with any word on the port (R33). -/
theorem results_accept {i : Instr} (hi : i.usesDin = false) (s : State) (d : Word64) (rest : List HostEvent) :
    regResult i (s.accept d rest) = regResult i s ∧ doutResult i (s.accept d rest) = doutResult i s := by
  cases i
  case vcreate | vget | vset | vresize | fromint => cases hi
  all_goals exact ⟨rfl, rfl⟩

/-- With another word on the port, a command that does not use `DIN` leads to the same state but for the port (R33). -/
theorem exec_accept {i : Instr} {s t : State} (hi : i.usesDin = false) (h : exec i s = .next t) (d : Word64)
    (rest : List HostEvent) : exec i (s.accept d rest) = .next (t.accept d rest) := by
  obtain ⟨hreg, hdout⟩ := results_accept hi s d rest
  rcases exec_shape i with ⟨rd, rfl⟩ | ⟨rd, -, hexec⟩ | ⟨-, hexec⟩
  · cases h; rfl
  · rw [hexec, hreg]
    rcases commitReg_cases (hexec s ▸ h) with ⟨v, hres, rfl⟩ | ⟨e, hres, rfl⟩ <;> rw [hres] <;> rfl
  · rw [hexec, hdout]
    rcases commitDout_cases (hexec s ▸ h) with ⟨v, hres, rfl⟩ | ⟨e, hres, rfl⟩ <;> rw [hres] <;> rfl

/-- The same for a change of the port alone, the host's events staying as they are (R33). -/
theorem exec_din {i : Instr} {s t : State} (hi : i.usesDin = false) (h : exec i s = .next t) (d : Word64) :
    exec i { s with din := d } = .next { t with din := d } := by
  have hpend : t.pending = s.pending := (exec_host_side h).1
  have ht : { t with din := d } = t.accept d s.pending := by rw [State.accept, ← hpend]
  rw [ht]
  exact exec_accept hi h d s.pending

/-- The step of a presented command runs on the accepted transaction, whatever the port held before (R33). -/
theorem stepIn_ignores_port {p : Profile} {s : State} {cmd : CmdWord} {d : Word64} {rest : List HostEvent}
    (h : s.pending = .command cmd d :: rest) (old : Word64) : stepIn p { s with din := old } = stepIn p s := by
  cases hi : decodeIn p cmd with
  | ok i => rw [stepIn_command h hi, stepIn_command (s := { s with din := old }) h hi]; rfl
  | error why => rw [stepIn_illegal h hi, stepIn_illegal (s := { s with din := old }) h hi]; rfl

/-- One result handed to the same register ends with the same `STATUS` and, on success, the same content (R48). -/
theorem commitReg_agree {rd : RegNum} {res : Except Err BcdNumber} {s s' t t' : State}
    (h : commitReg rd res s = .next t) (h' : commitReg rd res s' = .next t') :
    t'.status = t.status ∧ (t.status = 0 → t'.read rd = t.read rd) := by
  cases res with
  | ok v => cases h; cases h'; simp
  | error e => cases h; cases h'; exact ⟨rfl, fun hok => absurd hok e.code_ne.1⟩

/-- One result handed to `DOUT` ends with the same `STATUS` and, on success, the same datum (R48). -/
theorem commitDout_agree {res : Except Err Word64} {s s' t t' : State} (h : commitDout res s = .next t)
    (h' : commitDout res s' = .next t') : t'.status = t.status ∧ (t.status = 0 → t'.dout = t.dout) := by
  cases res with
  | ok d => cases h; cases h'; simp
  | error e => cases h; cases h'; exact ⟨rfl, fun hok => absurd hok e.code_ne.1⟩

/-! ### What commands leave unchanged -/

/-- A register that is not the destination keeps its content (R25). -/
theorem exec_read_of_ne_dest {i : Instr} {s t : State} {r : RegNum} (h : exec i s = .next t)
    (hr : i.dest ≠ some r) : t.read r = s.read r := by
  have write_read {rd : RegNum} (hd : i.dest = some rd) (v : Option BcdNumber) : (s.write rd v).read r = s.read r :=
    State.read_write_ne s rd r v fun hrd => hr (hrd ▸ hd)
  rcases exec_cases h with ⟨rd, rfl, rfl⟩ | ⟨rd, v, hd, -, rfl⟩ | ⟨d, -, -, rfl⟩ | ⟨e, -, rfl⟩
  · exact write_read rfl none
  · exact write_read hd (some v)
  · rfl
  · rfl

/-- A command that writes a register keeps `DOUT` (R32). -/
theorem exec_dout_of_dest {i : Instr} {s t : State} (h : exec i s = .next t) (hd : i.dest ≠ none) :
    t.dout = s.dout := by
  rcases exec_cases h with ⟨rd, -, rfl⟩ | ⟨rd, v, -, -, rfl⟩ | ⟨d, hnone, -, rfl⟩ | ⟨e, -, rfl⟩
  · rfl
  · rfl
  · exact absurd hnone hd
  · rfl

/-! ### The statements -/

/-- Settles O15: reading after a write, and the fields a write does not touch. -/
theorem registerFile : Obligations.RegisterFile :=
  fun s r q v => ⟨State.read_write s r q v, rfl, rfl, rfl, rfl⟩

/-- Settles O51, by the ways a command can end. -/
theorem frame : Obligations.Frame := fun _ _ _ h =>
  ⟨fun _ => exec_read_of_ne_dest h, exec_dout_of_dest h, (exec_host_side h).2, (exec_host_side h).1⟩

/-- Settles O14: a step sets the port before its command runs, and the commands that do not use `DIN` compute their
results from the registers. -/
theorem inputsAreNotKept : Obligations.InputsAreNotKept :=
  ⟨fun _ _ _ old _ h => stepIn_ignores_port h old, fun _ _ _ d hi h => exec_din hi h d⟩

/-- Settles O52: the two runs hand the same result to the end of the command. -/
theorem resultDependsOnSourcesOnly : Obligations.ResultDependsOnSourcesOnly := by
  intro i s s' t t' hdin hsrc h h'
  obtain ⟨hreg, hdout⟩ := results_congr hdin hsrc
  rcases exec_shape i with ⟨rd, rfl⟩ | ⟨rd, hd, hexec⟩ | ⟨hd, hexec⟩
  · cases h; cases h'
    refine ⟨rfl, fun _ => ⟨fun r hr => ?_, nofun⟩⟩
    cases hr
    simp
  · rw [hexec] at h h'
    obtain ⟨hstatus, hread⟩ := commitReg_agree h (hreg ▸ h')
    rw [hd]
    refine ⟨hstatus, fun hok => ⟨fun r hr => ?_, nofun⟩⟩
    cases hr
    exact hread hok
  · rw [hexec] at h h'
    obtain ⟨hstatus, hdatum⟩ := commitDout_agree h (hdout ▸ h')
    rw [hd]
    exact ⟨hstatus, fun hok => ⟨nofun, fun _ => hdatum hok⟩⟩

end Sys2Proof.Machine
end

section
/-! SUPPORT. Capacity as an invariant (R21, R105): every vector a command makes passes a capacity test, because the last
operation that gives it its length is `create`, `resize`, `make` or `add`, each of which tests it. No digit is looked
at, so this holds for registers with illegal groups too. -/

namespace Sys2Proof.Machine

/-! ### What holds of a result where there is one -/

/-- A property of the value of a computation, where it ends in one and not in an error. -/
def OnSuccess {α : Type} (P : α → Prop) : Except Err α → Prop
  | .ok v => P v
  | .error _ => True

section
variable {α β : Type} {P : β → Prop}

theorem OnSuccess.of_ok {res : Except Err β} {v : β} (h : OnSuccess P res) (hv : res = .ok v) : P v := by
  subst hv; exact h

/-- A sequence ends in what its last part ends in. -/
theorem onSuccess_bind {res : Except Err α} {f : α → Except Err β} (hf : ∀ a, res = .ok a → OnSuccess P (f a)) :
    OnSuccess P (res >>= f) := by
  cases res with
  | ok a => exact hf a rfl
  | error e => trivial

end

/-! ### The vectors that operations make -/

/-- A vector within capacity (R105). -/
def BitsFit (X : Bits) : Prop := fits X.length = true

/-- A value whose vector is within capacity (R21). -/
def ValueFits (x : BcdNumber) : Prop := BitsFit x.bits

theorem valueFits_zero4 : ValueFits BcdNumber.zero4 := fits_76 (by decide)

/-- `create` tests the size it is asked for (R105). -/
theorem create_tests_size (n : Nat) : OnSuccess (fun _ => fits n = true) (create n) := by
  rw [create_eq]; split
  · assumption
  · trivial

theorem create_fits (n : Nat) : OnSuccess BitsFit (create n) := by
  cases hn : fits n with
  | true => rw [create_ok hn]; exact (congrArg fits (length_zeros n)).trans hn
  | false => rw [create_error hn]; trivial

theorem resize_fits (X : Bits) (n : Nat) : OnSuccess BitsFit (resize X n) := by
  cases hn : fits n with
  | true => rw [resize_ok hn]; exact (congrArg fits (length_resized X n)).trans hn
  | false => rw [resize_error hn]; trivial

theorem make_fits (X : Bits) : OnSuccess BitsFit (make X) := by
  cases hX : fits X.length with
  | true => rw [make_ok hX]; exact hX
  | false => rw [make_error hX]; trivial

/-- An addition answers at most the groups of its first operand, whatever the groups hold. -/
theorem length_addGroups_le : ∀ (as bs : List Digit) (c : Bool), (addGroups as bs c).1.length ≤ as.length
  | a :: as, b :: bs, c => Nat.succ_le_succ (length_addGroups_le as bs (digitStep a b c).2)
  | [], _, _ => Nat.zero_le _
  | _ :: _, [], _ => Nat.zero_le _

/-- The sum has the tested length of the operands, or the tested length with the final carry (R154, R105). -/
theorem add_fits (A B : Bits) : OnSuccess BitsFit (add A B) := by
  unfold add; split
  · trivial
  · rename_i hsize
    refine onSuccess_bind fun Z hZ => ?_
    have hA : fits A.length = true := (create_tests_size A.length).of_ok hZ
    dsimp only; split
    · exact make_fits _
    · refine fits_mono hA ?_
      have hle := length_addGroups_le (groups A) (groups B) false
      rw [length_groups, ngroups_eq] at hle
      rw [length_ofGroups]
      omega

theorem addPadded_fits (A B : Bits) : OnSuccess BitsFit (addPadded A B) :=
  onSuccess_bind fun A' _ => onSuccess_bind fun B' _ => add_fits A' B'

/-- Every step of the walk ends in a padded addition, and the walk starts from a vector that was made (R203, R204). -/
theorem accumulate_fits (A : Bits) (RW : Nat) : ∀ (ds : List Digit) (k : Nat) {total : Bits}, BitsFit total →
    OnSuccess BitsFit (accumulate A RW ds k total)
  | [], _, _, htotal => htotal
  | d :: ds, k, total, htotal => by
    unfold accumulate; split
    · exact accumulate_fits A RW ds (k + 1) htotal
    · exact onSuccess_bind fun P _ => onSuccess_bind fun Q _ => onSuccess_bind fun total' hsum =>
        accumulate_fits A RW ds (k + 1) ((addPadded_fits total Q).of_ok hsum)

theorem multiplyMagnitude_fits (A B : Bits) : OnSuccess BitsFit (multiplyMagnitude A B) :=
  onSuccess_bind fun A' _ => onSuccess_bind fun B' _ => onSuccess_bind fun _ htotal =>
    accumulate_fits A' _ (groups B') 0 ((create_fits _).of_ok htotal)

/-- Each case of the end-around-carry test makes its vector by `resize` or `create` (R185). -/
theorem endAround_fits (cmp : Cmp) (W Wadd : Nat) (U : Bits) : OnSuccess BitsFit (endAround cmp W Wadd U) := by
  unfold endAround; split
  · exact resize_fits U Wadd
  · split
    · exact create_fits 4
    · exact resize_fits U W

theorem subtractMagnitude_fits (A B : Bits) : OnSuccess (fun r => BitsFit r.1) (subtractMagnitude A B) :=
  onSuccess_bind fun _ _ => onSuccess_bind fun _ _ => onSuccess_bind fun _ _ => onSuccess_bind fun T _ =>
    onSuccess_bind fun _ _ => onSuccess_bind fun U _ => onSuccess_bind fun _ hM =>
      (endAround_fits _ (cw A B) T.length U).of_ok hM

/-! ### The values that operations make -/

theorem trim_fits (x : BcdNumber) : OnSuccess ValueFits (trim x) := by
  unfold trim; split
  · exact valueFits_zero4
  · exact onSuccess_bind fun _ hX => (resize_fits x.bits _).of_ok hX

theorem negate_fits {x : BcdNumber} (h : ValueFits x) : ValueFits (negate x) := by
  rw [ValueFits, (negate_spec x).1]; exact h

theorem addSigned_fits (a b : BcdNumber) : OnSuccess ValueFits (addSigned a b) := by
  unfold addSigned; split
  · exact onSuccess_bind fun _ _ => onSuccess_bind fun _ _ => onSuccess_bind fun R _ => trim_fits ⟨R, effneg a⟩
  · exact onSuccess_bind fun (R, t) _ => trim_fits ⟨R, effneg a ^^ t⟩

theorem multiplySigned_fits (a b : BcdNumber) : OnSuccess ValueFits (multiplySigned a b) := by
  unfold multiplySigned; split
  · exact valueFits_zero4
  · exact onSuccess_bind fun P _ => trim_fits ⟨P, effneg a ^^ effneg b⟩

theorem fromInteger_fits (n : Int) : OnSuccess ValueFits (fromInteger n) :=
  onSuccess_bind fun _ hX => (make_fits _).of_ok hX

/-- A source that is read is within capacity where every register is. -/
theorem src_fits {s : State} (hs : regsFit s) (r : RegNum) : OnSuccess ValueFits (src s r) := by
  rcases src_cases (s := s) (r := r) with ⟨x, hx, hsrc⟩ | ⟨-, hsrc⟩
  · rw [hsrc]
    exact (withinMaxBits_eq _).symm.trans (everyRegister_read hs hx)
  · rw [hsrc]; trivial

/-! ### The commands -/

/-- Every value a command hands to its destination is within capacity, if every register is: it was made under a
capacity test, or it has the length of a source. -/
theorem regResult_fits (i : Instr) {s : State} (hs : regsFit s) : OnSuccess ValueFits (regResult i s) := by
  cases i
  case vcreate => exact onSuccess_bind fun _ hX => (create_fits (dinNat s)).of_ok hX
  case vset rd f =>
    refine onSuccess_bind fun x hx => ?_
    have hfit : ValueFits x := (src_fits hs rd).of_ok hx
    exact (congrArg fits (length_setBit x.bits (dinNat s) f)).trans hfit
  case vresize => exact onSuccess_bind fun x _ => onSuccess_bind fun _ hX => (resize_fits x.bits _).of_ok hX
  case vcopy rd ra => exact onSuccess_bind fun _ hx => (src_fits hs ra).of_ok hx
  case fromint => exact fromInteger_fits (dinInt s)
  case trim => exact onSuccess_bind fun x _ => trim_fits x
  case neg rd ra => exact onSuccess_bind fun _ hx => negate_fits ((src_fits hs ra).of_ok hx)
  case addm =>
    refine onSuccess_bind fun (x, y) _ => ?_
    dsimp only; split
    · trivial
    · exact onSuccess_bind fun _ _ => onSuccess_bind fun _ hR => (add_fits x.bits y.bits).of_ok hR
  case subm =>
    exact onSuccess_bind fun (x, y) _ => onSuccess_bind fun _ _ => onSuccess_bind fun _ hM =>
      (subtractMagnitude_fits x.bits y.bits).of_ok hM
  case mulm =>
    exact onSuccess_bind fun (x, y) _ => onSuccess_bind fun _ _ => onSuccess_bind fun _ hP =>
      (multiplyMagnitude_fits x.bits y.bits).of_ok hP
  case adds => exact onSuccess_bind fun (x, y) _ => onSuccess_bind fun _ _ => addSigned_fits x y
  case subs => exact onSuccess_bind fun (x, y) _ => onSuccess_bind fun _ _ => addSigned_fits x (negate y)
  case muls => exact onSuccess_bind fun (x, y) _ => onSuccess_bind fun _ _ => multiplySigned_fits x y
  case vget | vlen | vsign | rel | toint | cmpm | cmps => trivial

/-- Every command keeps a state safe (R21, R105, R280). -/
theorem exec_keeps_safe {i : Instr} {s t : State} (hs : regsFit s) (h : exec i s = .next t) : Safe t := by
  rcases exec_cases h with ⟨rd, -, rfl⟩ | ⟨rd, v, -, hv, rfl⟩ | ⟨d, -, -, rfl⟩ | ⟨e, -, rfl⟩
  · exact ⟨everyRegister_write hs rfl, by simp [statusLegal]⟩
  · have hfit : ValueFits v := (regResult_fits i hs).of_ok hv
    exact ⟨everyRegister_write hs ((withinMaxBits_eq _).trans hfit), by simp [statusLegal]⟩
  · exact ⟨hs, by simp [statusLegal]⟩
  · exact ⟨hs, e.code_ne.2⟩

/-! ### The statements -/

/-- Settles O55, by the event that is presented; a command's step needs the capacity of the registers alone. -/
theorem safeIsInvariant : Obligations.SafeIsInvariant := by
  intro p s t hs ht
  match h : s.pending with
  | [] => rw [stepIn_idle h] at ht; cases ht; exact hs
  | .reset :: rest =>
    rw [stepIn_reset h] at ht; cases ht
    exact ⟨everyRegister_resetBlock _ s, by simp [statusLegal]⟩
  | .command cmd d :: rest =>
    rcases stepIn_command_cases h ht with ⟨i, -, hexec⟩ | rfl
    · exact exec_keeps_safe (s := s.accept d rest) hs.1 hexec
    · exact ⟨hs.1, Err.illegalCommand.code_ne.2⟩

/-- At reset every check on the registers holds, none being present (R36). -/
theorem everyRegister_reset (p : BcdNumber → Bool) : everyRegister p State.reset :=
  everyRegister_resetBlock p State.reset

/-- Settles O56: no register is present at reset, and `STATUS` is 0. -/
theorem resetIsSafe : Obligations.ResetIsSafe :=
  ⟨⟨everyRegister_reset _, by decide⟩, everyRegister_reset _, everyRegister_reset _⟩

end Sys2Proof.Machine
end

section
/-! SUPPORT. Canonical values (spec `10_state.md` R28, R29): what they are group by group, and one for every integer,
also where `MAXBITS` would not let a command make it. -/

namespace Sys2Proof.Machine

/-- The digits of a vector of whole groups are valid when each group is a digit (R28). -/
theorem validDigits_iff_dig {X : Bits} (h : X.length % 4 = 0) :
    validDigits X = true ↔ ∀ k, k < X.length / 4 → (dig X k).toNat ≤ 9 := by
  have hn : ngroups X = X.length / 4 := by rw [ngroups_eq]; omega
  simp [validDigits, groups, hn]

/-- What a canonical value is, group by group (R28, R29). -/
theorem canonical_iff {x : BcdNumber} : canonical x = true ↔
    (x.bits.length % 4 = 0 ∧ 4 ≤ x.bits.length ∧ ∀ k, k < x.bits.length / 4 → (dig x.bits k).toNat ≤ 9) ∧
      (x = BcdNumber.zero4 ∨ dig x.bits (x.bits.length / 4 - 1) ≠ 0) := by
  simp only [canonical, wellFormed, Bool.and_eq_true, Bool.or_eq_true, beq_iff_eq, bne_iff_ne, decide_eq_true_eq,
    and_assoc]
  exact and_congr_right fun h4 => by rw [validDigits_iff_dig h4]

/-- A canonical value other than `ZERO4` is not zero (R29). -/
theorem canonical_not_isZero {x : BcdNumber} (h : canonical x = true) (hne : x ≠ BcdNumber.zero4) :
    isZero x.bits = false := by
  obtain rfl | ⟨n, hlen, hn, -, htop⟩ := canonical_cases h
  · exact absurd rfl hne
  · have hpos : 0 < decval x.bits := (Nat.pow_pos (by omega)).trans_le (decval_ge_of_top hlen hn htop)
    rw [isZero_eq, decide_eq_false_iff_not]
    omega

/-- A vector with valid digits that is not zero, cut above its highest group that is not zero, is canonical with either
sign (R215, R216). -/
theorem canonical_trimmed {X : Bits} (hv : validDigits X = true) (hne : decval X ≠ 0) (sign : Bool) :
    canonical ⟨resized X (4 * significantGroups X), sign⟩ = true := by
  have hsig : significantGroups X ≠ 0 := fun h => hne (significantGroups_eq_zero.1 h)
  exact canonical_of_top (length_resized X _) (by omega) (validDigits_resized hv) (dig_trimmed X hsig)

/-- Every integer is the value of a canonical value (R29). -/
theorem exists_canonical_value (n : Int) : ∃ x, canonical x = true ∧ value x = n := by
  by_cases h0 : n = 0
  · exact ⟨BcdNumber.zero4, canonical_zero4, by rw [h0]; decide⟩
  · obtain ⟨-, hok, hval⟩ := natDigits_spec n.natAbs
    have hdec : decval (ofGroups (natDigits n.natAbs)) = n.natAbs := by rw [decval_ofGroups, hval]
    refine ⟨_, canonical_trimmed (validDigits_ofGroups.2 hok) (by omega) (decide (n < 0)), ?_⟩
    rw [value_mk, decval_trimmed, hdec]
    by_cases hneg : n < 0
    · rw [if_pos (by simpa using hneg)]; omega
    · rw [if_neg (by simpa using hneg)]; omega

/-- Settles O40: the definition spelt out, the sign of a canonical value, existence and uniqueness for every integer. -/
theorem canonicalFormIsUnique : Obligations.CanonicalFormIsUnique := by
  refine ⟨fun _ => canonical_iff, fun x hx => ⟨canonical_not_isZero hx, (canonical_sign hx).symm⟩, fun n => ?_⟩
  obtain ⟨x, hx, hval⟩ := exists_canonical_value n
  exact ⟨x, ⟨hx, hval⟩, fun y ⟨hy, hvaly⟩ => canonical_unique hy hx (hvaly.trans hval.symm)⟩

end Sys2Proof.Machine
end

section
/-! SUPPORT. Repeating a command (spec `20_memory.md` R57): the first run leaves the sources as they were, so the second
computes the same result and finds it already stored. -/

namespace Sys2Proof.Machine

/-! ### What is stored already -/

/-- Writing to a register what it already holds changes nothing. -/
theorem State.write_of_read {s : State} {r : RegNum} {v : Option BcdNumber} (h : s.read r = v) : s.write r v = s := by
  refine State.ext_read (fun q => ?_) rfl rfl rfl rfl
  rw [State.read_write]
  split
  · subst q; exact h.symm
  · rfl

/-- Repeating a write of a register, with the end of the command after each, changes nothing. -/
theorem State.write_done_again (s : State) (r : RegNum) (v : Option BcdNumber) :
    ((s.write r v).done.write r v).done = (s.write r v).done := by
  have hread : (s.write r v).done.read r = v := by simp
  rw [State.write_of_read hread]
  rfl

/-! ### The two ways a command ends, repeated -/

/-- The same result handed to the same register again changes nothing. -/
theorem commitReg_again {rd : RegNum} {res : Except Err BcdNumber} {s t : State} (h : commitReg rd res s = .next t) :
    commitReg rd res t = .next t := by
  rcases commitReg_cases h with ⟨v, rfl, rfl⟩ | ⟨e, rfl, rfl⟩
  · rw [commitReg_ok, State.write_done_again]
  · rfl

/-- The same result handed to `DOUT` again changes nothing. -/
theorem commitDout_again {res : Except Err Word64} {s t : State} (h : commitDout res s = .next t) :
    commitDout res t = .next t := by
  rcases commitDout_cases h with ⟨d, rfl, rfl⟩ | ⟨e, rfl, rfl⟩ <;> rfl

/-! ### The repeated command -/

/-- After a command whose destination is none of its sources, its result is still the same (R48, R57). -/
theorem results_after_exec {i : Instr} {s t : State} (hdest : ∀ r, i.dest = some r → r ∉ i.sources)
    (h : exec i s = .next t) : regResult i t = regResult i s ∧ doutResult i t = doutResult i s :=
  results_congr (exec_host_side h).2 fun r hr => exec_read_of_ne_dest h fun hd => hdest r hd hr

/-- Settles O53: the second run ends with the result of the first, on the state that already holds it. -/
theorem repeatingChangesNothing : Obligations.RepeatingChangesNothing := by
  intro i s t hdest h
  obtain ⟨hreg, hdout⟩ := results_after_exec hdest h
  rcases exec_shape i with ⟨rd, rfl⟩ | ⟨rd, -, hexec⟩ | ⟨-, hexec⟩
  · cases h
    exact congrArg Host.Outcome.next (State.write_done_again s rd none)
  · rw [hexec, hreg]
    exact commitReg_again (hexec s ▸ h)
  · rw [hexec, hdout]
    exact commitDout_again (hexec s ▸ h)

end Sys2Proof.Machine
end

section
/-! SUPPORT. The command word (spec `30_encoding.md` R71, R72, R80 to R83, R87): its fields, the rows of the command
table, that the encoder and the decoder agree, and the statements about them. -/

namespace Sys2Proof.Machine

open Sys2Proof.Laws

/-! ### The fields of a word (R71) -/

section
variable (op : BitVec 5) (rd ra rb : RegNum) (f : Bool) (w : CmdWord)

@[simp] theorem fieldRd_packWord : fieldRd (packWord op rd ra rb f) = rd := by
  ext k hk
  interval_cases k <;> simp [fieldRd, packWord]

@[simp] theorem fieldRa_packWord : fieldRa (packWord op rd ra rb f) = ra := by
  ext k hk
  interval_cases k <;> simp [fieldRa, packWord]

@[simp] theorem fieldRb_packWord : fieldRb (packWord op rd ra rb f) = rb := by
  ext k hk
  interval_cases k <;> simp [fieldRb, packWord]

@[simp] theorem fieldF_packWord : fieldF (packWord op rd ra rb f) = f := by
  simp [fieldF, packWord]

/-- A field cut out of a word and put back in its place is the word masked to that place. -/
theorem extract_in_place (start len : Nat) :
    (w.extractLsb' start len).setWidth 16 <<< start = w &&& (BitVec.allOnes len).setWidth 16 <<< start := by
  ext k hk
  by_cases hs : k < start
  · simp [hs]
  · simp [hs, Nat.add_sub_cancel' (Nat.le_of_not_lt hs), hk, Bool.and_comm]

theorem fieldRd_in_place : (fieldRd w).setWidth 16 <<< 8 = w &&& 0x0700 := extract_in_place w 8 3
theorem fieldRa_in_place : (fieldRa w).setWidth 16 <<< 5 = w &&& 0x00E0 := extract_in_place w 5 3
theorem fieldRb_in_place : (fieldRb w).setWidth 16 <<< 2 = w &&& 0x001C := extract_in_place w 2 3
theorem fieldF_in_place : (BitVec.ofBool (fieldF w)).setWidth 16 <<< 1 = w &&& 0x0002 := by
  have h : BitVec.ofBool (fieldF w) = w.extractLsb' 1 1 := by ext k hk; interval_cases k; simp [fieldF]
  rw [h]
  exact extract_in_place w 1 1
end

/-! ### The rows of the command table (R80) -/

/-- The row's test, as R80 writes it. -/
theorem selects_iff {row : OpRow} {w : CmdWord} : row.selects w = true ↔ w &&& row.mask = row.pattern := beq_iff_eq

/-- The encoder writes the word of a row's command as the row's `match` value with the word's bits where the mask is
0: at the operands the row reads. -/
theorem encode_read {row : OpRow} (hrow : row ∈ opTable) (w : CmdWord) :
    encode (row.read w) = row.pattern ||| (w &&& ~~~row.mask) := by
  fin_cases hrow <;>
    simp [encode, packWord, fieldRd_in_place, fieldRa_in_place, fieldRb_in_place, fieldF_in_place, BitVec.or_assoc,
      ← BitVec.and_or_distrib_left]

/-- The word of a row is the one word of the command the row reads from it (R72, R83). -/
theorem encode_read_of_selects {row : OpRow} (hrow : row ∈ opTable) {w : CmdWord} (h : w &&& row.mask = row.pattern) :
    encode (row.read w) = w := by
  rw [encode_read hrow, ← h, ← BitVec.and_or_distrib_left, BitVec.or_not_self, BitVec.and_allOnes]

/-- Every row fixes the operation code. -/
theorem fieldOp_mask {row : OpRow} (hrow : row ∈ opTable) : fieldOp row.mask = BitVec.allOnes 5 := by
  revert row; decide

/-- A row selects only words with its own operation code. -/
theorem fieldOp_of_selects {row : OpRow} (hrow : row ∈ opTable) {w : CmdWord} (h : w &&& row.mask = row.pattern) :
    fieldOp w = fieldOp row.pattern := by
  have hop : fieldOp (w &&& row.mask) = fieldOp w &&& fieldOp row.mask := BitVec.extractLsb'_and
  rw [← h, hop, fieldOp_mask hrow, BitVec.and_allOnes]

/-- No two rows have the same operation code. -/
theorem opcodes_nodup : (opTable.map fun row => fieldOp row.pattern).Nodup := by decide

/-- The operation code determines the row. -/
theorem row_eq_of_fieldOp {row row' : OpRow} (hrow : row ∈ opTable) (hrow' : row' ∈ opTable)
    (h : fieldOp row.pattern = fieldOp row'.pattern) : row = row' :=
  List.inj_on_of_nodup_map opcodes_nodup hrow hrow' h

/-- No word is selected by two rows. -/
theorem row_unique {w : CmdWord} {row row' : OpRow} (hrow : row ∈ opTable) (hrow' : row' ∈ opTable)
    (h : w &&& row.mask = row.pattern) (h' : w &&& row'.mask = row'.pattern) : row = row' :=
  row_eq_of_fieldOp hrow hrow' ((fieldOp_of_selects hrow h).symm.trans (fieldOp_of_selects hrow' h'))

/-- At most one entry of the table selects a word, because at most one has the word's operation code. -/
theorem countP_selects_le_one (w : CmdWord) : opTable.countP (fun row => w &&& row.mask == row.pattern) ≤ 1 :=
  calc opTable.countP (fun row => w &&& row.mask == row.pattern)
      ≤ opTable.countP (fun row => fieldOp row.pattern == fieldOp w) :=
        List.countP_mono_left fun _ hrow h => beq_iff_eq.2 (fieldOp_of_selects hrow (beq_iff_eq.1 h)).symm
    _ = (opTable.map fun row => fieldOp row.pattern).count (fieldOp w) := by rw [List.count, List.countP_map]; rfl
    _ ≤ 1 := List.nodup_iff_count_le_one.1 opcodes_nodup _

/-! ### The decoder, by the table -/

/-- The decoder's search finds a row exactly when the row selects the word: the first such row is the only one. -/
theorem find_row_iff {w : CmdWord} {row : OpRow} :
    opTable.find? (·.selects w) = some row ↔ row ∈ opTable ∧ w &&& row.mask = row.pattern := by
  have hfound {r : OpRow} (h : opTable.find? (·.selects w) = some r) : r ∈ opTable ∧ w &&& r.mask = r.pattern :=
    ⟨List.mem_of_find?_eq_some h, selects_iff.1 (List.find?_some (p := fun r : OpRow => r.selects w) h)⟩
  refine ⟨hfound, fun ⟨hrow, hsel⟩ => ?_⟩
  have hsome : (opTable.find? (·.selects w)).isSome = true := List.find?_isSome.2 ⟨row, hrow, selects_iff.2 hsel⟩
  obtain ⟨row', hfind⟩ := Option.isSome_iff_exists.1 hsome
  obtain ⟨hrow', hsel'⟩ := hfound hfind
  rw [hfind, row_unique hrow hrow' hsel hsel']

/-- A word decodes to the command of the row of the table that selects it, provided the profile has the command. -/
theorem decodeIn_eq_ok_iff_row {p : Profile} {w : CmdWord} {i : Instr} : decodeIn p w = .ok i ↔
    ∃ row ∈ opTable, w &&& row.mask = row.pattern ∧ row.read w = i ∧ i.inProfile p = true := by
  simp only [decodeIn_eq_ok_iff, find_row_iff, and_assoc]

/-- The reserved codes of `reservedOp` are those R81 lists. -/
theorem reservedOp_iff (op : BitVec 5) : reservedOp op = true ↔ op = 0x00 ∨ op = 0x0D ∨ op = 0x0E ∨ op = 0x0F ∨
    (0x18 ≤ op.toNat ∧ op.toNat ≤ 0x1F) := by
  revert op; decide

/-- No row has a reserved operation code (R81). -/
theorem row_not_reserved {row : OpRow} (hrow : row ∈ opTable) : reservedOp (fieldOp row.pattern) = false := by
  revert row; decide

/-- A word with a reserved operation code is no command, in either profile (R81). -/
theorem decodeIn_ne_ok_of_reserved {p : Profile} {w : CmdWord} (h : reservedOp (fieldOp w) = true) (i : Instr) :
    decodeIn p w ≠ .ok i := by
  intro hok
  obtain ⟨row, hrow, hsel, -⟩ := decodeIn_eq_ok_iff_row.1 hok
  rw [fieldOp_of_selects hrow hsel, row_not_reserved hrow] at h
  cases h

/-! ### A command's own row -/

/-- The row of a command selects the command's word. -/
theorem ownRow_selects : ∀ i, OwnRow.Statement i
  | .vcreate rd => OwnRow.vcreate rd
  | .vget ra => OwnRow.vget ra
  | .vset rd f => OwnRow.vset rd f
  | .vresize rd ra f => OwnRow.vresize rd ra f
  | .vcopy rd ra => OwnRow.vcopy rd ra
  | .vlen ra => OwnRow.vlen ra
  | .vsign ra => OwnRow.vsign ra
  | .rel rd => OwnRow.rel rd
  | .fromint rd => OwnRow.fromint rd
  | .toint ra => OwnRow.toint ra
  | .trim rd ra => OwnRow.trim rd ra
  | .neg rd ra => OwnRow.neg rd ra
  | .addm rd ra rb => OwnRow.addm rd ra rb
  | .subm rd ra rb => OwnRow.subm rd ra rb
  | .mulm rd ra rb => OwnRow.mulm rd ra rb
  | .cmpm ra rb => OwnRow.cmpm ra rb
  | .adds rd ra rb => OwnRow.adds rd ra rb
  | .subs rd ra rb => OwnRow.subs rd ra rb
  | .muls rd ra rb => OwnRow.muls rd ra rb
  | .cmps ra rb => OwnRow.cmps ra rb

/-- The row of a command reads the command's operands back from its word. -/
theorem ownRow_reads (i : Instr) : (opTable[rowNumber i]?).map (·.read (encode i)) = some i := by
  cases i <;> simp [opTable, rowNumber, encode]

/-- Every command's word is selected by a row that reads it as the command. -/
theorem exists_row_of_encode (i : Instr) :
    ∃ row ∈ opTable, encode i &&& row.mask = row.pattern ∧ row.read (encode i) = i := by
  obtain ⟨row, hget, hread⟩ := Option.map_eq_some_iff.1 (ownRow_reads i)
  have hsel : OwnRow.Statement i := ownRow_selects i
  rw [OwnRow.Statement, hget] at hsel
  exact ⟨row, List.mem_of_getElem? hget, selects_iff.1 hsel, hread⟩

/-- The decoder of a profile reads the word of a command of the profile as that command: the command's own row selects
the word and reads it back. -/
theorem decodeIn_encode {p : Profile} {i : Instr} (hp : i.inProfile p = true) : decodeIn p (encode i) = .ok i := by
  obtain ⟨row, hrow, hsel, hread⟩ := exists_row_of_encode i
  exact decodeIn_eq_ok_iff_row.2 ⟨row, hrow, hsel, hread, hp⟩

/-- The decoder of the table's numbering reads a command's word, taken as a number, as the command. -/
theorem decodeTableWord_encode (i : Instr) : decodeTableWord 16 (encode i).toNat = some i := by
  have hdec : decode (encode i) = .ok i := decodeIn_encode (p := .full) rfl
  have hlt : (encode i).toNat % 2 ^ 16 = (encode i).toNat := Nat.mod_eq_of_lt (encode i).isLt
  simp only [decodeTableWord, hlt, (encode i).isLt, if_true, BitVec.ofNat_toNat, BitVec.setWidth_eq, hdec]
  rfl

/-! ### What the statements about steps need -/

/-- A word that decodes to no command ends as IllegalCommand (R82, R287). -/
theorem stepIn_of_not_legal {p : Profile} {s : State} {cmd : CmdWord} {d : Word64} {rest : List HostEvent}
    (h : s.pending = .command cmd d :: rest) (hno : ∀ i, decodeIn p cmd ≠ .ok i) :
    stepIn p s = .next ((s.accept d rest).raise .illegalCommand) := by
  cases hi : decodeIn p cmd with
  | ok i => exact absurd hi (hno i)
  | error why => exact stepIn_illegal h hi

/-- `fromInteger(0)` is `ZERO4` (R132, R139): one group needs no more than the least capacity. -/
theorem fromInteger_zero : fromInteger 0 = .ok BcdNumber.zero4 := by
  have hmake : make (ofGroups (natDigits 0)) = .ok BcdNumber.zero4.bits := make_ok (fits_76 (by decide))
  simp only [fromInteger, fromNat, Int.natAbs_zero, hmake]
  rfl

/-! ### The statements -/

/-- Settles O1, by the row of each command. -/
theorem decodeEncodeRoundTrip : Obligations.DecodeEncodeRoundTrip := fun _ _ hp => decodeIn_encode hp

/-- Settles O2: outside its operands the word is its row's `match` value, which the encoder writes. -/
theorem decodedWordIsEncoding : Obligations.DecodedWordIsEncoding := by
  intro p w i h
  obtain ⟨row, hrow, hsel, rfl, hp⟩ := decodeIn_eq_ok_iff_row.1 h
  exact ⟨encode_read_of_selects hrow hsel, hp⟩

/-- Settles O3: every row fixes the operation code, and no two rows share one. -/
theorem legalWordsAreTableRows : Obligations.LegalWordsAreTableRows := by
  intro w
  have hdec : ∀ row ∈ opTable, w &&& row.mask = row.pattern → decodeIn .full w = .ok (row.read w) :=
    fun row hrow hsel => decodeIn_eq_ok_iff_row.2 ⟨row, hrow, hsel, rfl, rfl⟩
  refine ⟨⟨?_, ?_⟩, countP_selects_le_one w, hdec⟩
  · rintro ⟨i, hi⟩
    obtain ⟨row, hrow, hsel, -⟩ := decodeIn_eq_ok_iff_row.1 hi
    exact ⟨row, hrow, hsel⟩
  · rintro ⟨row, hrow, hsel⟩
    exact ⟨_, hdec row hrow hsel⟩

/-- Settles O4: no row has a reserved operation code. -/
theorem reservedOpcodesAreIllegal : Obligations.ReservedOpcodesAreIllegal := fun _ =>
  ⟨fun w hop => decodeIn_ne_ok_of_reserved ((reservedOp_iff (fieldOp w)).2 hop),
    decodeIn_ne_ok_of_reserved (by decide), decodeIn_ne_ok_of_reserved (by decide)⟩

/-- Settles O5: a row that selected the word would have the given row's operation code, and so be that row. -/
theorem unusedFieldsMustBeZero : Obligations.UnusedFieldsMustBeZero := by
  intro p row w hrow hop hsel i hi
  obtain ⟨row', hrow', hsel', -⟩ := decodeIn_eq_ok_iff_row.1 hi
  obtain rfl := row_eq_of_fieldOp hrow' hrow ((fieldOp_of_selects hrow' hsel').symm.trans hop)
  exact hsel hsel'

/-- Settles O9: in either case the decoder of the profile answers no command. -/
theorem illegalCommandSetsStatusOnly : Obligations.IllegalCommandSetsStatusOnly := by
  intro p s cmd d rest hpend hill
  refine stepIn_of_not_legal hpend fun i hi => ?_
  obtain ⟨row, hrow, hsel, rfl, hp⟩ := decodeIn_eq_ok_iff_row.1 hi
  rcases hill with hnone | ⟨row', hrow', hsel', hout⟩
  · exact hnone row hrow hsel
  · obtain rfl := row_unique hrow hrow' hsel hsel'
    rw [hp] at hout
    cases hout

/-- Settles O6: each word is the encoding of its command. -/
theorem decodeTableWords : Obligations.DecodeTableWords :=
  ⟨decodeTableWord_encode (.vcreate 3), decodeTableWord_encode (.vget 2), decodeTableWord_encode (.vset 3 true),
    decodeTableWord_encode (.vresize 1 0 true), decodeTableWord_encode (.fromint 7), decodeTableWord_encode (.toint 7),
    decodeTableWord_encode (.trim 5 4), decodeTableWord_encode (.neg 1 0), decodeTableWord_encode (.addm 2 0 1),
    decodeTableWord_encode (.subm 5 3 4), decodeTableWord_encode (.mulm 4 2 3), decodeTableWord_encode (.cmpm 0 1),
    decodeTableWord_encode (.adds 2 0 1), decodeTableWord_encode (.cmps 3 3)⟩

/-- Settles O58: the word of `CLR` decodes to `FROMINT`, which runs with 0 on the port. -/
theorem pseudoCommands : Obligations.PseudoCommands := by
  refine ⟨fun _ _ => rfl, fun rd s rest hpend => ?_⟩
  have hdec : decodeIn .full (encode (.fromint rd)) = .ok (.fromint rd) := decodeIn_encode rfl
  calc step s = exec (.fromint rd) (s.accept 0 rest) := stepIn_command hpend hdec
    _ = commitReg rd (fromInteger 0) (s.accept 0 rest) := rfl
    _ = .next ((s.accept 0 rest).write rd (some BcdNumber.zero4)).done := by rw [fromInteger_zero, commitReg_ok]
    _ = _ := rfl

end Sys2Proof.Machine
end

section
/-! SUPPORT. The vector commands (spec `40_bitvector.md` R100 to R114): what a command with one source register does
while that register is absent, what it does while it is present, and the statements about the vector commands. -/

namespace Sys2Proof.Machine

/-! ### The operation code of a word (R71) -/

@[simp] theorem fieldOp_packWord (op : BitVec 5) (rd ra rb : RegNum) (f : Bool) :
    fieldOp (packWord op rd ra rb f) = op := by
  ext k hk
  interval_cases k <;> simp [fieldOp, packWord]

/-! ### Bits and data, as the statements write them -/

/-- A bit or flag in `DOUT` is 1 or 0 (R53, R74). -/
theorem bitDatum_eq (b : Bool) : bitDatum b = if b then 1 else 0 := by cases b <;> rfl

/-- A length is stored modulo `2^64` (R74, R112). -/
theorem lenDatum_eq (n : Nat) : lenDatum n = BitVec.ofNat 64 (n % 2 ^ 64) :=
  BitVec.eq_of_toNat_eq (by simp [lenDatum])

/-- Inside the vector `set` replaces one bit (R102). -/
theorem setBit_lt {X : Bits} {i : Nat} (h : i < X.length) (b : Bool) : setBit X i b = X.set i b := if_pos h

/-- At or above the length `set` changes nothing (R102). -/
theorem setBit_ge {X : Bits} {i : Nat} (h : X.length ≤ i) (b : Bool) : setBit X i b = X := if_neg (by omega)

/-- A resized vector, bit by bit in index order: the source's bits, 0 beyond its end (R101, R103). -/
theorem resized_eq_map_getBit (X : Bits) (n : Nat) : resized X n = (List.range n).map (getBit X) := by
  refine List.ext_getElem (by simp) fun i hi _ => ?_
  have hn : i < n := length_resized X n ▸ hi
  rw [← getBit_lt hi, getBit_resized, if_pos hn, List.getElem_map, List.getElem_range]

/-! ### Commands that read one source register (R111, R286) -/

section
variable {s : State} {rd r : RegNum} {x : BcdNumber}

/-- An absent source ends a command that writes a register, whatever it computes afterwards. -/
theorem commitReg_src_absent (h : s.read r = none) (k : BcdNumber → Except Err BcdNumber) :
    commitReg rd (src s r >>= k) s = .next (s.raise .absentOperand) := by
  rw [src_absent h]; rfl

theorem commitReg_src_present (h : s.read r = some x) (k : BcdNumber → Except Err BcdNumber) :
    commitReg rd (src s r >>= k) s = commitReg rd (k x) s := by
  rw [src_present h]; rfl

/-- An absent source ends a command that returns a datum, whatever it computes afterwards. -/
theorem commitDout_src_absent (h : s.read r = none) (k : BcdNumber → Except Err Word64) :
    commitDout (src s r >>= k) s = .next (s.raise .absentOperand) := by
  rw [src_absent h]; rfl

theorem commitDout_src_present (h : s.read r = some x) (k : BcdNumber → Except Err Word64) :
    commitDout (src s r >>= k) s = commitDout (k x) s := by
  rw [src_present h]; rfl

/-- Every command with one source reads it before anything else, so it ends as AbsentOperand where the source is absent
(R111, R286). -/
theorem exec_of_absent_source {i : Instr} (hi : i.sources = [r]) (h : s.read r = none) :
    exec i s = .next (s.raise .absentOperand) := by
  cases i
  case vset | vresize | vcopy | trim | neg => cases hi; exact commitReg_src_absent h _
  case vget | vlen | vsign | toint => cases hi; exact commitDout_src_absent h _
  all_goals cases hi

end

/-! ### The vector commands with a present source -/

section
variable {s : State} {ra : RegNum} {x : BcdNumber}

/-- R107: the bit at `DIN`. -/
theorem exec_vget_present (h : s.read ra = some x) :
    exec (.vget ra) s = .next (s.setDout (bitDatum (getBit x.bits s.din.toNat))).done :=
  commitDout_src_present h _

/-- R108: the bits after `set`, with the stored sign. -/
theorem exec_vset_present (h : s.read ra = some x) (f : Bool) :
    exec (.vset ra f) s = .next (s.write ra (some ⟨setBit x.bits s.din.toNat f, x.neg⟩)).done :=
  commitReg_src_present h _

/-- R109 within `MAXBITS`: the resized bits; `f` keeps the stored sign. -/
theorem exec_vresize_fits (h : s.read ra = some x) (rd : RegNum) (f : Bool) (hfit : fits s.din.toNat = true) :
    exec (.vresize rd ra f) s =
      .next (s.write rd (some ⟨resized x.bits s.din.toNat, if f then x.neg else false⟩)).done := by
  refine (commitReg_src_present h _).trans ?_
  rw [dinNat, resize_ok hfit]; rfl

/-- R109 beyond `MAXBITS` (R105). -/
theorem exec_vresize_too_long (h : s.read ra = some x) (rd : RegNum) (f : Bool) (hfit : fits s.din.toNat = false) :
    exec (.vresize rd ra f) s = .next (s.raise .allocationFailure) := by
  refine (commitReg_src_present h _).trans ?_
  rw [dinNat, resize_error hfit]; rfl

/-- R110: the whole value, its stored sign with its bits. -/
theorem exec_vcopy_present (h : s.read ra = some x) (rd : RegNum) :
    exec (.vcopy rd ra) s = .next (s.write rd (some x)).done :=
  commitReg_src_present h _

/-- R112: the length. -/
theorem exec_vlen_present (h : s.read ra = some x) :
    exec (.vlen ra) s = .next (s.setDout (lenDatum x.bits.length)).done :=
  commitDout_src_present h _

/-- R113: the stored sign flag. -/
theorem exec_vsign_present (h : s.read ra = some x) :
    exec (.vsign ra) s = .next (s.setDout (bitDatum x.neg)).done :=
  commitDout_src_present h _

end

/-! ### The statements -/

/-- Settles O19: the three ends of the command, with the resized vector read bit by bit. -/
theorem vresizeKeepsLowBits : Obligations.VresizeKeepsLowBits := by
  refine fun rd ra f s => ⟨fieldOp_packWord .., exec_of_absent_source rfl, fun x hx => ⟨fun hfit => ?_, fun hfit => ?_⟩⟩
  · rw [exec_vresize_fits hx rd f (withinMaxBits_eq _ ▸ hfit), resized_eq_map_getBit]
    cases f <;> rfl
  · exact exec_vresize_too_long hx rd f (withinMaxBits_eq _ ▸ hfit)

/-- Settles O16: no register is read, so the capacity test alone decides. -/
theorem vcreateMakesZeroVector : Obligations.VcreateMakesZeroVector := by
  refine fun rd s => ⟨fieldOp_packWord .., fun hfit => ?_, fun hfit => ?_⟩ <;> rw [withinMaxBits_eq] at hfit
  · rw [exec, execVcreate, dinNat, create_ok hfit]; rfl
  · rw [exec, execVcreate, dinNat, create_error hfit]; rfl

/-- Settles O17: `get` below and from the length on. -/
theorem vgetAnswersBit : Obligations.VgetAnswersBit := by
  refine fun ra s => ⟨fieldOp_packWord .., exec_of_absent_source rfl, fun x hx => ⟨fun hlt => ?_, fun hge => ?_⟩⟩
  · rw [exec_vget_present hx, getBit_lt hlt, bitDatum_eq]; rfl
  · rw [exec_vget_present hx, getBit_ge hge]; rfl

/-- Settles O18: `set` below and from the length on, where the register is written with what it holds. -/
theorem vsetWritesBit : Obligations.VsetWritesBit := by
  refine fun rd f s => ⟨fieldOp_packWord .., exec_of_absent_source rfl, fun x hx => ⟨fun hlt => ?_, fun hge => ?_⟩⟩
  · rw [exec_vset_present hx, setBit_lt hlt]; rfl
  · rw [exec_vset_present hx, setBit_ge hge, State.write_of_read hx]; rfl

/-- Settles O20: onto itself a register is written with what it holds. -/
theorem vcopyCopiesValue : Obligations.VcopyCopiesValue := by
  refine fun rd ra s => ⟨fieldOp_packWord .., exec_of_absent_source rfl, fun x hx => exec_vcopy_present hx rd, ?_⟩
  intro hne
  obtain ⟨x, hx⟩ := Option.ne_none_iff_exists'.1 hne
  rw [exec_vcopy_present hx, State.write_of_read hx]; rfl

/-- Settles O21: the two fields of the value, laid out as data. -/
theorem vlenAndVsignAnswerFields : Obligations.VlenAndVsignAnswerFields := by
  refine fun ra s => ⟨fieldOp_packWord .., fieldOp_packWord ..,
    fun h => ⟨exec_of_absent_source rfl h, exec_of_absent_source rfl h⟩, fun x hx => ⟨?_, ?_⟩⟩
  · rw [exec_vlen_present hx, lenDatum_eq]; rfl
  · rw [exec_vsign_present hx, bitDatum_eq]; rfl

/-- Settles O22: after the release the register reads as absent, which ends every command with it as its source. -/
theorem relReleasesRegister : Obligations.RelReleasesRegister := by
  refine fun rd s => ⟨fieldOp_packWord .., rfl, fun h => ?_, fun t ht => ?_⟩
  · rw [exec, execRel, State.write_of_read h]; rfl
  · cases ht
    have hread : (s.write rd none).done.read rd = none := by simp
    refine ⟨hread, fun i u hi hu => ?_⟩
    rw [exec_of_absent_source hi hread] at hu
    cases hu; rfl

end Sys2Proof.Machine
end

section
/-! SUPPORT. The digit codec (spec `41_digit_codec.md` R130 to R139): the digits of a decimal value, the integers a word
holds, what `fromInteger` and `toInteger` do with them, and the statements about the two conversions. -/

namespace Sys2Proof.Machine

/-! ### The digits of a decimal value (R14, R139) -/

/-- Digit `k` of a sequence of decimal digits is read off its value; beyond the end it is 0. -/
theorem digitsVal_digit : ∀ {ds : List Digit}, digitsOk ds → ∀ k,
    (ds[k]?.getD 0).toNat = digitsVal ds / 10 ^ k % 10
  | [], _, k => by simp
  | d :: ds, h, 0 => by
    obtain ⟨hd, -⟩ := digitsOk_cons.1 h
    simp only [List.getElem?_cons_zero, Option.getD_some, digitsVal_cons]
    omega
  | d :: ds, h, k + 1 => by
    obtain ⟨hd, hds⟩ := digitsOk_cons.1 h
    have hrest : (d.toNat + 10 * digitsVal ds) / 10 = digitsVal ds := by omega
    rw [List.getElem?_cons_succ, digitsVal_digit hds k, digitsVal_cons, Nat.pow_succ', ← Nat.div_div_eq_div_mul, hrest]

/-- Group `k` of a vector with valid digits is decimal digit `k` of its value. -/
theorem dig_eq_decimal_digit {X : Bits} (hX : validDigits X = true) (k : Nat) :
    (dig X k).toNat = decval X / 10 ^ k % 10 := by
  have hdig : dig X k = (groups X)[k]?.getD 0 := by
    rw [groups_getElem?]
    split
    · rfl
    · exact dig_beyond (Nat.le_of_not_lt ‹_›)
  rw [hdig, digitsVal_digit (validDigits_iff.1 hX), decval]

/-! ### The integers of a word (R53) -/

/-- The signed value of a word is a 64-bit integer. -/
theorem word_toInt_range (w : Word64) : -(2 ^ 63) ≤ w.toInt ∧ w.toInt ≤ 2 ^ 63 - 1 :=
  ⟨BitVec.le_toInt w, Int.le_sub_one_of_lt BitVec.toInt_lt⟩

/-- The pattern of a 64-bit integer holds that integer. -/
theorem toInt_intDatum {n : Int} (hn : -(2 ^ 63) ≤ n ∧ n ≤ 2 ^ 63 - 1) : (intDatum n).toInt = n := by
  obtain ⟨hlo, hhi⟩ := hn
  rw [intDatum, BitVec.toInt_ofInt, Int.bmod_eq_of_le (by omega) (by omega)]

/-- The pattern of a word's signed value is the word. -/
theorem intDatum_toInt (w : Word64) : intDatum w.toInt = w := BitVec.ofInt_toInt

/-- The magnitude of a 64-bit integer has at most 19 decimal digits, so its vector has at most 76 bits. -/
theorem digitCount_word_le (w : Word64) : digitCount w.toInt.natAbs ≤ 19 := by
  obtain ⟨hlo, hhi⟩ := word_toInt_range w
  exact digitCount_le (by omega) (by omega)

/-! ### The conversions (R132 to R135) -/

/-- `fromInteger` of a 64-bit integer succeeds with its canonical value, under every `MAXBITS` (R11, R132). -/
theorem fromInteger_word (w : Word64) : ∃ x, fromInteger w.toInt = .ok x ∧ canonical x = true ∧ value x = w.toInt ∧
    x.neg = decide (w.toInt < 0) ∧ x.bits.length = 4 * digitCount w.toInt.natAbs :=
  (fromInteger_spec w.toInt).1 (fromInteger_64 w)

/-- When `toInteger` succeeds, and with what (R134, R135). -/
theorem toInteger_eq_ok_iff {x : BcdNumber} {n : Int} : toInteger x = .ok n ↔
    validDigits x.bits = true ∧ (-(2 ^ 63) ≤ value x ∧ value x ≤ 2 ^ 63 - 1) ∧ value x = n := by
  obtain ⟨hbad, hgood⟩ := toInteger_spec x
  constructor
  · intro h
    cases hv : validDigits x.bits with
    | false => rw [hbad hv] at h; cases h
    | true =>
      obtain ⟨hok, herr⟩ := hgood hv
      by_cases hr : -(2 ^ 63) ≤ value x ∧ value x ≤ 2 ^ 63 - 1
      · rw [hok hr] at h; cases h; exact ⟨rfl, hr, rfl⟩
      · rw [herr (by omega)] at h; cases h
  · rintro ⟨hv, hr, rfl⟩
    exact (hgood hv).1 hr

/-- `toInteger` of the canonical value of a word's integer answers the integer. -/
theorem toInteger_of_canonical_word {x : BcdNumber} {w : Word64} (hx : canonical x = true) (hval : value x = w.toInt) :
    toInteger x = .ok w.toInt :=
  toInteger_eq_ok_iff.2 ⟨(canonical_valid hx).1, hval ▸ word_toInt_range w, hval⟩

/-- Wherever the canonical value of a number is within capacity, `trim` of every operand of that number answers it: the
trimmed operand is canonical too, and a canonical value is determined by its number (R29, R216). -/
theorem trim_eq_of_canonical {x y : BcdNumber} (hx : validDigits x.bits = true) (hy : canonical y = true)
    (hval : value y = value x) (hfit : fits y.bits.length = true) : trim x = .ok y := by
  obtain ⟨hzero, hnonzero⟩ := trim_spec x
  by_cases h0 : decval x.bits = 0
  · have hy0 : value y = value BcdNumber.zero4 := hval.trans (value_eq_zero.2 h0)
    rw [hzero h0, canonical_unique hy canonical_zero4 hy0]
  · have htrimmed : value ⟨resized x.bits (4 * significantGroups x.bits), x.neg⟩ = value x := by
      rw [value_mk, decval_trimmed, ← value_mk]
    obtain rfl := canonical_unique hy (canonical_trimmed hx h0 x.neg) (hval.trans htrimmed.symm)
    exact (hnonzero h0).1 (by rwa [length_resized] at hfit)

/-! ### The commands (R136, R137) -/

/-- R136: the result of the conversion is written. -/
theorem exec_fromint_of_ok {rd : RegNum} {s : State} {x : BcdNumber} (h : fromInteger s.din.toInt = .ok x) :
    exec (.fromint rd) s = .next (s.write rd (some x)).done := by
  rw [exec, execFromint, dinInt, h, commitReg_ok]

section
variable {s : State} {ra : RegNum} {x : BcdNumber}

/-- R137 with a present source: the conversion ends the command in its error. -/
theorem exec_toint_of_error (hread : s.read ra = some x) {e : Err} (h : toInteger x = .error e) :
    exec (.toint ra) s = .next (s.raise e) := by
  refine (commitDout_src_present hread _).trans ?_
  rw [h]; rfl

/-- R137 with a present source: the converted integer is laid out in `DOUT`. -/
theorem exec_toint_of_ok (hread : s.read ra = some x) {n : Int} (h : toInteger x = .ok n) :
    exec (.toint ra) s = .next (s.setDout (intDatum n)).done := by
  refine (commitDout_src_present hread _).trans ?_
  rw [h]; rfl

end

/-! ### The statements -/

/-- Settles O24: `m` lies between two neighbouring powers of ten, which fixes its logarithm. -/
theorem digitCountIsDecimalLength : Obligations.DigitCountIsDecimalLength := by
  refine ⟨rfl, fun m hm => ?_⟩
  obtain ⟨hpos, hlt, hge⟩ := digitCount_spec m
  have hsucc : digitCount m - 1 + 1 = digitCount m := Nat.sub_add_cancel hpos
  rw [Nat.log_eq_of_pow_le_of_lt_pow (hge hm) (hsucc.symm ▸ hlt), hsucc]

/-- Settles O25: `fromInteger` of the `DIN` cannot fail, and its digits are those of the magnitude. -/
theorem fromintWritesCanonicalValue : Obligations.FromintWritesCanonicalValue := by
  intro rd s
  obtain ⟨x, hok, hcan, hval, hneg, hlen⟩ := fromInteger_word s.din
  have h76 : x.bits.length ≤ 76 := by have := digitCount_word_le s.din; omega
  refine ⟨fieldOp_packWord .., x, exec_fromint_of_ok hok, hcan, hval, hneg, hlen, h76, fun k => ?_⟩
  rw [dig_eq_decimal_digit (canonical_valid hcan).1, ← value_natAbs, hval]

/-- Settles O26: the absent source, then the three ends of `toInteger`. -/
theorem tointAnswersValue : Obligations.TointAnswersValue := by
  refine fun ra s => ⟨fieldOp_packWord .., exec_of_absent_source rfl, fun x hread => ?_⟩
  obtain ⟨hbad, hgood⟩ := toInteger_spec x
  refine ⟨fun hv => exec_toint_of_error hread (hbad hv), fun hv hout => exec_toint_of_error hread ((hgood hv).2 hout),
    fun hv hlo hhi => ⟨intDatum (value x), toInt_intDatum ⟨hlo, hhi⟩, ?_⟩⟩
  exact exec_toint_of_ok hread ((hgood hv).1 ⟨hlo, hhi⟩)

/-- Settles O27: every 64-bit integer is the value of a word, and its canonical value is within capacity. -/
theorem integerRoundTrip : Obligations.IntegerRoundTrip := by
  constructor
  · intro n hlo hhi
    obtain ⟨x, hok, hcan, hval, -⟩ := fromInteger_word (intDatum n)
    have hback := toInteger_of_canonical_word hcan hval
    rw [toInt_intDatum ⟨hlo, hhi⟩] at hok hback
    exact ⟨x, hok, hback⟩
  · intro x n h
    obtain ⟨hv, hr, rfl⟩ := toInteger_eq_ok_iff.1 h
    obtain ⟨y, hok, hcan, hval, -⟩ := fromInteger_word (intDatum (value x))
    rw [toInt_intDatum hr] at hok hval
    exact ⟨y, hok, trim_eq_of_canonical hv hcan hval ((fromInteger_fits _).of_ok hok), hcan, hval⟩

/-- Settles O28: the register holds the canonical value of the first `DIN`, which `TOINT` reads back. -/
theorem fromintThenToint : Obligations.FromintThenToint := by
  intro r s d
  obtain ⟨x, hok, hcan, hval, -⟩ := fromInteger_word s.din
  have hread : ((s.write r (some x)).done.accept d s.pending).read r = some x := by simp
  refine ⟨_, _, exec_fromint_of_ok hok, rfl, exec_toint_of_ok hread (toInteger_of_canonical_word hcan hval), rfl, ?_⟩
  exact intDatum_toInt s.din

end Sys2Proof.Machine
end

section
/-! SUPPORT. The corrector and the adder (spec `42_corrector_adder.md` R150 to R163): what the corrector does on a raw
sum, the bit-by-bit addition of a group, a command with two source registers while one of them is absent, what ADDM does
on two present operands, and the statements about the three. -/

namespace Sys2Proof.Machine

/-! ### The corrector (R150, R151) -/

section
variable {v : Digit} {bc : Bool}

/-- The corrector's test on the sum and the bit-carry is one comparison of the raw sum. -/
theorem corrects_iff : (9 < v.toNat ∨ bc = true) ↔ 10 ≤ 16 * bc.toNat + v.toNat := by
  cases bc <;> simp <;> omega

/-- Rows 0 to 9 of the table. -/
theorem correct_below_ten (h : 16 * bc.toNat + v.toNat < 10) : correct v bc = (v, false) :=
  if_neg fun hc => absurd (corrects_iff.1 hc) (Nat.not_le.2 h)

/-- Rows 10 to 31 of the table: 6 is added on 4 bits. -/
theorem correct_from_ten (h : 10 ≤ 16 * bc.toNat + v.toNat) :
    correct v bc = (BitVec.ofNat 4 ((v.toNat + 6) % 16), true) := by
  have hadd : v + Config.corr = BitVec.ofNat 4 ((v.toNat + 6) % 16) := BitVec.eq_of_toNat_eq (by simp [Config.corr])
  rw [correct, if_pos (corrects_iff.2 h), hadd]

/-- On the raw sums of two decimal digits and a carry the table gives the decimal digit and carry (R151). -/
theorem correct_decimal (h : 16 * bc.toNat + v.toNat ≤ 19) : correct v bc =
    (BitVec.ofNat 4 ((16 * bc.toNat + v.toNat) % 10), decide ((16 * bc.toNat + v.toNat) / 10 = 1)) := by
  have hv := v.isLt
  by_cases hlow : 16 * bc.toNat + v.toNat < 10
  · have hraw : 16 * bc.toNat + v.toNat = v.toNat := by omega
    rw [correct_below_ten hlow, Nat.mod_eq_of_lt hlow, Nat.div_eq_of_lt hlow, hraw, BitVec.ofNat_toNat,
      BitVec.setWidth_eq]
    rfl
  · have hdigit : (v.toNat + 6) % 16 = (16 * bc.toNat + v.toNat) % 10 := by omega
    have hcarry : (16 * bc.toNat + v.toNat) / 10 = 1 := by omega
    rw [correct_from_ten (Nat.le_of_not_lt hlow), hdigit, hcarry]; rfl

end

/-! ### The bit positions of a group (R159) -/

/-- The bit-to-bit carries are those of the 4-bit sum, so the four bit positions hold that sum. -/
theorem rippleSum_eq_add (a b : Digit) (cin : Bool) :
    rippleSum a b cin = (a + b + (BitVec.ofBool cin).setWidth 4, BitVec.carry 4 a b cin) := by
  have hbit (j : Nat) (hj : j < 4) : (a + b + (BitVec.ofBool cin).setWidth 4).getLsbD j =
      (a.getLsbD j ^^ b.getLsbD j ^^ BitVec.carry j a b cin) := by rw [BitVec.getLsbD_add_add_bool hj, Bool.xor_assoc]
  rw [← nib_groups (a + b + (BitVec.ofBool cin).setWidth 4), hbit 3 (by decide), hbit 2 (by decide),
    hbit 1 (by decide), hbit 0 (by decide)]
  simp only [BitVec.carry_succ, BitVec.carry_zero]
  rfl

/-- The 4-bit sum of two groups and a carry is their raw sum modulo 16. -/
theorem add_add_ofBool (a b : Digit) (cin : Bool) : a + b + (BitVec.ofBool cin).setWidth 4 =
    BitVec.ofNat 4 ((a.toNat + b.toNat + cin.toNat) % 16) :=
  BitVec.eq_of_toNat_eq (by simp [BitVec.toNat_add])

/-- The carry out of a group is the raw sum's weight 16 (R152). -/
theorem carry_four (a b : Digit) (cin : Bool) :
    BitVec.carry 4 a b cin = decide ((a.toNat + b.toNat + cin.toNat) / 16 = 1) := by
  have hc := cin.toNat_le
  have ha := a.isLt
  have hb := b.isLt
  simp only [BitVec.carry, decide_eq_decide]
  omega

/-! ### Commands that read two source registers (R111, R286) -/

section
variable {s : State} {rd ra rb : RegNum} {x y : BcdNumber}

/-- An absent operand ends a command that writes a register, whatever it computes afterwards. -/
theorem commitReg_src2_absent (h : s.read ra = none ∨ s.read rb = none)
    (k : BcdNumber × BcdNumber → Except Err BcdNumber) :
    commitReg rd (src2 s ra rb >>= k) s = .next (s.raise .absentOperand) := by
  rw [src2_absent h]; rfl

theorem commitReg_src2_present (hx : s.read ra = some x) (hy : s.read rb = some y)
    (k : BcdNumber × BcdNumber → Except Err BcdNumber) :
    commitReg rd (src2 s ra rb >>= k) s = commitReg rd (k (x, y)) s := by
  rw [src2_present hx hy]; rfl

/-- An absent operand ends a command that returns a datum, whatever it computes afterwards. -/
theorem commitDout_src2_absent (h : s.read ra = none ∨ s.read rb = none)
    (k : BcdNumber × BcdNumber → Except Err Word64) :
    commitDout (src2 s ra rb >>= k) s = .next (s.raise .absentOperand) := by
  rw [src2_absent h]; rfl

/-- Every command with two sources but `CMPM` reads both before anything else, so it ends as AbsentOperand where one of
them is absent (R111, R286). -/
theorem exec_of_absent_operand {i : Instr} (hi : i.sources = [ra, rb]) (hcmpm : i ≠ .cmpm ra rb)
    (h : s.read ra = none ∨ s.read rb = none) : exec i s = .next (s.raise .absentOperand) := by
  cases i
  case addm | subm | mulm | adds | subs | muls => cases hi; exact commitReg_src2_absent h _
  case cmps => cases hi; exact commitDout_src2_absent h _
  case cmpm => cases hi; exact absurd rfl hcmpm
  all_goals cases hi

/-! ### ADDM with two present operands (R160) -/

/-- R163: lengths that differ or are no multiple of 4, whatever the digits. -/
theorem exec_addm_mismatch (hx : s.read ra = some x) (hy : s.read rb = some y) (rd : RegNum)
    (h : x.bits.length ≠ y.bits.length ∨ x.bits.length % 4 ≠ 0) :
    exec (.addm rd ra rb) s = .next (s.raise .sizeMismatch) := by
  refine (commitReg_src2_present hx hy _).trans ?_
  dsimp only
  rw [if_pos h]; rfl

/-- R285(b): operands of the same whole groups, one of them with an illegal digit. -/
theorem exec_addm_invalid (hx : s.read ra = some x) (hy : s.read rb = some y) (rd : RegNum)
    (hsize : ¬(x.bits.length ≠ y.bits.length ∨ x.bits.length % 4 ≠ 0))
    (h : validDigits x.bits = false ∨ validDigits y.bits = false) :
    exec (.addm rd ra rb) s = .next (s.raise .invalidDigit) := by
  refine (commitReg_src2_present hx hy _).trans ?_
  dsimp only
  rw [if_neg hsize, checkDigits_error h]; rfl

/-- Past both tests the addition decides. -/
theorem exec_addm_valid (hx : s.read ra = some x) (hy : s.read rb = some y) (rd : RegNum)
    (hsize : ¬(x.bits.length ≠ y.bits.length ∨ x.bits.length % 4 ≠ 0))
    (hvx : validDigits x.bits = true) (hvy : validDigits y.bits = true) :
    exec (.addm rd ra rb) s = commitReg rd ((add x.bits y.bits).map (⟨·, false⟩)) s := by
  refine (commitReg_src2_present hx hy _).trans ?_
  dsimp only
  rw [if_neg hsize, checkDigits_ok hvx hvy]
  cases add x.bits y.bits <;> rfl

end

/-! ### The statements -/

/-- Settles O31: the tests in their order; past them `add_spec` gives the sum, its length, and the capacity clause. -/
theorem addmAddsMagnitudes : Obligations.AddmAddsMagnitudes := by
  refine fun rd ra rb s => ⟨fieldOp_packWord .., exec_of_absent_operand rfl nofun, fun x y hx hy =>
    ⟨exec_addm_mismatch hx hy rd, fun hl h4 => ?_⟩⟩
  have hsize : ¬(x.bits.length ≠ y.bits.length ∨ x.bits.length % 4 ≠ 0) := by omega
  refine ⟨exec_addm_invalid hx hy rd hsize, fun hvx hvy hfit => ?_⟩
  rw [withinMaxBits_eq] at hfit ⊢
  rw [exec_addm_valid hx hy rd hsize hvx hvy]
  obtain ⟨hsame, hgrow⟩ := add_spec hl h4 hvx hvy hfit
  refine ⟨fun hlt => ?_, fun hge => ⟨fun hroom => ?_, fun hfull => ?_⟩⟩
  · obtain ⟨R, hadd, hR⟩ := hsame hlt
    exact ⟨R, by rw [hadd]; rfl, hR⟩
  · obtain ⟨R, hadd, hR⟩ := (hgrow hge).1 hroom
    exact ⟨R, by rw [hadd]; rfl, hR⟩
  · rw [(hgrow hge).2 hfull]; rfl

/-- Settles O29: the rows below 10, the rows from 10 on, and the rows two decimal digits and a carry can reach. -/
theorem correctorTable : Obligations.CorrectorTable :=
  fun _ _ => ⟨correct_below_ten, correct_from_ten, correct_decimal⟩

/-- Settles O30: the bit positions hold the 4-bit sum, and the last carry is the raw sum's quotient by 16. -/
theorem bitwiseSumIsRawSum : Obligations.BitwiseSumIsRawSum := fun a b cin => by
  rw [rippleSum_eq_add, add_add_ofBool, carry_four]

end Sys2Proof.Machine
end

section
/-! SUPPORT. The comparator (spec `43_comparator.md` R170 to R175): when two vectors have the same binary value, each
result of `compareMagnitude` as a relation of binary values, what CMPM does on the result of its comparison, and the
statements about the two. -/

namespace Sys2Proof.Machine

/-! ### Vectors of the same binary value (R13) -/

/-- Zero bits at the high end add nothing to the binary value. -/
theorem val_append_zeros (X : Bits) (n : Nat) : val (X ++ zeros n) = val X := by
  rw [val_append, val_zeros, Nat.mul_zero, Nat.add_zero]

/-- A vector is determined by its length and its binary value. -/
theorem eq_of_val {X Y : Bits} (hl : X.length = Y.length) (h : val X = val Y) : X = Y :=
  List.ext_getElem hl fun i hX hY => by rw [← getBit_lt hX, ← getBit_lt hY, ← val_testBit, ← val_testBit, h]

/-- Vectors of the same binary value differ only by zero bits at the high end: each is padded by the other's length. -/
theorem val_eq_iff_append_zeros {X Y : Bits} : val X = val Y ↔ ∃ m n, X ++ zeros m = Y ++ zeros n := by
  constructor
  · intro h
    refine ⟨Y.length, X.length, eq_of_val ?_ ?_⟩
    · simp only [List.length_append, length_zeros]; omega
    · rw [val_append_zeros, val_append_zeros, h]
  · rintro ⟨m, n, h⟩
    rw [← val_append_zeros X m, h, val_append_zeros]

/-! ### The results of the comparator as relations of binary values (R172) -/

section
variable {A B : Bits}

theorem compareMagnitude_less : compareMagnitude A B = .less ↔ val A < val B := by
  rw [compareMagnitude_val, cmpNat_less]

theorem compareMagnitude_equal : compareMagnitude A B = .equal ↔ val A = val B := by
  rw [compareMagnitude_val, cmpNat_equal]

theorem compareMagnitude_greater : compareMagnitude A B = .greater ↔ val B < val A := by
  rw [compareMagnitude_val, cmpNat_greater]

end

/-- The datum of a comparison of natural numbers, as the statements write it (R90). -/
theorem cmpDatum_cmpNat (a b : Nat) : cmpDatum (cmpNat a b) = natOrderDatum a b := by
  unfold cmpNat natOrderDatum
  split_ifs <;> rfl

/-- On valid digits the binary values and the decimal values have one order, that of the comparator (R172). -/
theorem natOrderDatum_val_eq_decval {A B : Bits} (hA : validDigits A = true) (hB : validDigits B = true) :
    natOrderDatum (val A) (val B) = natOrderDatum (decval A) (decval B) := by
  rw [← cmpDatum_cmpNat, ← cmpDatum_cmpNat, ← compareMagnitude_val, compareMagnitude_decval hA hB]

/-! ### CMPM (R173, R174) -/

section
variable {s : State} {ra rb : RegNum}

/-- A comparison that has a result ends in that result's datum. -/
theorem exec_cmpm_of_ok {c : Cmp} (h : compareOperands (s.read ra) (s.read rb) = .ok c) :
    exec (.cmpm ra rb) s = .next (s.setDout (cmpDatum c)).done := by
  rw [exec, execCmpm, h]; rfl

/-- Two absent operands have no order. -/
theorem exec_cmpm_both_absent (ha : s.read ra = none) (hb : s.read rb = none) :
    exec (.cmpm ra rb) s = .next (s.raise .absentOperand) := by
  rw [exec, execCmpm, compareOperands_absent.2 ⟨ha, hb⟩]; rfl

/-- An absent first operand is the smaller. -/
theorem exec_cmpm_first_absent (ha : s.read ra = none) (hb : s.read rb ≠ none) :
    exec (.cmpm ra rb) s = .next (s.setDout (cmpDatum .less)).done := by
  obtain ⟨y, hy⟩ := Option.ne_none_iff_exists'.1 hb
  exact exec_cmpm_of_ok (by rw [ha, hy]; rfl)

/-- A present first operand is the greater of an absent second. -/
theorem exec_cmpm_second_absent (ha : s.read ra ≠ none) (hb : s.read rb = none) :
    exec (.cmpm ra rb) s = .next (s.setDout (cmpDatum .greater)).done := by
  obtain ⟨x, hx⟩ := Option.ne_none_iff_exists'.1 ha
  exact exec_cmpm_of_ok (by rw [hx, hb]; rfl)

/-- Two present operands are compared by their binary values. -/
theorem exec_cmpm_present {x y : BcdNumber} (hx : s.read ra = some x) (hy : s.read rb = some y) :
    exec (.cmpm ra rb) s = .next (s.setDout (natOrderDatum (val x.bits) (val y.bits))).done := by
  rw [← cmpDatum_cmpNat, ← compareMagnitude_val]
  exact exec_cmpm_of_ok (by rw [hx, hy]; rfl)

end

/-! ### The statements -/

/-- Settles O32, by which of the two operands are present. -/
theorem cmpmOrdersMagnitudes : Obligations.CmpmOrdersMagnitudes :=
  fun _ _ _ => ⟨fieldOp_packWord .., exec_cmpm_both_absent, exec_cmpm_first_absent, exec_cmpm_second_absent,
    fun _ _ hx hy => ⟨exec_cmpm_present hx hy, natOrderDatum_val_eq_decval⟩⟩

/-- Settles O33: the properties are those of `=` and `<` on the binary values, and equal binary values are equal
vectors up to zero bits at the high end. -/
theorem compareIsTotalPreorder : Obligations.CompareIsTotalPreorder := by
  intro A B C
  refine ⟨compareMagnitude_equal.2 rfl, ?_, ?_, compareMagnitude_less.trans compareMagnitude_greater.symm, ?_, ?_,
    compareMagnitude_equal.trans val_eq_iff_append_zeros⟩
  · simpa only [compareMagnitude_equal] using Eq.symm
  · simpa only [compareMagnitude_equal] using Eq.trans
  · simpa only [compareMagnitude_less] using lt_trans
  · simpa only [compareMagnitude_greater] using fun hBA hCB => lt_trans hCB hBA

end Sys2Proof.Machine
end

section
/-! SUPPORT. The subtractor (spec `44_subtractor.md` R180 to R191): a command that checks the digits of its two operands
before it computes, SUBM past that check, the magnitude as a distance of integers, and the statement about SUBM. -/

namespace Sys2Proof.Machine

/-! ### Commands that check the digits of two present operands (R285) -/

section
variable {s : State} {rd ra rb : RegNum} {x y : BcdNumber}

/-- An illegal digit ends a command that writes a register, whatever it computes afterwards. -/
theorem commitReg_checkDigits_invalid (h : validDigits x.bits = false ∨ validDigits y.bits = false)
    (k : Unit → Except Err BcdNumber) : commitReg rd (checkDigits x y >>= k) s = .next (s.raise .invalidDigit) := by
  rw [checkDigits_error h]; rfl

theorem commitReg_checkDigits_valid (hvx : validDigits x.bits = true) (hvy : validDigits y.bits = true)
    (k : Unit → Except Err BcdNumber) : commitReg rd (checkDigits x y >>= k) s = commitReg rd (k ()) s := by
  rw [checkDigits_ok hvx hvy]; rfl

/-- Every command with two sources that checks digits, but `ADDM`, checks them before anything else, so it ends as
InvalidDigit where a present operand has an illegal one (R285). -/
theorem exec_of_invalid_digits {i : Instr} (hi : i.sources = [ra, rb]) (hdigits : i.checksDigits = true)
    (hsize : i.mayMismatch = false) (hx : s.read ra = some x) (hy : s.read rb = some y)
    (h : validDigits x.bits = false ∨ validDigits y.bits = false) : exec i s = .next (s.raise .invalidDigit) := by
  cases i
  case subm | mulm | adds | subs | muls =>
    cases hi; exact (commitReg_src2_present hx hy _).trans (commitReg_checkDigits_invalid h _)
  case addm => cases hsize
  case cmpm | cmps => cases hdigits
  all_goals cases hi

/-! ### SUBM with two present operands (R188) -/

/-- Past the check the subtraction decides. -/
theorem exec_subm_valid (hx : s.read ra = some x) (hy : s.read rb = some y) (rd : RegNum)
    (hvx : validDigits x.bits = true) (hvy : validDigits y.bits = true) :
    exec (.subm rd ra rb) s =
      commitReg rd ((subtractMagnitude x.bits y.bits).map fun r => ⟨r.1, r.2⟩) s := by
  refine (commitReg_src2_present hx hy _).trans ((commitReg_checkDigits_valid hvx hvy _).trans ?_)
  cases subtractMagnitude x.bits y.bits <;> rfl

end

/-- The magnitude as a distance of integers (R180): of the two truncated differences one is zero. -/
theorem SubResult.magnitude_eq_abs {A B M : Bits} {sign : Bool} (h : SubResult A B M sign) :
    (decval M : Int) = |(decval A : Int) - decval B| := by
  rw [h.magnitude]
  rcases Nat.le_total (decval B) (decval A) with hle | hle
  · rw [abs_of_nonneg (by omega)]; omega
  · rw [abs_of_nonpos (by omega)]; omega

/-! ### The statement -/

/-- Settles O34: past the checks `subtractMagnitude_spec` gives the capacity clause and the result, whose sign is that
of the difference. -/
theorem submSubtractsMagnitudes : Obligations.SubmSubtractsMagnitudes := by
  refine fun rd ra rb s => ⟨fieldOp_packWord .., exec_of_absent_operand rfl nofun, fun x y hx hy =>
    ⟨exec_of_invalid_digits rfl rfl rfl hx hy, fun hvx hvy => ?_⟩⟩
  rw [withinMaxBits_eq, exec_subm_valid hx hy rd hvx hvy]
  obtain ⟨hroom, hfull⟩ := subtractMagnitude_spec hvx hvy
  refine ⟨fun hfit => ?_, fun hfit => ?_⟩
  · rw [hfull hfit]; rfl
  · obtain ⟨M, sign, hsub, hres⟩ := hroom hfit
    refine ⟨M, ?_, hres.magnitude_eq_abs, hres.valid, hres.width⟩
    rw [hsub, ← hres.sign_eq]; rfl

end Sys2Proof.Machine
end

section
/-! SUPPORT. The multiplier (spec `45_multiplier.md` R200 to R209): MULM past the check of its digits, and the statement
about MULM. -/

namespace Sys2Proof.Machine

/-! ### MULM with two present operands of valid digits (R205) -/

/-- The product of the magnitudes decides; the result is non-negative whatever the stored signs. -/
theorem exec_mulm_valid {s : State} {ra rb : RegNum} {x y : BcdNumber} (hx : s.read ra = some x)
    (hy : s.read rb = some y) (rd : RegNum) (hvx : validDigits x.bits = true) (hvy : validDigits y.bits = true) :
    exec (.mulm rd ra rb) s = commitReg rd ((multiplyMagnitude x.bits y.bits).map (⟨·, false⟩)) s := by
  refine (commitReg_src2_present hx hy _).trans ((commitReg_checkDigits_valid hvx hvy _).trans ?_)
  cases multiplyMagnitude x.bits y.bits <;> rfl

/-! ### The statement -/

/-- Settles O35: past the checks `multiplyMagnitude_spec` gives the capacity clause and the exact product at the width
of both padded operands. -/
theorem mulmMultipliesMagnitudes : Obligations.MulmMultipliesMagnitudes := by
  refine fun rd ra rb s => ⟨fieldOp_packWord .., exec_of_absent_operand rfl nofun, fun x y hx hy =>
    ⟨exec_of_invalid_digits rfl rfl rfl hx hy, fun hvx hvy => ?_⟩⟩
  rw [withinMaxBits_eq, exec_mulm_valid hx hy rd hvx hvy]
  obtain ⟨hroom, hfull⟩ := multiplyMagnitude_spec hvx hvy
  refine ⟨fun hfit => ?_, fun hfit => ?_⟩
  · rw [hfull hfit]; rfl
  · obtain ⟨P, hmul, hP⟩ := hroom hfit
    exact ⟨P, by rw [hmul]; rfl, hP⟩

end Sys2Proof.Machine
end

section
/-! SUPPORT. The canonicalizer and negation (spec `46_canonicalizer.md` R215 to R222): the highest group that is not zero
fixes what `trim` keeps, the two ends of a `trim` that succeeds, the two fields of a negated value, and the statements
about TRIM and NEG. -/

namespace Sys2Proof.Machine

/-! ### The groups `trim` keeps (R215) -/

section
variable {X : Bits}

/-- From the significant groups on every group is zero. -/
theorem dig_eq_zero_of_significantGroups_le {k : Nat} (h : significantGroups X ≤ k) : dig X k = 0 := by
  obtain ⟨hle, hsplit, -⟩ := significantGroups_spec X
  rcases Nat.lt_or_ge k (ngroups X) with hk | hk
  · have hlen : ((groups X).take (significantGroups X)).length = significantGroups X := by simp [hle]
    have hget := groups_getElem? X k
    rw [hsplit, List.getElem?_append_right (by omega), List.getElem?_replicate, if_pos (by omega), if_pos hk] at hget
    exact (Option.some.inj hget).symm
  · exact dig_beyond hk

/-- The number of significant groups is fixed by the highest group that is not zero. -/
theorem significantGroups_of_top {h : Nat} (htop : dig X h ≠ 0) (habove : ∀ k, h < k → dig X k = 0) :
    significantGroups X = h + 1 := by
  have hlt : h < significantGroups X := Nat.lt_of_not_le fun hle => htop (dig_eq_zero_of_significantGroups_le hle)
  have hlast := (significantGroups_spec X).2.2 (by omega)
  have hge : ¬ h < significantGroups X - 1 := fun hgt => hlast (habove _ hgt)
  omega

/-- Trimming keeps every group, the zero groups read beyond its end included (R216). -/
theorem dig_resized_significantGroups (X : Bits) (k : Nat) : dig (resized X (4 * significantGroups X)) k = dig X k := by
  rcases Nat.lt_or_ge k (significantGroups X) with hk | hk
  · exact dig_congr fun j hj => by rw [getBit_resized, if_pos (by omega)]
  · rw [dig_eq_zero_of_significantGroups_le hk, dig_beyond (ngroups_of_length (length_resized X _) ▸ hk)]

/-- The trimmed vector has no leading zero group left. -/
theorem significantGroups_trimmed (h : decval X ≠ 0) :
    significantGroups (resized X (4 * significantGroups X)) = significantGroups X := by
  have hpos : significantGroups X ≠ 0 := fun h0 => h (significantGroups_eq_zero.1 h0)
  have htop := significantGroups_of_top (dig_trimmed X hpos) fun k hk => by
    rw [dig_resized_significantGroups, dig_eq_zero_of_significantGroups_le (by omega)]
  omega

end

/-! ### `trim` and `negate` (R215 to R220) -/

section
variable {x y : BcdNumber}

/-- The two ends of a `trim` that succeeds. -/
theorem trim_eq_ok_iff : trim x = .ok y ↔
    (decval x.bits = 0 ∧ y = BcdNumber.zero4) ∨
    (decval x.bits ≠ 0 ∧ fits (4 * significantGroups x.bits) = true ∧
      y = ⟨resized x.bits (4 * significantGroups x.bits), x.neg⟩) := by
  obtain ⟨hzero, hnonzero⟩ := trim_spec x
  by_cases h0 : decval x.bits = 0
  · simp [hzero h0, h0, eq_comm (a := y)]
  · obtain ⟨hroom, hfull⟩ := hnonzero h0
    cases hf : fits (4 * significantGroups x.bits) with
    | true => simp [hroom hf, h0, eq_comm (a := y)]
    | false => simp [hfull hf, h0]

/-- A trimmed value is what `trim` makes of it, also where its groups are no digits. -/
theorem trim_idempotent (h : trim x = .ok y) : trim y = .ok y := by
  obtain ⟨-, rfl⟩ | ⟨h0, hfit, rfl⟩ := trim_eq_ok_iff.1 h
  · exact (trim_spec BcdNumber.zero4).1 (by decide)
  · refine trim_eq_ok_iff.2 (.inr ⟨by rwa [decval_trimmed], ?_, ?_⟩) <;> rw [significantGroups_trimmed h0]
    · exact hfit
    · have hself := resized_self (resized x.bits (4 * significantGroups x.bits))
      rw [length_resized] at hself
      rw [hself]

theorem trim_decval (h : trim x = .ok y) : decval y.bits = decval x.bits := by
  obtain ⟨h0, rfl⟩ | ⟨-, -, rfl⟩ := trim_eq_ok_iff.1 h
  · rw [h0]; decide
  · exact decval_trimmed x.bits

theorem trim_dig (h : trim x = .ok y) (k : Nat) : dig y.bits k = dig x.bits k := by
  obtain ⟨h0, rfl⟩ | ⟨-, -, rfl⟩ := trim_eq_ok_iff.1 h
  · have hnone := significantGroups_eq_zero.2 h0
    have hnone4 : significantGroups BcdNumber.zero4.bits = 0 := by decide
    rw [dig_eq_zero_of_significantGroups_le (hnone4 ▸ k.zero_le), dig_eq_zero_of_significantGroups_le (hnone ▸ k.zero_le)]
  · exact dig_resized_significantGroups x.bits k

/-- `trim` answers `ZERO4` exactly for a zero, as it keeps every other value (R216). -/
theorem trim_eq_zero4_iff (h : trim x = .ok y) : y = BcdNumber.zero4 ↔ isZero x.bits = true := by
  rw [isZero_iff_decval]
  constructor
  · rintro rfl
    exact (trim_decval h).symm
  · intro h0
    obtain ⟨-, hy⟩ | ⟨hne, -, -⟩ := trim_eq_ok_iff.1 h
    · exact hy
    · exact absurd h0 hne

@[simp] theorem negate_bits (x : BcdNumber) : (negate x).bits = x.bits := (negate_spec x).1

/-- The stored sign of a negated value is its effective sign: it is never set on a zero (R219). -/
theorem negate_neg (x : BcdNumber) : (negate x).neg = (!isZero x.bits && !x.neg) := by
  rw [negate]
  cases h : isZero x.bits <;> rfl

/-- Negating twice keeps the effective sign, though not the stored sign of a zero (R220). -/
theorem effneg_negate_negate (x : BcdNumber) : effneg (negate (negate x)) = effneg x := by
  simp only [effneg, negate_neg, negate_bits]
  cases isZero x.bits <;> simp

end

/-! ### The commands with a present source (R218, R221) -/

section
variable {s : State} {ra : RegNum} {x : BcdNumber}

theorem exec_trim_of_ok (hread : s.read ra = some x) (rd : RegNum) {y : BcdNumber} (h : trim x = .ok y) :
    exec (.trim rd ra) s = .next (s.write rd (some y)).done := by
  refine (commitReg_src_present hread _).trans ?_
  rw [h, commitReg_ok]

theorem exec_trim_of_error (hread : s.read ra = some x) (rd : RegNum) {e : Err} (h : trim x = .error e) :
    exec (.trim rd ra) s = .next (s.raise e) := by
  refine (commitReg_src_present hread _).trans ?_
  rw [h, commitReg_error]

/-- Negation makes no vector, so it cannot fail. -/
theorem exec_neg_present (hread : s.read ra = some x) (rd : RegNum) :
    exec (.neg rd ra) s = .next (s.write rd (some (negate x))).done :=
  commitReg_src_present hread _

end

/-! ### The statements -/

/-- Settles O36: the highest group that is not zero fixes the length of the trimmed vector, which decides between the
result and the error. -/
theorem trimCutsLeadingZeroGroups : Obligations.TrimCutsLeadingZeroGroups := by
  refine fun rd ra s => ⟨fieldOp_packWord .., exec_of_absent_source rfl, fun x hx => ?_⟩
  obtain ⟨hzero, hnonzero⟩ := trim_spec x
  refine ⟨fun h0 => exec_trim_of_ok hx rd (hzero (isZero_iff_decval.1 h0)), fun h htop habove => ?_⟩
  have hsig : significantGroups x.bits = h + 1 := significantGroups_of_top htop habove
  have hne : decval x.bits ≠ 0 := fun h0 => by rw [significantGroups_eq_zero.2 h0] at hsig; omega
  obtain ⟨hroom, hfull⟩ := hnonzero hne
  have hlen : 4 * significantGroups x.bits = 4 * h + 4 := by omega
  rw [hlen] at hroom hfull
  rw [withinMaxBits_eq]
  refine ⟨fun hfit => ?_, fun hfit => exec_trim_of_error hx rd (hfull hfit)⟩
  rw [exec_trim_of_ok hx rd (hroom hfit), resized_eq_map_getBit]; rfl

/-- Settles O37: `trim` keeps every group and with them the value; for valid digits its result is canonical, and a
canonical value is determined by its number. -/
theorem trimProperties : Obligations.TrimProperties := by
  intro x y h
  refine ⟨trim_idempotent h, trim_decval h, trim_dig h, fun hv => ?_, fun hx => ?_, trim_eq_zero4_iff h⟩
  · obtain ⟨hy, hval⟩ := trim_canonical hv h
    exact ⟨hval, hy, fun z hz hvalz => canonical_unique hz hy hvalz⟩
  · obtain ⟨hy, hval⟩ := trim_canonical (canonical_valid hx).1 h
    exact canonical_unique hy hx hval

/-- Settles O39: the vector stays, so the number changes by its sign alone. -/
theorem negateProperties : Obligations.NegateProperties := fun x =>
  ⟨fun _ => (negate_spec x).2.1, by simp, effneg_negate_negate x, negate_canonical, by simp⟩

/-- Settles O38: the two branches of `negate`, on a zero and on any other vector. -/
theorem negInvertsSign : Obligations.NegInvertsSign := by
  refine fun rd ra s => ⟨fieldOp_packWord .., exec_of_absent_source rfl, fun x hx => ⟨fun h0 => ?_, fun hne => ?_⟩⟩
  · rw [exec_neg_present hx, negate, if_pos h0]; rfl
  · rw [exec_neg_present hx, negate, if_neg (by simp [hne])]; rfl

end Sys2Proof.Machine
end

section
/-! SUPPORT. The reset (spec `70_reset_and_hazards.md` R310, R312), the host's read-out of a register by commands and its
rendering of a number (`47_signed_ops.md` R246, R247), and the statements about them. -/

namespace Sys2Proof.Machine

/-! ### Reading a register out (R247) -/

/-- The datum a command leaves is `DOUT` of the state it leads to. -/
theorem doutAfter_of_exec {i : Instr} {s t : State} (h : exec i s = .next t) : doutAfter i s = some t.dout := by
  rw [doutAfter, h]

/-- `VGET` with an index below the length answers that bit: the index fits `DIN` where the length fits `DOUT`. -/
theorem doutAfter_vget {s : State} {r : RegNum} {x : BcdNumber} (hx : s.read r = some x)
    (hlen : x.bits.length < 2 ^ 64) {i : Nat} (hi : i < x.bits.length) :
    doutAfter (.vget r) { s with din := BitVec.ofNat 64 i } = some (if x.bits[i] then 1 else 0) := by
  have hread : ({ s with din := BitVec.ofNat 64 i } : State).read r = some x := hx
  have hdin : (BitVec.ofNat 64 i).toNat = i := Nat.mod_eq_of_lt (hi.trans hlen)
  rw [doutAfter_of_exec (exec_vget_present hread), hdin, getBit_lt hi, bitDatum_eq]
  rfl

/-! ### The rendering of a number (R246) -/

/-- Groups added above do not change the text of a group of the vector below. -/
theorem groupText_append_of_lt {X : Bits} {k : Nat} (hk : 4 * k + 4 ≤ X.length) (Y : Bits) :
    groupText (X ++ Y) k = groupText X k := by
  have hbit (j : Nat) (hj : j < X.length) : getBit (X ++ Y) j = getBit X j := by rw [getBit_append, if_pos hj]
  simp only [groupText, hbit _ (show 4 * k + 3 < X.length by omega), hbit _ (show 4 * k + 2 < X.length by omega),
    hbit _ (show 4 * k + 1 < X.length by omega), hbit _ (show 4 * k < X.length by omega)]

/-- The text of the group that stands right above `k` whole groups. -/
theorem groupText_append_top {X : Bits} {k : Nat} (hk : X.length = 4 * k) (b0 b1 b2 b3 : Bool) :
    groupText (X ++ [b0, b1, b2, b3]) k = String.ofList [bitChar b3, bitChar b2, bitChar b1, bitChar b0] := by
  have hbit (j : Nat) : getBit (X ++ [b0, b1, b2, b3]) (4 * k + j) = getBit [b0, b1, b2, b3] j := by
    rw [getBit_append, if_neg (by omega), hk, Nat.add_sub_cancel_left]
  have hbit0 := hbit 0
  rw [Nat.add_zero] at hbit0
  rw [groupText, hbit0, hbit, hbit, hbit]; rfl

/-- A single group is rendered without a separator. -/
theorem bodyText_single (sep : String) (b0 b1 b2 b3 : Bool) :
    bodyText sep [b0, b1, b2, b3] = String.ofList [bitChar b3, bitChar b2, bitChar b1, bitChar b0] := by
  have hgroups : ngroups [b0, b1, b2, b3] = 1 := ngroups_of_length rfl
  rw [bodyText, hgroups, List.range_one, List.reverse_singleton, List.map_singleton, String.intercalate_singleton]
  rfl

/-- A group above others stands to their left, with the separator between. -/
theorem bodyText_append_top (sep : String) {X : Bits} {n : Nat} (hX : X.length = 4 * n + 4) (b0 b1 b2 b3 : Bool) :
    bodyText sep (X ++ [b0, b1, b2, b3]) =
      String.ofList [bitChar b3, bitChar b2, bitChar b1, bitChar b0] ++ sep ++ bodyText sep X := by
  have hlow : ngroups X = n + 1 := ngroups_of_length hX
  have hall : ngroups (X ++ [b0, b1, b2, b3]) = n + 2 := ngroups_of_length (by rw [List.length_append, hX]; rfl)
  have hbelow : (List.range (n + 1)).reverse.map (groupText (X ++ [b0, b1, b2, b3])) =
      (List.range (n + 1)).reverse.map (groupText X) := by
    refine List.map_congr_left fun k hk => groupText_append_of_lt ?_ _
    have : k < n + 1 := by simpa using hk
    omega
  rw [bodyText, bodyText, hall, hlow, List.range_succ, List.reverse_concat, List.map_cons, hbelow,
    groupText_append_top (k := n + 1) hX, List.range_succ, List.reverse_concat, List.map_cons,
    String.intercalate_cons_cons]

/-! ### The statements -/

/-- Settles O23: the two fields as data, and the bits index by index. -/
theorem readOutRecoversRegister : Obligations.ReadOutRecoversRegister := by
  intro r s x hx hlen
  refine ⟨?_, ?_, ?_⟩
  · rw [doutAfter_of_exec (exec_vsign_present hx), State.done_dout, State.setDout_dout, bitDatum_eq]
  · rw [doutAfter_of_exec (exec_vlen_present hx)]
    exact congrArg some (Nat.mod_eq_of_lt hlen)
  · refine List.ext_getElem (by simp) fun i hi _ => ?_
    have hi' : i < x.bits.length := by simpa using hi
    rw [List.getElem_map, List.getElem_map, List.getElem_range, doutAfter_vget hx hlen hi']

/-- Settles O59: the branch the effective sign takes, and the groups from the highest one down. -/
theorem displayRendersDigits : Obligations.DisplayRendersDigits := by
  refine fun sep x => ⟨fun hpos style => ?_, fun hneg => ⟨if_pos hneg, if_pos hneg⟩, bodyText_single sep,
    fun n => bodyText_append_top sep⟩
  exact if_neg (by simp [hpos])

/-- Settles O10, field by field. -/
theorem resetClearsBlock : Obligations.ResetClearsBlock :=
  fun s => ⟨s.resetBlock_read, s.resetBlock_status, s.resetBlock_dout⟩

/-- Settles O11, field by field. -/
theorem resetStateValues : Obligations.ResetStateValues := ⟨State.reset_read, rfl, rfl⟩

end Sys2Proof.Machine
end

section
/-! SUPPORT. The signed operations (spec `47_signed_ops.md` R230 to R244): ADDS, SUBS, MULS and CMPS past their tests, the
sign of a product, the order of two signed values as a datum, and the statements about the four commands. -/

namespace Sys2Proof.Machine

/-! ### ADDS, SUBS and MULS with two present operands of valid digits (R231, R236, R239) -/

section
variable {s : State} {ra rb : RegNum} {x y : BcdNumber}

/-- Past the tests the signed sum decides. -/
theorem exec_adds_valid (hx : s.read ra = some x) (hy : s.read rb = some y) (rd : RegNum)
    (hvx : validDigits x.bits = true) (hvy : validDigits y.bits = true) :
    exec (.adds rd ra rb) s = commitReg rd (addSigned x y) s :=
  (commitReg_src2_present hx hy _).trans (commitReg_checkDigits_valid hvx hvy _)

/-- Past the tests the signed difference decides. -/
theorem exec_subs_valid (hx : s.read ra = some x) (hy : s.read rb = some y) (rd : RegNum)
    (hvx : validDigits x.bits = true) (hvy : validDigits y.bits = true) :
    exec (.subs rd ra rb) s = commitReg rd (subtractSigned x y) s :=
  (commitReg_src2_present hx hy _).trans (commitReg_checkDigits_valid hvx hvy _)

/-- Past the tests the signed product decides. -/
theorem exec_muls_valid (hx : s.read ra = some x) (hy : s.read rb = some y) (rd : RegNum)
    (hvx : validDigits x.bits = true) (hvy : validDigits y.bits = true) :
    exec (.muls rd ra rb) s = commitReg rd (multiplySigned x y) s :=
  (commitReg_src2_present hx hy _).trans (commitReg_checkDigits_valid hvx hvy _)

/-- CMPS with two present operands examines no digits (R243). -/
theorem exec_cmps_present (hx : s.read ra = some x) (hy : s.read rb = some y) :
    exec (.cmps ra rb) s = .next (s.setDout (cmpDatum (compareSigned x y))).done := by
  rw [exec, execCmps, src2_present hx hy]; rfl

end

/-- A result that exists exactly within capacity ends its command so: written with `STATUS` 0, or AllocationFailure. -/
theorem commitReg_of_capacity {within : Prop} {good : BcdNumber → Prop} {res : Except Err BcdNumber}
    (hroom : within → ∃ z, res = .ok z ∧ good z) (hfull : ¬ within → res = .error .allocationFailure) (rd : RegNum)
    (s : State) : (¬ within → commitReg rd res s = .next { s with status := 1 }) ∧
    (within → ∃ z, commitReg rd res s = .next { s.write rd (some z) with status := 0 } ∧ good z) := by
  refine ⟨fun hno => by rw [hfull hno]; rfl, fun hw => ?_⟩
  obtain ⟨z, hz, hgood⟩ := hroom hw
  exact ⟨z, by rw [hz]; rfl, hgood⟩

/-! ### The sign of a product (R238) -/

/-- A vector is zero exactly when the value is, whatever the stored sign (R26). -/
theorem value_ne_zero_iff {x : BcdNumber} : value x ≠ 0 ↔ isZero x.bits = false := by
  rw [ne_eq, value_eq_zero, ← isZero_iff_decval, Bool.not_eq_true]

/-- A value that is the product of two others, neither of them zero, has the exclusive-or of their signs. -/
theorem effneg_of_value_mul {x y z : BcdNumber} (hx : value x ≠ 0) (hy : value y ≠ 0)
    (hz : value z = value x * value y) : effneg z = (effneg x ^^ effneg y) := by
  have hneg : value z < 0 ↔ ¬ (value x < 0 ↔ value y < 0) := by
    rw [hz, mul_neg_iff]; omega
  rw [value_neg_iff, value_neg_iff, value_neg_iff, ← Bool.eq_iff_iff, ← ne_eq, ← Bool.xor_iff_ne] at hneg
  exact Bool.eq_iff_iff.2 hneg

/-! ### The order of two signed values as a datum (R90, R241, R242) -/

/-- The opposite of an order of natural numbers is the order of the exchanged numbers. -/
theorem opposite_cmpNat (a b : Nat) : opposite (cmpNat a b) = cmpNat b a := by
  rcases Nat.lt_trichotomy a b with hlt | rfl | hgt
  · rw [cmpNat_less.2 hlt, cmpNat_greater.2 hlt]; rfl
  · rw [cmpNat_equal.2 rfl]; rfl
  · rw [cmpNat_greater.2 hgt, cmpNat_less.2 hgt]; rfl

/-- The datum of a signed comparison: different effective signs decide, equal ones leave it to the binary values, in
reverse for two negative operands. -/
theorem cmpDatum_compareSigned (x y : BcdNumber) : cmpDatum (compareSigned x y) =
    if effneg x = true ∧ effneg y = false then 0xFFFFFFFFFFFFFFFF
    else if effneg x = false ∧ effneg y = true then 1
    else if effneg x = true then natOrderDatum (val y.bits) (val x.bits)
    else natOrderDatum (val x.bits) (val y.bits) := by
  rw [compareSigned, compareMagnitude_val, opposite_cmpNat, ← cmpDatum_cmpNat, ← cmpDatum_cmpNat]
  cases effneg x <;> cases effneg y <;> rfl

/-- The datum of a comparison of integers, as the statements write it. -/
theorem cmpDatum_cmpInt (a b : Int) : cmpDatum (cmpInt a b) = intOrderDatum a b := by
  unfold cmpInt intOrderDatum
  split_ifs <;> rfl

/-! ### The statements -/

/-- Settles O41: past the tests `addSigned_spec` gives the sum and the capacity clause. -/
theorem addsWritesCanonicalSum : Obligations.AddsWritesCanonicalSum := by
  refine fun rd ra rb s => ⟨fieldOp_packWord .., exec_of_absent_operand rfl nofun, fun x y hx hy =>
    ⟨exec_of_invalid_digits rfl rfl rfl hx hy, fun hvx hvy => ?_⟩⟩
  obtain ⟨hroom, hfull⟩ := addSigned_spec hvx hvy
  rw [sumWithin_iff, exec_adds_valid hx hy rd hvx hvy]
  exact commitReg_of_capacity hroom hfull rd s

/-- Settles O42: past the tests `subtractSigned_spec` gives the difference and the capacity clause. -/
theorem subsWritesCanonicalDifference : Obligations.SubsWritesCanonicalDifference := by
  refine fun rd ra rb s => ⟨fieldOp_packWord .., exec_of_absent_operand rfl nofun, fun x y hx hy =>
    ⟨exec_of_invalid_digits rfl rfl rfl hx hy, fun hvx hvy => ?_⟩⟩
  obtain ⟨hroom, hfull⟩ := subtractSigned_spec hvx hvy
  rw [sumWithin_iff, exec_subs_valid hx hy rd hvx hvy]
  exact commitReg_of_capacity hroom hfull rd s

/-- Settles O43: past the tests `multiplySigned_spec` gives the zero clause, the product and the capacity clause; the
stored sign of a canonical product is its effective one. -/
theorem mulsWritesCanonicalProduct : Obligations.MulsWritesCanonicalProduct := by
  refine fun rd ra rb s => ⟨fieldOp_packWord .., exec_of_absent_operand rfl nofun, fun x y hx hy =>
    ⟨exec_of_invalid_digits rfl rfl rfl hx hy, fun hvx hvy => ?_⟩⟩
  obtain ⟨hzero, hnonzero⟩ := multiplySigned_spec hvx hvy
  rw [withinMaxBits_eq, exec_muls_valid hx hy rd hvx hvy]
  refine ⟨fun h0 => ?_, fun hx0 hy0 => ?_⟩
  · rw [isZero_iff_decval, isZero_iff_decval, ← value_eq_zero, ← value_eq_zero] at h0
    rw [hzero h0]; rfl
  · have hx0 := value_ne_zero_iff.2 hx0
    have hy0 := value_ne_zero_iff.2 hy0
    obtain ⟨hroom, hfull⟩ := hnonzero hx0 hy0
    rw [← Bool.not_eq_true]
    refine commitReg_of_capacity (fun hfit => ?_) (fun hno => hfull (Bool.not_eq_true _ ▸ hno)) rd s
    obtain ⟨z, hz, hcan, hval⟩ := hroom hfit
    exact ⟨z, hz, hcan, hval, (canonical_sign hcan).symm.trans (effneg_of_value_mul hx0 hy0 hval)⟩

/-- Settles O44: the datum of the comparison for any contents, and for valid digits the order of the numbers. -/
theorem cmpsOrdersValues : Obligations.CmpsOrdersValues := by
  refine fun ra rb s => ⟨fieldOp_packWord .., exec_of_absent_operand rfl nofun, fun x y hx hy => ?_⟩
  rw [exec_cmps_present hx hy]
  refine ⟨by rw [cmpDatum_compareSigned]; rfl, fun hvx hvy => ?_⟩
  rw [compareSigned_spec hvx hvy, cmpDatum_cmpInt]; rfl

end Sys2Proof.Machine
end

section
/-! SUPPORT. The laws of signed arithmetic (spec `49_arithmetic_laws.md` R269, R270, R272): results are canonical values
of exact sums and products, and a canonical value is determined by its number, so each law is one of integers. -/

namespace Sys2Proof.Machine

/-! ### Sums (R269, R270) -/

section
variable {a b y : BcdNumber}

/-- The capacity condition of a sum does not depend on the order of the operands. -/
theorem sumFits_comm (a b : BcdNumber) : sumFits a b ↔ sumFits b a := by
  simp only [sumFits, cw_comm a.bits b.bits, Nat.add_comm (decval a.bits) (decval b.bits), eq_comm (a := effneg a)]

/-- A sum that could be made is the canonical value of the exact sum. -/
theorem addSigned_eq_ok (ha : validDigits a.bits = true) (hb : validDigits b.bits = true)
    (h : addSigned a b = .ok y) : canonical y = true ∧ value y = value a + value b := by
  obtain ⟨hroom, hfull⟩ := addSigned_spec ha hb
  by_cases hfit : sumFits a b
  · obtain ⟨z, hz, hspec⟩ := hroom hfit
    cases hz.symm.trans h
    exact hspec
  · cases (hfull hfit).symm.trans h

theorem addSigned_comm (ha : validDigits a.bits = true) (hb : validDigits b.bits = true) :
    addSigned a b = addSigned b a := by
  obtain ⟨hroom, hfull⟩ := addSigned_spec ha hb
  obtain ⟨hroom', hfull'⟩ := addSigned_spec hb ha
  by_cases hfit : sumFits a b
  · obtain ⟨y, hy, hcan, hval⟩ := hroom hfit
    obtain ⟨z, hz, hcan', hval'⟩ := hroom' ((sumFits_comm a b).1 hfit)
    have hyz : value y = value z := by rw [hval, hval', Int.add_comm]
    rw [hy, hz, canonical_unique hcan hcan' hyz]
  · rw [hfull hfit, hfull' fun h => hfit ((sumFits_comm a b).2 h)]

/-- The two groupings of a sum of three, where all four sums could be made. -/
theorem addSigned_assoc {c u v l r : BcdNumber} (ha : validDigits a.bits = true) (hb : validDigits b.bits = true)
    (hc : validDigits c.bits = true) (hu : addSigned a b = .ok u) (hl : addSigned u c = .ok l)
    (hv : addSigned b c = .ok v) (hr : addSigned a v = .ok r) : l = r := by
  obtain ⟨hcu, hvalu⟩ := addSigned_eq_ok ha hb hu
  obtain ⟨hcv, hvalv⟩ := addSigned_eq_ok hb hc hv
  obtain ⟨hcl, hvall⟩ := addSigned_eq_ok (canonical_valid hcu).1 hc hl
  obtain ⟨hcr, hvalr⟩ := addSigned_eq_ok ha (canonical_valid hcv).1 hr
  refine canonical_unique hcl hcr ?_
  rw [hvall, hvalu, hvalr, hvalv, Int.add_assoc]

end

/-! ### Products (R272) -/

/-- `fromInteger(1)`: one group needs no more than the least capacity. -/
theorem fromInteger_one : ∃ one, fromInteger 1 = .ok one ∧ validDigits one.bits = true ∧ value one = 1 ∧
    roundUp4 one.bits.length = 4 := by
  obtain ⟨one, hone, hcan, hval, -, hlen⟩ := (fromInteger_spec 1).1 (fits_76 (by decide))
  exact ⟨one, hone, (canonical_valid hcan).1, hval, by rw [hlen]; rfl⟩

/-- A product of the same number as one of its operands is what `trim` makes of that operand, where the width of both
can be made. -/
theorem multiplySigned_eq_trim {a x y : BcdNumber} (ha : validDigits a.bits = true) (hx : validDigits x.bits = true)
    (hy : validDigits y.bits = true) (hval : value x * value y = value a)
    (hfit : fits (roundUp4 x.bits.length + roundUp4 y.bits.length) = true) {p : BcdNumber} (hp : trim a = .ok p) :
    multiplySigned x y = .ok p := by
  obtain ⟨hcan, hvalp⟩ := trim_canonical ha hp
  obtain ⟨hzero, hnonzero⟩ := multiplySigned_spec hx hy
  by_cases h0 : value x = 0 ∨ value y = 0
  · have hp0 : value p = value BcdNumber.zero4 := by rw [hvalp, ← hval, mul_eq_zero.2 h0]; rfl
    rw [hzero h0, canonical_unique hcan canonical_zero4 hp0]
  · obtain ⟨hx0, hy0⟩ := not_or.1 h0
    obtain ⟨z, hz, hcanz, hvalz⟩ := (hnonzero hx0 hy0).1 hfit
    rw [hz, canonical_unique hcanz hcan (by rw [hvalz, hval, hvalp])]

/-! ### The statements -/

/-- Settles O45: sums of the same number, made under the same condition. -/
theorem additionCommutesAndAssociates : Obligations.AdditionCommutesAndAssociates :=
  fun _ _ _ ha hb hc => ⟨addSigned_comm ha hb, fun _ _ _ _ hu hl hv hr => addSigned_assoc ha hb hc hu hl hv hr⟩

/-- Settles O46: the sum is a canonical value of 0. -/
theorem additiveInverseIsZero : Obligations.AdditiveInverseIsZero := by
  intro a ha hfit
  obtain ⟨-, hneg, -⟩ := negate_spec a
  have hvn : validDigits (negate a).bits = true := by rw [negate_bits]; exact ha
  obtain ⟨y, hy, hcan, hval⟩ := (addSigned_spec ha hvn).1 ((sumWithin_iff a _).1 hfit)
  have hy0 : value y = value BcdNumber.zero4 := by rw [hval, hneg, Int.add_right_neg]; rfl
  rw [hy, canonical_unique hcan canonical_zero4 hy0]; rfl

/-- Settles O47: a zero operand takes the zero branch, and times 1 the product is of the operand's own number. -/
theorem multiplicationIdentityAndZero : Obligations.MultiplicationIdentityAndZero := by
  obtain ⟨one, hone, hvone, hvalone, hlen⟩ := fromInteger_one
  refine ⟨BcdNumber.zero4, one, fromInteger_zero, hone, fun a ha => ⟨?_, ?_, fun hfit => ?_⟩⟩
  · exact (multiplySigned_spec ha (by decide)).1 (.inr rfl)
  · exact (multiplySigned_spec (by decide) ha).1 (.inl rfl)
  · rw [withinMaxBits_eq] at hfit
    obtain ⟨p, hp⟩ := trim_total (x := a) (fits_mono hfit (Nat.le_add_right _ 4))
    refine ⟨p, hp, multiplySigned_eq_trim ha ha hvone ?_ ?_ hp, multiplySigned_eq_trim ha hvone ha ?_ ?_ hp⟩
    · rw [hvalone, Int.mul_one]
    · rwa [hlen]
    · rw [hvalone, Int.one_mul]
    · rwa [hlen, Nat.add_comm]

end Sys2Proof.Machine
end

section
/-! SUPPORT. The errors of commands (spec `60_exceptions.md` R280 to R290): what a command that ends in an error leaves,
which errors each command can end in, in which order their conditions decide, and the statements about them. -/

namespace Sys2Proof.Machine

/-! ### Commands that end in an error (R282) -/

/-- A command whose `STATUS` is not 0 ended in the error of its result, and is not `REL`. -/
theorem exec_error {i : Instr} {s t : State} (h : exec i s = .next t) (hne : t.status ≠ 0) :
    ∃ e, t = s.raise e ∧ (∀ rd, i ≠ .rel rd) ∧
      (i.dest ≠ none ∧ regResult i s = .error e ∨ i.dest = none ∧ doutResult i s = .error e) := by
  rcases exec_cases h with ⟨rd, -, rfl⟩ | ⟨rd, v, -, -, rfl⟩ | ⟨d, -, -, rfl⟩ | ⟨e, hres, rfl⟩
  · exact absurd rfl hne
  · exact absurd rfl hne
  · exact absurd rfl hne
  · refine ⟨e, rfl, fun rd hi => ?_, hres.imp_left fun ⟨rd, hd, he⟩ => ⟨by simp [hd], he⟩⟩
    subst hi
    exact hne (congrArg State.status (Host.Outcome.next.inj h)).symm

/-! ### Which errors a computation can end in -/

/-- A property of the error of a computation, where it ends in one. -/
def OnError {α : Type} (P : Err → Prop) : Except Err α → Prop
  | .ok _ => True
  | .error e => P e

/-- The error of a vector that would be too long, which there is only with a finite `MAXBITS` (R283). -/
def CapacityError (e : Err) : Prop := e = .allocationFailure ∧ Config.maxBits ≠ none

/-- An error that the row of a command in the table of R289 allows. -/
def AllowedError (i : Instr) (e : Err) : Prop :=
  i.mayReport e = true ∧ (e = .allocationFailure → Config.maxBits ≠ none)

theorem CapacityError.allowed {i : Instr} {e : Err} (h : CapacityError e) (hi : i.mayAllocFail = true) :
    AllowedError i e := by
  obtain ⟨rfl, hmax⟩ := h
  exact ⟨hi, fun _ => hmax⟩

/-- Without a finite `MAXBITS` every vector can be made (R11). -/
theorem fits_of_unbounded (h : Config.maxBits = none) (n : Nat) : fits n = true :=
  fits_iff.2 fun m hm => by rw [h] at hm; cases hm

section
variable {α β : Type} {P Q : Err → Prop}

theorem OnError.mono {res : Except Err α} (h : OnError P res) (hPQ : ∀ e, P e → Q e) : OnError Q res := by
  cases res with
  | ok v => trivial
  | error e => exact hPQ e h

theorem OnError.allowed {i : Instr} {res : Except Err α} (h : OnError CapacityError res)
    (hi : i.mayAllocFail = true) : OnError (AllowedError i) res :=
  h.mono fun _ he => he.allowed hi

/-- A sequence ends in an error of its first part or of its second. -/
theorem onError_bind {res : Except Err α} {f : α → Except Err β} (hres : OnError P res)
    (hf : ∀ a, OnError P (f a)) : OnError P (res >>= f) := by
  cases res with
  | ok a => exact hf a
  | error e => exact hres

/-- A command that reads one source. -/
theorem onError_src {s : State} {r : RegNum} {f : BcdNumber → Except Err α} (habs : P .absentOperand)
    (hf : ∀ x, OnError P (f x)) : OnError P (src s r >>= f) := by
  refine onError_bind ?_ hf
  rcases src_cases (s := s) (r := r) with ⟨x, -, hsrc⟩ | ⟨-, hsrc⟩
  · rw [hsrc]; trivial
  · rw [hsrc]; exact habs

/-- A command that reads two sources. -/
theorem onError_src2 {s : State} {ra rb : RegNum} {f : BcdNumber × BcdNumber → Except Err α}
    (habs : P .absentOperand) (hf : ∀ x y, OnError P (f (x, y))) : OnError P (src2 s ra rb >>= f) := by
  refine onError_bind ?_ fun (x, y) => hf x y
  rcases src2_cases (s := s) (ra := ra) (rb := rb) with ⟨x, y, -, -, hsrc⟩ | ⟨-, hsrc⟩
  · rw [hsrc]; trivial
  · rw [hsrc]; exact habs

/-- A computation on two values that validates their digits first (R285). -/
theorem onError_checkDigits {x y : BcdNumber} {f : Unit → Except Err α} (hbad : P .invalidDigit)
    (hf : validDigits x.bits = true → validDigits y.bits = true → OnError P (f ())) :
    OnError P (checkDigits x y >>= f) := by
  rcases checkDigits_cases (x := x) (y := y) with ⟨hx, hy, hcheck⟩ | ⟨-, hcheck⟩
  · rw [hcheck]; exact hf hx hy
  · rw [hcheck]; exact hbad

/-- A command that validates two sources and then computes. -/
theorem onError_arithmetic {s : State} {ra rb : RegNum} {f : BcdNumber → BcdNumber → Except Err α}
    (habs : P .absentOperand) (hbad : P .invalidDigit)
    (hf : ∀ x y, validDigits x.bits = true → validDigits y.bits = true → OnError P (f x y)) :
    OnError P (do let (x, y) ← src2 s ra rb; checkDigits x y; f x y) :=
  onError_src2 habs fun x y => onError_checkDigits hbad (hf x y)

/-- A computation that fails only outside a condition on lengths, which holds where there is no finite `MAXBITS`. -/
theorem onError_of_capacity {within : Prop} {res : Except Err α} (hroom : within → ∃ v, res = .ok v)
    (hfull : ¬ within → res = .error .allocationFailure) (hfree : Config.maxBits = none → within) :
    OnError CapacityError res := by
  by_cases hw : within
  · obtain ⟨v, hres⟩ := hroom hw
    rw [hres]; trivial
  · rw [hfull hw]; exact ⟨rfl, fun hnone => hw (hfree hnone)⟩

/-- The same for one length. -/
theorem onError_of_fits {n : Nat} {res : Except Err α} (hroom : fits n = true → ∃ v, res = .ok v)
    (hfull : fits n = false → res = .error .allocationFailure) : OnError CapacityError res :=
  onError_of_capacity hroom (fun hno => hfull (Bool.not_eq_true _ ▸ hno)) (fits_of_unbounded · n)

end

/-! ### The operations (R283) -/

theorem create_error_capacity (n : Nat) : OnError CapacityError (create n) :=
  onError_of_fits (fun h => ⟨_, create_ok h⟩) create_error

theorem resize_error_capacity (X : Bits) (n : Nat) : OnError CapacityError (resize X n) :=
  onError_of_fits (fun h => ⟨_, resize_ok h⟩) resize_error

theorem make_error_capacity (X : Bits) : OnError CapacityError (make X) :=
  onError_of_fits (fun h => ⟨_, make_ok h⟩) make_error

theorem trim_error_capacity (x : BcdNumber) : OnError CapacityError (trim x) := by
  unfold trim; split
  · trivial
  · exact onError_bind (resize_error_capacity _ _) fun _ => trivial

/-- `add` tests the lengths of its operands, then makes vectors (R154, R163). -/
theorem add_error_kinds (A B : Bits) : OnError (fun e => e = .sizeMismatch ∨ CapacityError e) (add A B) := by
  unfold add; split
  · exact .inl rfl
  · refine OnError.mono ?_ fun _ => .inr
    refine onError_bind (create_error_capacity _) fun _ => ?_
    dsimp only; split
    · exact make_error_capacity _
    · trivial

section
variable {A B : Bits} {a b : BcdNumber}

theorem subtractMagnitude_error_capacity (hA : validDigits A = true) (hB : validDigits B = true) :
    OnError CapacityError (subtractMagnitude A B) := by
  obtain ⟨hroom, hfull⟩ := subtractMagnitude_spec hA hB
  refine onError_of_fits (fun hfit => ?_) hfull
  obtain ⟨M, sign, hsub, -⟩ := hroom hfit
  exact ⟨_, hsub⟩

theorem multiplyMagnitude_error_capacity (hA : validDigits A = true) (hB : validDigits B = true) :
    OnError CapacityError (multiplyMagnitude A B) :=
  onError_of_fits (fun hfit => ((multiplyMagnitude_spec hA hB).1 hfit).imp fun _ => And.left)
    (multiplyMagnitude_spec hA hB).2

theorem addSigned_error_capacity (ha : validDigits a.bits = true) (hb : validDigits b.bits = true) :
    OnError CapacityError (addSigned a b) := by
  obtain ⟨hroom, hfull⟩ := addSigned_spec ha hb
  refine onError_of_capacity (fun hfit => (hroom hfit).imp fun _ => And.left) hfull fun hnone => ?_
  simp [sumFits, fits_of_unbounded hnone]

theorem multiplySigned_error_capacity (ha : validDigits a.bits = true) (hb : validDigits b.bits = true) :
    OnError CapacityError (multiplySigned a b) := by
  unfold multiplySigned; split
  · trivial
  · exact onError_bind (multiplyMagnitude_error_capacity ha hb) fun _ => trim_error_capacity _

end

/-- `toInteger` makes no vector (R134, R135). -/
theorem toInteger_error_kinds (x : BcdNumber) : OnError (fun e => e = .invalidDigit ∨ e = .overflow) (toInteger x) := by
  unfold toInteger; split
  · split
    · exact .inr rfl
    · trivial
  · exact .inl rfl

/-! ### The commands (R289) -/

/-- The result of every command with a destination but `REL`, whose result is none: its errors are those of its row. -/
theorem regResult_error_allowed {i : Instr} (s : State) (hd : i.dest ≠ none) (hrel : ∀ rd, i ≠ .rel rd) :
    OnError (AllowedError i) (regResult i s) := by
  cases i
  case vcreate => exact onError_bind ((create_error_capacity _).allowed rfl) fun _ => trivial
  case vset | vcopy | neg => exact onError_src ⟨rfl, nofun⟩ fun _ => trivial
  case vresize =>
    exact onError_src ⟨rfl, nofun⟩ fun x =>
      onError_bind ((resize_error_capacity x.bits _).allowed rfl) fun _ => trivial
  case fromint =>
    obtain ⟨x, hok, -⟩ := fromInteger_word s.din
    rw [regResult, dinInt, hok]; trivial
  case trim => exact onError_src ⟨rfl, nofun⟩ fun x => (trim_error_capacity x).allowed rfl
  case addm =>
    refine onError_src2 ⟨rfl, nofun⟩ fun x y => ?_
    dsimp only; split
    · exact ⟨rfl, nofun⟩
    · refine onError_checkDigits ⟨rfl, nofun⟩ fun _ _ => onError_bind ?_ fun _ => trivial
      refine (add_error_kinds x.bits y.bits).mono fun e he => ?_
      rcases he with rfl | he
      · exact ⟨rfl, nofun⟩
      · exact he.allowed rfl
  case subm =>
    exact onError_src2 ⟨rfl, nofun⟩ fun x y => onError_checkDigits ⟨rfl, nofun⟩ fun hx hy =>
      onError_bind ((subtractMagnitude_error_capacity hx hy).allowed rfl) fun _ => trivial
  case mulm =>
    exact onError_src2 ⟨rfl, nofun⟩ fun x y => onError_checkDigits ⟨rfl, nofun⟩ fun hx hy =>
      onError_bind ((multiplyMagnitude_error_capacity hx hy).allowed rfl) fun _ => trivial
  case adds =>
    exact onError_arithmetic ⟨rfl, nofun⟩ ⟨rfl, nofun⟩ fun x y hx hy => (addSigned_error_capacity hx hy).allowed rfl
  case subs =>
    exact onError_arithmetic ⟨rfl, nofun⟩ ⟨rfl, nofun⟩ fun x y hx hy =>
      (addSigned_error_capacity hx (by rw [negate_bits]; exact hy)).allowed rfl
  case muls =>
    exact onError_arithmetic ⟨rfl, nofun⟩ ⟨rfl, nofun⟩ fun x y hx hy =>
      (multiplySigned_error_capacity hx hy).allowed rfl
  case rel rd => exact absurd rfl (hrel rd)
  case vget | vlen | vsign | toint | cmpm | cmps => exact absurd rfl hd

/-- The datum of every command that returns one: its errors are those of its row. -/
theorem doutResult_error_allowed {i : Instr} (s : State) (hd : i.dest = none) :
    OnError (AllowedError i) (doutResult i s) := by
  cases i
  case vget | vlen | vsign => exact onError_src ⟨rfl, nofun⟩ fun _ => trivial
  case toint =>
    refine onError_src ⟨rfl, nofun⟩ fun x => onError_bind ?_ fun _ => trivial
    refine (toInteger_error_kinds x).mono fun e he => ?_
    rcases he with rfl | rfl <;> exact ⟨rfl, nofun⟩
  case cmpm ra rb =>
    refine onError_bind ?_ fun _ => trivial
    cases s.read ra <;> cases s.read rb
    case none.none => exact ⟨rfl, nofun⟩
    all_goals trivial
  case cmps => exact onError_src2 ⟨rfl, nofun⟩ fun _ _ => trivial
  all_goals cases hd

/-! ### The statements -/

/-- Settles O48: the one way a command ends in an error sets `STATUS` alone. -/
theorem errorChangesStatusOnly : Obligations.ErrorChangesStatusOnly := by
  intro i s t h hne
  obtain ⟨e, rfl, -⟩ := exec_error h hne
  rfl

/-- Settles O49: a `STATUS` other than 0 is the code of the error of the command's result. -/
theorem outcomeMatrix : Obligations.OutcomeMatrix := by
  intro i s t h
  refine or_iff_not_imp_left.2 fun hne => ?_
  obtain ⟨e, rfl, hrel, ⟨hd, he⟩ | ⟨hd, he⟩⟩ := exec_error h hne
  · have hall := regResult_error_allowed s hd hrel
    rw [he] at hall
    exact ⟨e, rfl, hall⟩
  · have hall := doutResult_error_allowed s hd
    rw [he] at hall
    exact ⟨e, rfl, hall⟩

end Sys2Proof.Machine
end

section
/-! SUPPORT. The order of the error conditions (spec `60_exceptions.md` R283 to R290): the end of a command under the
first condition that holds of it, one lemma per condition, and the statement about the order. -/

namespace Sys2Proof.Machine

/-! ### Absent sources, unequal sizes, illegal digits (R284 to R286) -/

section
variable {i : Instr} {s : State}

/-- A needed source is absent. -/
theorem exec_of_absentSource (h : absentSource i s) : exec i s = .next (s.raise .absentOperand) := by
  cases i
  case cmpm => exact exec_cmpm_both_absent h.1 h.2
  case vcreate | rel | fromint => obtain ⟨r, hr, -⟩ := h; cases hr
  case vget | vset | vresize | vcopy | vlen | vsign | toint | trim | neg =>
    exact exec_of_absent_source rfl (by simpa [absentSource, Instr.sources] using h)
  case addm | subm | mulm | adds | subs | muls | cmps =>
    exact exec_of_absent_operand rfl nofun (by simpa [absentSource, Instr.sources] using h)

/-- Where no needed source is absent, every source is present, but for `CMPM`. -/
theorem read_of_not_absentSource (h : ¬ absentSource i s) (hcmpm : ∀ ra rb, i ≠ .cmpm ra rb) {r : RegNum}
    (hr : r ∈ i.sources) : ∃ x, s.read r = some x := by
  refine Option.ne_none_iff_exists'.1 fun hnone => h ?_
  cases i
  case cmpm ra rb => exact absurd rfl (hcmpm ra rb)
  all_goals exact ⟨r, hr, hnone⟩

/-- The operands of `ADDM` differ in length or are no whole groups. -/
theorem exec_of_sizesDiffer (h : sizesDiffer i s) : exec i s = .next (s.raise .sizeMismatch) := by
  cases i
  case addm rd ra rb =>
    obtain ⟨x, y, hx, hy, hsize⟩ := h
    exact exec_addm_mismatch hx hy rd hsize
  all_goals exact h.elim

/-- An operand that is read as a number has an illegal group. -/
theorem exec_of_badDigits (habs : ¬ absentSource i s) (hsize : ¬ sizesDiffer i s) (h : badDigits i s) :
    exec i s = .next (s.raise .invalidDigit) := by
  obtain ⟨hchecks, r, hr, z, hz, hbad⟩ := h
  have two {ra rb : RegNum} (hsrc : i.sources = [ra, rb]) (hcmpm : ∀ ra rb, i ≠ .cmpm ra rb) : ∃ x y,
      s.read ra = some x ∧ s.read rb = some y ∧ (validDigits x.bits = false ∨ validDigits y.bits = false) := by
    obtain ⟨x, hx⟩ := read_of_not_absentSource habs hcmpm (r := ra) (by simp [hsrc])
    obtain ⟨y, hy⟩ := read_of_not_absentSource habs hcmpm (r := rb) (by simp [hsrc])
    refine ⟨x, y, hx, hy, ?_⟩
    rw [hsrc, List.mem_pair] at hr
    rcases hr with rfl | rfl
    · rw [hx] at hz; cases hz; exact .inl hbad
    · rw [hy] at hz; cases hz; exact .inr hbad
  cases i
  case toint ra =>
    obtain rfl := List.mem_singleton.1 hr
    exact exec_toint_of_error hz ((toInteger_spec z).1 hbad)
  case addm rd ra rb =>
    obtain ⟨x, y, hx, hy, hor⟩ := two rfl nofun
    exact exec_addm_invalid hx hy rd (fun hdiff => hsize ⟨x, y, hx, hy, hdiff⟩) hor
  case subm | mulm | adds | subs | muls =>
    obtain ⟨x, y, hx, hy, hor⟩ := two rfl nofun
    exact exec_of_invalid_digits rfl rfl rfl hx hy hor
  all_goals cases hchecks

/-- Where no operand has an illegal group, the operands of the commands that check digits are valid. -/
theorem validDigits_of_not_badDigits (h : ¬ badDigits i s) (hchecks : i.checksDigits = true) {r : RegNum}
    (hr : r ∈ i.sources) {x : BcdNumber} (hx : s.read r = some x) : validDigits x.bits = true := by
  by_contra hbad
  exact h ⟨hchecks, r, hr, x, hx, Bool.not_eq_true _ ▸ hbad⟩

end

/-! ### The capacity condition of `TRIM` (R283) -/

section
variable {X : Bits}

/-- A partial top group that is not zero is the highest group, so all of it is kept. -/
theorem significantGroups_of_partial_top (h : dig X (X.length / 4) ≠ 0) :
    4 * significantGroups X = roundUp4 X.length := by
  have hlt : X.length / 4 < ngroups X := Nat.lt_of_not_le fun hle => h (dig_beyond hle)
  rw [ngroups_eq] at hlt
  rw [significantGroups_of_top h fun k hk => dig_beyond (by rw [ngroups_eq]; omega), roundUp4]
  omega

/-- Without such a group only whole groups are kept, so the vector does not grow. -/
theorem significantGroups_of_zero_top (h : dig X (X.length / 4) = 0) : 4 * significantGroups X ≤ X.length := by
  obtain ⟨hle, -, htop⟩ := significantGroups_spec X
  rw [ngroups_eq] at hle
  by_contra hgt
  have hsig : significantGroups X - 1 = X.length / 4 := by omega
  exact htop (by omega) (hsig ▸ h)

/-- `trim` of a value within capacity fails exactly where a partial top group that is not zero cannot be completed. -/
theorem trim_capacity {x : BcdNumber} (hfit : fits x.bits.length = true) :
    (fits (roundUp4 x.bits.length) = false ∧ dig x.bits (x.bits.length / 4) ≠ 0 →
      trim x = .error .allocationFailure) ∧
    (¬ (fits (roundUp4 x.bits.length) = false ∧ dig x.bits (x.bits.length / 4) ≠ 0) → ∃ y, trim x = .ok y) := by
  obtain ⟨hzero, hnonzero⟩ := trim_spec x
  refine ⟨fun ⟨hfull, htop⟩ => ?_, fun hno => ?_⟩
  · have hsig := significantGroups_of_partial_top htop
    have hne : decval x.bits ≠ 0 := fun h0 => htop (dig_eq_zero_of_significantGroups_le
      (significantGroups_eq_zero.2 h0 ▸ Nat.zero_le _))
    exact (hnonzero hne).2 (hsig ▸ hfull)
  · by_cases hround : fits (roundUp4 x.bits.length) = true
    · exact trim_total hround
    · have htop : dig x.bits (x.bits.length / 4) = 0 := by
        by_contra htop
        exact hno ⟨Bool.not_eq_true _ ▸ hround, htop⟩
      by_cases h0 : decval x.bits = 0
      · exact ⟨_, hzero h0⟩
      · exact ⟨_, (hnonzero h0).1 (fits_mono hfit (significantGroups_of_zero_top htop))⟩

end

/-! ### Capacity (R283) and range (R288) -/

/-- How a command ends past its other tests: a condition on lengths decides between AllocationFailure and success. -/
def EndsByCapacity (i : Instr) (s : State) (long : Prop) : Prop :=
  (long → exec i s = .next (s.raise .allocationFailure)) ∧ (¬ long → ∃ t, exec i s = .next t ∧ t.status = 0)

section
variable {i : Instr} {s : State} {long : Prop}

theorem endsByCapacity_of_result {rd : RegNum} {res : Except Err BcdNumber} (hexec : exec i s = commitReg rd res s)
    (hfull : long → res = .error .allocationFailure) (hroom : ¬ long → ∃ v, res = .ok v) :
    EndsByCapacity i s long := by
  refine ⟨fun hl => by rw [hexec, hfull hl]; rfl, fun hl => ?_⟩
  obtain ⟨v, hv⟩ := hroom hl
  exact ⟨_, by rw [hexec, hv]; rfl, rfl⟩

/-- The same from clauses about the command, of which the second names what it writes. -/
theorem endsByCapacity_of_clauses {α : Type} {good : α → Prop} {final : α → State}
    (hfull : long → exec i s = .next (s.raise .allocationFailure))
    (hroom : ¬ long → ∃ v, exec i s = .next (final v) ∧ good v) (h0 : ∀ v, (final v).status = 0) :
    EndsByCapacity i s long := by
  refine ⟨hfull, fun hl => ?_⟩
  obtain ⟨v, hv, -⟩ := hroom hl
  exact ⟨_, hv, h0 v⟩

/-- A command that makes no vector. -/
theorem endsByCapacity_of_ok {t : State} (h : exec i s = .next t) (h0 : t.status = 0) : EndsByCapacity i s False :=
  ⟨False.elim, fun _ => ⟨t, h, h0⟩⟩

/-- A command with one source, which is present where no source is absent. -/
theorem endsByCapacity_of_source {r : RegNum} (hsrc : i.sources = [r]) (habs : ¬ absentSource i s)
    (h : ∀ x, s.read r = some x → EndsByCapacity i s long) : EndsByCapacity i s long := by
  have hcmpm : ∀ ra rb, i ≠ .cmpm ra rb := by rintro ra rb rfl; cases hsrc
  obtain ⟨x, hx⟩ := read_of_not_absentSource habs hcmpm (r := r) (by simp [hsrc])
  exact h x hx

theorem bothHold_iff {ra rb : RegNum} {x y : BcdNumber} (hx : s.read ra = some x) (hy : s.read rb = some y)
    {P : BcdNumber → BcdNumber → Prop} : bothHold s ra rb P ↔ P x y := by
  simp [bothHold, hx, hy]

end

section
variable {i : Instr} {s : State} {ra rb : RegNum} {P : BcdNumber → BcdNumber → Prop}

/-- A command with two sources whose digits it checks: past its tests both are present, with valid digits. -/
theorem endsByCapacity_of_operands (hsrc : i.sources = [ra, rb]) (hcmpm : ∀ ra rb, i ≠ .cmpm ra rb)
    (hchecks : i.checksDigits = true) (habs : ¬ absentSource i s) (hbad : ¬ badDigits i s)
    (h : ∀ x y, s.read ra = some x → s.read rb = some y → validDigits x.bits = true → validDigits y.bits = true →
      EndsByCapacity i s (P x y)) : EndsByCapacity i s (bothHold s ra rb P) := by
  have ha : ra ∈ i.sources := by simp [hsrc]
  have hb : rb ∈ i.sources := by simp [hsrc]
  obtain ⟨x, hx⟩ := read_of_not_absentSource habs hcmpm ha
  obtain ⟨y, hy⟩ := read_of_not_absentSource habs hcmpm hb
  rw [bothHold_iff hx hy]
  exact h x y hx hy (validDigits_of_not_badDigits hbad hchecks ha hx) (validDigits_of_not_badDigits hbad hchecks hb hy)

end

/-- Past the tests of `ADDM` the carry out of the operands' groups needs one group more. -/
theorem addm_endsByCapacity {s : State} {rd ra rb : RegNum} {x y : BcdNumber} (hx : s.read ra = some x)
    (hy : s.read rb = some y) (hsize : ¬ (x.bits.length ≠ y.bits.length ∨ x.bits.length % 4 ≠ 0))
    (hvx : validDigits x.bits = true) (hvy : validDigits y.bits = true) (hfit : withinMaxBits x.bits.length = true) :
    EndsByCapacity (.addm rd ra rb) s
      (10 ^ (x.bits.length / 4) ≤ decval x.bits + decval y.bits ∧ withinMaxBits (x.bits.length + 4) = false) := by
  rw [withinMaxBits_eq] at hfit ⊢
  obtain ⟨hsame, hgrow⟩ := add_spec (by omega) (by omega) hvx hvy hfit
  refine endsByCapacity_of_result (exec_addm_valid hx hy rd hsize hvx hvy) (fun ⟨hge, hfull⟩ => ?_) fun hno => ?_
  · rw [(hgrow hge).2 hfull]; rfl
  · rcases Nat.lt_or_ge (decval x.bits + decval y.bits) (10 ^ (x.bits.length / 4)) with hlt | hge
    · obtain ⟨R, hadd, -⟩ := hsame hlt
      exact ⟨_, by rw [hadd]; rfl⟩
    · obtain ⟨R, hadd, -⟩ := (hgrow hge).1 (by_contra fun hfull => hno ⟨hge, Bool.not_eq_true _ ▸ hfull⟩)
      exact ⟨_, by rw [hadd]; rfl⟩

/-- Past the tests of `MULS` a zero operand needs no room (R240). -/
theorem muls_endsByCapacity {s : State} {rd ra rb : RegNum} {x y : BcdNumber} (hx : s.read ra = some x)
    (hy : s.read rb = some y) (hvx : validDigits x.bits = true) (hvy : validDigits y.bits = true) :
    EndsByCapacity (.muls rd ra rb) s (isZero x.bits = false ∧ isZero y.bits = false ∧
      withinMaxBits (roundUp4 x.bits.length + roundUp4 y.bits.length) = false) := by
  obtain ⟨-, -, hpresent⟩ := mulsWritesCanonicalProduct rd ra rb s
  obtain ⟨hzero, hnonzero⟩ := (hpresent x y hx hy).2 hvx hvy
  by_cases h0 : isZero x.bits = true ∨ isZero y.bits = true
  · refine ⟨fun ⟨hx0, hy0, _⟩ => ?_, fun _ => ⟨_, hzero h0, rfl⟩⟩
    simp [hx0, hy0] at h0
  · simp only [not_or, Bool.not_eq_true] at h0
    obtain ⟨hx0, hy0⟩ := h0
    obtain ⟨hfull, hroom⟩ := hnonzero hx0 hy0
    simp only [hx0, hy0, true_and]
    exact endsByCapacity_of_clauses hfull (fun h => hroom (Bool.not_eq_false _ ▸ h)) fun _ => rfl

/-- `TRIM` of a present source within capacity. -/
theorem trim_endsByCapacity {s : State} {rd ra : RegNum} {x : BcdNumber} (hs : regsFit s) (hx : s.read ra = some x) :
    EndsByCapacity (.trim rd ra) s (tooLong (.trim rd ra) s) := by
  have hfit : fits x.bits.length = true := (withinMaxBits_eq _).symm.trans (everyRegister_read hs hx)
  obtain ⟨hfull, hroom⟩ := trim_capacity hfit
  simp only [tooLong, hx, Option.some.injEq, exists_eq_left', withinMaxBits_eq]
  exact endsByCapacity_of_result (commitReg_src_present hx _) hfull hroom

/-- The commands that check the digits of two sources, past their other tests: each ends in AllocationFailure under the
condition of its row of R283, and else succeeds. -/
theorem arithmetic_endsByCapacity {i : Instr} {s : State} {ra rb : RegNum} (hsrc : i.sources = [ra, rb])
    (hchecks : i.checksDigits = true) (hs : regsFit s) (habs : ¬ absentSource i s) (hsize : ¬ sizesDiffer i s)
    (hbad : ¬ badDigits i s) : EndsByCapacity i s (tooLong i s) := by
  have hcmpm : ∀ ra rb, i ≠ .cmpm ra rb := by rintro ra rb rfl; cases hchecks
  cases i
  case addm rd ra rb =>
    exact endsByCapacity_of_operands rfl hcmpm hchecks habs hbad fun x y hx hy hvx hvy =>
      addm_endsByCapacity hx hy (fun hdiff => hsize ⟨x, y, hx, hy, hdiff⟩) hvx hvy (everyRegister_read hs hx)
  case subm rd ra rb =>
    refine endsByCapacity_of_operands rfl hcmpm hchecks habs hbad fun x y hx hy hvx hvy => ?_
    obtain ⟨-, -, hpresent⟩ := submSubtractsMagnitudes rd ra rb s
    obtain ⟨hfull, hroom⟩ := (hpresent x y hx hy).2 hvx hvy
    exact endsByCapacity_of_clauses hfull (fun h => hroom (Bool.not_eq_false _ ▸ h)) fun _ => rfl
  case mulm rd ra rb =>
    refine endsByCapacity_of_operands rfl hcmpm hchecks habs hbad fun x y hx hy hvx hvy => ?_
    obtain ⟨-, -, hpresent⟩ := mulmMultipliesMagnitudes rd ra rb s
    obtain ⟨hfull, hroom⟩ := (hpresent x y hx hy).2 hvx hvy
    exact endsByCapacity_of_clauses hfull (fun h => hroom (Bool.not_eq_false _ ▸ h)) fun _ => rfl
  case adds rd ra rb =>
    refine endsByCapacity_of_operands rfl hcmpm hchecks habs hbad fun x y hx hy hvx hvy => ?_
    obtain ⟨-, -, hpresent⟩ := addsWritesCanonicalSum rd ra rb s
    obtain ⟨hfull, hroom⟩ := (hpresent x y hx hy).2 hvx hvy
    exact endsByCapacity_of_clauses hfull (fun h => hroom (not_not.1 h)) fun _ => rfl
  case subs rd ra rb =>
    refine endsByCapacity_of_operands rfl hcmpm hchecks habs hbad fun x y hx hy hvx hvy => ?_
    obtain ⟨-, -, hpresent⟩ := subsWritesCanonicalDifference rd ra rb s
    obtain ⟨hfull, hroom⟩ := (hpresent x y hx hy).2 hvx hvy
    exact endsByCapacity_of_clauses hfull (fun h => hroom (not_not.1 h)) fun _ => rfl
  case muls rd ra rb =>
    exact endsByCapacity_of_operands rfl hcmpm hchecks habs hbad fun x y => muls_endsByCapacity
  all_goals cases hsrc
  all_goals cases hchecks

/-- Past its other tests every command ends in AllocationFailure under the condition of its row of R283, and else
succeeds. -/
theorem exec_endsByCapacity {i : Instr} {s : State} (hs : regsFit s) (habs : ¬ absentSource i s)
    (hsize : ¬ sizesDiffer i s) (hbad : ¬ badDigits i s) (hrange : ¬ outOfRange i s) :
    EndsByCapacity i s (tooLong i s) := by
  cases i
  case vcreate rd =>
    obtain ⟨-, hroom, hfull⟩ := vcreateMakesZeroVector rd s
    exact ⟨hfull, fun h => ⟨_, hroom (Bool.not_eq_false _ ▸ h), rfl⟩⟩
  case vget => exact endsByCapacity_of_source rfl habs fun x hx => endsByCapacity_of_ok (exec_vget_present hx) rfl
  case vset rd f =>
    exact endsByCapacity_of_source rfl habs fun x hx => endsByCapacity_of_ok (exec_vset_present hx f) rfl
  case vresize rd ra f =>
    refine endsByCapacity_of_source rfl habs fun x hx => ?_
    obtain ⟨-, -, hpresent⟩ := vresizeKeepsLowBits rd ra f s
    obtain ⟨hroom, hfull⟩ := hpresent x hx
    exact ⟨hfull, fun h => ⟨_, hroom (Bool.not_eq_false _ ▸ h), rfl⟩⟩
  case vcopy rd ra =>
    exact endsByCapacity_of_source rfl habs fun x hx => endsByCapacity_of_ok (exec_vcopy_present hx rd) rfl
  case vlen => exact endsByCapacity_of_source rfl habs fun x hx => endsByCapacity_of_ok (exec_vlen_present hx) rfl
  case vsign => exact endsByCapacity_of_source rfl habs fun x hx => endsByCapacity_of_ok (exec_vsign_present hx) rfl
  case rel => exact endsByCapacity_of_ok rfl rfl
  case fromint =>
    obtain ⟨x, hok, -⟩ := fromInteger_word s.din
    exact endsByCapacity_of_ok (exec_fromint_of_ok hok) rfl
  case toint ra =>
    refine endsByCapacity_of_source rfl habs fun x hx => ?_
    have hvx := validDigits_of_not_badDigits hbad rfl (List.mem_singleton_self ra) hx
    have hin : -(2 ^ 63) ≤ value x ∧ value x ≤ 2 ^ 63 - 1 := by
      by_contra hout
      exact hrange ⟨x, hx, by omega⟩
    exact endsByCapacity_of_ok (exec_toint_of_ok hx (((toInteger_spec x).2 hvx).1 hin)) rfl
  case trim rd ra => exact endsByCapacity_of_source rfl habs fun x hx => trim_endsByCapacity hs hx
  case neg rd ra =>
    exact endsByCapacity_of_source rfl habs fun x hx => endsByCapacity_of_ok (exec_neg_present hx rd) rfl
  case cmpm ra rb =>
    have hsome : ∃ c, compareOperands (s.read ra) (s.read rb) = .ok c := by
      cases ha : s.read ra <;> cases hb : s.read rb
      case none.none => exact absurd ⟨ha, hb⟩ habs
      all_goals exact ⟨_, rfl⟩
    obtain ⟨c, hc⟩ := hsome
    exact endsByCapacity_of_ok (exec_cmpm_of_ok hc) rfl
  case cmps ra rb =>
    obtain ⟨x, hx⟩ := read_of_not_absentSource habs nofun (List.mem_pair.2 (.inl rfl) : ra ∈ [ra, rb])
    obtain ⟨y, hy⟩ := read_of_not_absentSource habs nofun (List.mem_pair.2 (.inr rfl) : rb ∈ [ra, rb])
    exact endsByCapacity_of_ok (exec_cmps_present hx hy) rfl
  case addm | subm | mulm | adds | subs | muls => exact arithmetic_endsByCapacity rfl rfl hs habs hsize hbad

/-- Only `TOINT` tests a range, and it makes no vector. -/
theorem not_outOfRange_of_tooLong {i : Instr} {s : State} (h : tooLong i s) : ¬ outOfRange i s := by
  cases i
  case toint => exact h.elim
  all_goals exact id

/-- A value out of the range of `TOINT`. -/
theorem exec_of_outOfRange {i : Instr} {s : State} (hbad : ¬ badDigits i s) (h : outOfRange i s) :
    exec i s = .next (s.raise .overflow) := by
  cases i
  case toint ra =>
    obtain ⟨x, hx, hout⟩ := h
    have hvx := validDigits_of_not_badDigits hbad rfl (List.mem_singleton_self ra) hx
    exact exec_toint_of_error hx (((toInteger_spec x).2 hvx).2 hout)
  all_goals exact h.elim

/-! ### The statement -/

/-- Settles O50: one lemma for each condition, under the negation of those before it. -/
theorem firstErrorIsReported : Obligations.FirstErrorIsReported := by
  intro i s t hs h
  have status_of {u : State} (hu : exec i s = .next u) : t.status = u.status :=
    congrArg State.status (Host.Outcome.next.inj (h.symm.trans hu))
  refine ⟨fun habs => status_of (exec_of_absentSource habs), fun _ hsize => status_of (exec_of_sizesDiffer hsize),
    fun habs hsize hbad => status_of (exec_of_badDigits habs hsize hbad), fun habs hsize hbad hlong => ?_,
    fun _ _ hbad _ hout => status_of (exec_of_outOfRange hbad hout), fun habs hsize hbad hlong hrange => ?_⟩
  · exact status_of ((exec_endsByCapacity hs habs hsize hbad (not_outOfRange_of_tooLong hlong)).1 hlong)
  · obtain ⟨u, hu, h0⟩ := (exec_endsByCapacity hs habs hsize hbad hrange).2 hlong
    exact (status_of hu).trans h0

end Sys2Proof.Machine
end

section
/-! SUPPORT. Valid digits as an invariant (spec `60_exceptions.md` R297): every value the commands of the guarantee write
has valid digits if every source has, and the statement about them. -/

namespace Sys2Proof.Machine

/-! ### Digits, group by group (R28) -/

/-- Digits are valid when every group is a digit, the zero groups read beyond the end included. -/
theorem validDigits_iff_forall_dig {X : Bits} : validDigits X = true ↔ ∀ k, (dig X k).toNat ≤ 9 := by
  simp only [validDigits, groups, List.all_map, List.all_eq_true, List.mem_range, Function.comp_apply,
    decide_eq_true_eq]
  refine ⟨fun h k => ?_, fun h k _ => h k⟩
  rcases Nat.lt_or_ge k (ngroups X) with hk | hk
  · exact h k hk
  · rw [dig_beyond hk]; decide

/-- A vector that has the groups of one with valid digits has valid digits. -/
theorem validDigits_of_dig_eq {X Y : Bits} (hX : validDigits X = true) (h : ∀ k, dig Y k = dig X k) :
    validDigits Y = true :=
  validDigits_iff_forall_dig.2 fun k => h k ▸ validDigits_iff_forall_dig.1 hX k

/-- Resizing that does not shrink adds zero bits, so every group stays, a partial top group included. -/
theorem dig_resized_of_le {X : Bits} {n : Nat} (h : X.length ≤ n) (k : Nat) : dig (resized X n) k = dig X k := by
  refine dig_congr fun j _ => ?_
  rw [getBit_resized]
  split
  · rfl
  · exact (getBit_ge (by omega)).symm

/-! ### The values that operations make -/

/-- A value with valid digits. -/
def ValueValid (x : BcdNumber) : Prop := validDigits x.bits = true

/-- A computation that succeeds under a condition, with a good result, and else fails. -/
theorem onSuccess_of_capacity {α : Type} {within : Prop} {P : α → Prop} {res : Except Err α}
    (hroom : within → ∃ v, res = .ok v ∧ P v) (hfull : ¬ within → res = .error .allocationFailure) :
    OnSuccess P res := by
  by_cases hw : within
  · obtain ⟨v, hres, hv⟩ := hroom hw
    rw [hres]; exact hv
  · rw [hfull hw]; trivial

/-- A result that profile PUBLIC admits, canonical where there is one, has valid digits. -/
theorem PublicResult.valid {res : Except Err BcdNumber} (h : PublicResult (canonical · = true) res) :
    OnSuccess ValueValid res := by
  cases res with
  | ok v => exact (canonical_valid h).1
  | error e => trivial

/-- `trim` keeps every group (R216). -/
theorem trim_valid {x : BcdNumber} (hx : ValueValid x) : OnSuccess ValueValid (trim x) := by
  cases h : trim x with
  | ok y => exact validDigits_of_dig_eq hx (trim_dig h)
  | error e => trivial

theorem negate_valid {x : BcdNumber} (hx : ValueValid x) : ValueValid (negate x) := by
  rw [ValueValid, negate_bits]; exact hx

section
variable {A B : Bits}

/-- A resized vector that does not shrink (R297). -/
theorem resize_valid {n : Nat} (h : A.length ≤ n) (hA : validDigits A = true) :
    OnSuccess (validDigits · = true) (resize A n) := by
  cases hfit : fits n with
  | false => rw [resize_error hfit]; trivial
  | true => rw [resize_ok hfit]; exact validDigits_of_dig_eq hA (dig_resized_of_le h)

/-- The sum of operands of the same whole groups (R156). -/
theorem add_valid (hl : A.length = B.length) (h4 : A.length % 4 = 0) (hA : validDigits A = true)
    (hB : validDigits B = true) : OnSuccess (validDigits · = true) (add A B) := by
  cases hfit : fits A.length with
  | false => rw [add, if_neg (by omega), create_error hfit]; trivial
  | true =>
    obtain ⟨hsame, hgrow⟩ := add_spec hl h4 hA hB hfit
    rcases Nat.lt_or_ge (decval A + decval B) (10 ^ (A.length / 4)) with hlt | hge
    · obtain ⟨R, hadd, -, hR, -⟩ := hsame hlt
      rw [hadd]; exact hR
    · obtain ⟨hroom, hfull⟩ := hgrow hge
      refine onSuccess_of_capacity (fun hw => ?_) fun hno => hfull (Bool.not_eq_true _ ▸ hno)
      obtain ⟨R, hadd, -, hR, -⟩ := hroom hw
      exact ⟨R, hadd, hR⟩

theorem subtractMagnitude_valid (hA : validDigits A = true) (hB : validDigits B = true) :
    OnSuccess (fun r => validDigits r.1 = true) (subtractMagnitude A B) := by
  obtain ⟨hroom, hfull⟩ := subtractMagnitude_spec hA hB
  refine onSuccess_of_capacity (fun hw => ?_) fun hno => hfull (Bool.not_eq_true _ ▸ hno)
  obtain ⟨M, sign, hsub, hres⟩ := hroom hw
  exact ⟨_, hsub, hres.valid⟩

theorem multiplyMagnitude_valid (hA : validDigits A = true) (hB : validDigits B = true) :
    OnSuccess (validDigits · = true) (multiplyMagnitude A B) := by
  obtain ⟨hroom, hfull⟩ := multiplyMagnitude_spec hA hB
  refine onSuccess_of_capacity (fun hw => ?_) fun hno => hfull (Bool.not_eq_true _ ▸ hno)
  obtain ⟨P, hmul, -, hP, -⟩ := hroom hw
  exact ⟨P, hmul, hP⟩

end

/-! ### The commands (R297) -/

/-- A source that is read has valid digits where every register has. -/
theorem src_valid {s : State} (hs : regsValid s) (r : RegNum) : OnSuccess ValueValid (src s r) := by
  rcases src_cases (s := s) (r := r) with ⟨x, hx, hsrc⟩ | ⟨-, hsrc⟩
  · rw [hsrc]; exact everyRegister_read hs hx
  · rw [hsrc]; trivial

/-- A source that is read is what the register holds (R111). -/
theorem read_of_src_eq_ok {s : State} {r : RegNum} {x : BcdNumber} (h : src s r = .ok x) : s.read r = some x := by
  rcases src_cases (s := s) (r := r) with ⟨y, hy, hsrc⟩ | ⟨-, hsrc⟩
  · rw [hsrc] at h; cases h; exact hy
  · rw [hsrc] at h; cases h

/-- What follows the validation of two values computes on valid digits alone (R285). -/
theorem onSuccess_checkDigits {α : Type} {x y : BcdNumber} {P : α → Prop} {f : Unit → Except Err α}
    (hf : validDigits x.bits = true → validDigits y.bits = true → OnSuccess P (f ())) :
    OnSuccess P (checkDigits x y >>= f) := by
  rcases checkDigits_cases (x := x) (y := y) with ⟨hx, hy, hcheck⟩ | ⟨-, hcheck⟩
  · rw [hcheck]; exact hf hx hy
  · rw [hcheck]; trivial

/-- Every value that a command of the guarantee hands to its destination has valid digits, if every register has. -/
theorem regResult_valid {i : Instr} {s : State} (hi : keepsDigitsValid i s) (hs : regsValid s) :
    OnSuccess ValueValid (regResult i s) := by
  cases i
  case vresize rd ra f =>
    refine onSuccess_bind fun x hx => onSuccess_bind fun X hX => ?_
    have hgrow : x.bits.length ≤ s.din.toNat := hi x (read_of_src_eq_ok hx)
    exact (resize_valid hgrow ((src_valid hs ra).of_ok hx)).of_ok hX
  case vcopy rd ra => exact onSuccess_bind fun x hx => (src_valid hs ra).of_ok hx
  case fromint => exact (fromInteger_public _).valid
  case trim rd ra => exact onSuccess_bind fun x hx => trim_valid ((src_valid hs ra).of_ok hx)
  case neg rd ra => exact onSuccess_bind fun x hx => negate_valid ((src_valid hs ra).of_ok hx)
  case addm rd ra rb =>
    refine onSuccess_bind fun (x, y) _ => ?_
    dsimp only; split
    · trivial
    · rename_i hsize
      exact onSuccess_checkDigits fun hx hy => onSuccess_bind fun _ hR =>
        (add_valid (by omega) (by omega) hx hy).of_ok hR
  case subm =>
    exact onSuccess_bind fun (x, y) _ => onSuccess_checkDigits fun hx hy => onSuccess_bind fun _ hM =>
      (subtractMagnitude_valid hx hy).of_ok hM
  case mulm =>
    exact onSuccess_bind fun (x, y) _ => onSuccess_checkDigits fun hx hy => onSuccess_bind fun _ hP =>
      (multiplyMagnitude_valid hx hy).of_ok hP
  case adds =>
    exact onSuccess_bind fun (x, y) _ => onSuccess_checkDigits fun hx hy => (addSigned_public hx hy).valid
  case subs =>
    exact onSuccess_bind fun (x, y) _ => onSuccess_checkDigits fun hx hy => (subtractSigned_public hx hy).valid
  case muls =>
    exact onSuccess_bind fun (x, y) _ => onSuccess_checkDigits fun hx hy => (multiplySigned_public hx hy).valid
  case vcreate | vget | vset | vlen | vsign | rel | toint | cmpm | cmps => exact hi.elim

/-! ### The statement -/

/-- Settles O54: the destination receives a value with valid digits, and no other register changes. -/
theorem arithmeticKeepsDigitsValid : Obligations.ArithmeticKeepsDigitsValid := by
  intro i s t hi hs h
  rcases exec_cases h with ⟨rd, -, rfl⟩ | ⟨rd, v, -, hv, rfl⟩ | ⟨d, -, -, rfl⟩ | ⟨e, -, rfl⟩
  · exact everyRegister_write hs rfl
  · exact everyRegister_write hs ((regResult_valid hi hs).of_ok hv)
  · exact hs
  · exact hs

end Sys2Proof.Machine
end
